-- ==== Sys2Proof/Word.lean ====
section
/-! DEFINITION. The data the core works on: characters, texts, bits, bit vectors and the direction flag
(spec/00_scope.md R8, R11; spec/10_state.md R23). -/

namespace Sys2Proof

/-- A character: an 8-bit unsigned code (R11, decision D4). -/
abbrev Chr := BitVec 8

/-- A text: a finite sequence of characters, element 0 the leftmost (R8, R62). -/
abbrev Text := List Chr

/-- A bit vector: a finite sequence of bits, index 0 first; its length is part of its value (R8, R120, R126). -/
abbrev Bits := List Bool

/-- The direction flag DIR, the source's `encrypt: bool` (R23). -/
inductive Dir where
  | decrypt
  | encrypt
  deriving DecidableEq, Repr

end Sys2Proof
end

