-- ==== Sys2Proof/Syntax.lean ====
section
/-! DEFINITION. The sixteen operations of spec/opcode_table.json and the four formats of their encoded words
(spec/30_encoding.md R90, R100, R101, R102, R104). -/

namespace Sys2Proof

/-- The eight algorithms an ALG field names (R91, R92). -/
inductive Alg where
  | skip
  | caesar
  | mono
  | vigenere
  | railfence
  | rowcol
  | des
  | playfair
  deriving DecidableEq, Repr

/-- The six permutation tables TSEL of PERMUTE selects (R100, R231). -/
inductive PermTable where
  | p10
  | p8
  | p4
  | ip
  | ipinv
  | ep
  deriving DecidableEq, Repr

/-- The two boxes TSEL of SBOX selects (R100, R232). -/
inductive SBoxId where
  | s0
  | s1
  deriving DecidableEq, Repr

/-- The subkey KSEL of FK selects, and with it the round: K1 in round 1, K2 in round 2 (R101, R251). -/
inductive Subkey where
  | k1
  | k2
  deriving DecidableEq, Repr

/-- One constructor per row of spec/opcode_table.json. A Layer operation carries its key string; the text W and the
direction DIR are implicit operands (R90). SKIP has no operand: its KLEN and KEY are not read (R283). The operands of an
internal operation are registers (R29, R61). -/
inductive Instr where
  | skip
  | caesar (key : Text)
  | mono (key : Text)
  | vigenere (key : Text)
  | railfence (key : Text)
  | rowcol (key : Text)
  | des (key : Text)
  | playfair (key : Text)
  | permute (t : PermTable)
  | rotl
  | xor
  | sbox (b : SBoxId)
  | keysched
  | fk (k : Subkey)
  | block
  | run
  deriving DecidableEq, Repr

/-- An encoded operation in one of the four formats (R104): a Layer descriptor with its header byte, KLEN and KEY (R90), a
BVU word (R100), an SDESQ word (R101), or bit 0 of a write to CTRL (R102). -/
inductive Word where
  | layer (header : BitVec 8) (klen : Nat) (key : Text)
  | bvu (w : BitVec 5)
  | sdesq (w : BitVec 3)
  | cmd (w : BitVec 1)
  deriving DecidableEq, Repr

/-- The Layer operation an algorithm and a key string make (R92). -/
def Instr.ofLayer (alg : Alg) (key : Text) : Instr :=
  match alg with
  | .skip => .skip
  | .caesar => .caesar key
  | .mono => .mono key
  | .vigenere => .vigenere key
  | .railfence => .railfence key
  | .rowcol => .rowcol key
  | .des => .des key
  | .playfair => .playfair key

/-- The algorithm and key of a Layer operation; nothing for an internal operation or a command. -/
def Instr.layer? (i : Instr) : Option (Alg × Text) :=
  match i with
  | .skip => some (.skip, [])
  | .caesar key => some (.caesar, key)
  | .mono key => some (.mono, key)
  | .vigenere key => some (.vigenere, key)
  | .railfence key => some (.railfence, key)
  | .rowcol key => some (.rowcol, key)
  | .des key => some (.des, key)
  | .playfair key => some (.playfair, key)
  | .permute _ => none
  | .rotl => none
  | .xor => none
  | .sbox _ => none
  | .keysched => none
  | .fk _ => none
  | .block => none
  | .run => none

end Sys2Proof
end

