-- ==== Sys2Proof/Decode.lean ====
section
/-! DEFINITION. The decoder of the four formats, total on every word and rejecting by name, and after it the encoder
(spec/30_encoding.md R90 to R92, R98 to R102; spec/opcode_table.json). All numeric codes are the spec's own decisions D3
and D24. -/

namespace Sys2Proof

/-- Why a word has no operation. -/
inductive DecodeError where
  /-- A Layer descriptor whose KEY has fewer than KLEN characters (R90). -/
  | keyTruncated
  /-- PERMUTE with TSEL 110 or 111, or SBOX with TSEL above 001: reserved, never issued (R100). -/
  | reservedTable
  /-- ROTL or XOR with TSEL other than 000: not a word of the table (R100). -/
  | reservedTsel
  /-- SOP 11: reserved, never issued (R101). -/
  | reservedSop
  /-- KEYSCHED or BLOCK with KSEL 1: not a word of the table (R101). -/
  | reservedKsel
  /-- A write to CTRL with bit 0 clear, which does nothing (R102). -/
  | notStart
  deriving DecidableEq, Repr

/-- The ALG field, header bits 2..0; header bits 7..3 are ignored (R90, R98). -/
def algField (header : BitVec 8) : BitVec 3 := header.extractLsb' 0 3

/-- The algorithm of an ALG code; all eight codes are assigned (R92, R98). -/
def algOfCode (c : BitVec 3) : Alg :=
  match c.toNat with
  | 0 => .skip
  | 1 => .caesar
  | 2 => .mono
  | 3 => .vigenere
  | 4 => .railfence
  | 5 => .rowcol
  | 6 => .des
  | _ => .playfair

/-- The ALG code of an algorithm (R92). -/
def algCode (a : Alg) : BitVec 3 :=
  match a with
  | .skip => 0b000#3
  | .caesar => 0b001#3
  | .mono => 0b010#3
  | .vigenere => 0b011#3
  | .railfence => 0b100#3
  | .rowcol => 0b101#3
  | .des => 0b110#3
  | .playfair => 0b111#3

/-- The textual `algorithmId` of an algorithm (R91). -/
def algorithmId (a : Alg) : String :=
  match a with
  | .skip => ""
  | .caesar => "caesar"
  | .mono => "monoalphabetic"
  | .vigenere => "vigenere"
  | .railfence => "railfence"
  | .rowcol => "rowcolumn"
  | .des => "des"
  | .playfair => "playfair"

/-- The algorithm of a textual identifier; comparison is exact and any other string is refused (R91, R98, U13). -/
def algOfId (id : String) : Option Alg :=
  [Alg.skip, .caesar, .mono, .vigenere, .railfence, .rowcol, .des, .playfair].find? fun a => algorithmId a == id

/-- A Layer descriptor: ALG selects the operation, KEY[0..KLEN) is its key; SKIP reads neither (R90, R283). -/
def decodeLayer (header : BitVec 8) (klen : Nat) (key : Text) : Except DecodeError Instr :=
  let alg := algOfCode (algField header)
  if alg = .skip then .ok .skip
  else if klen ≤ key.length then .ok (Instr.ofLayer alg (key.take klen))
  else .error .keyTruncated

/-- The table TSEL of PERMUTE selects; 110 and 111 are reserved (R100). -/
def permTableOf (tsel : BitVec 3) : Option PermTable :=
  match tsel.toNat with
  | 0 => some .p10
  | 1 => some .p8
  | 2 => some .p4
  | 3 => some .ip
  | 4 => some .ipinv
  | 5 => some .ep
  | _ => none

/-- The box TSEL of SBOX selects; values other than 000 and 001 are reserved (R100). -/
def sboxIdOf (tsel : BitVec 3) : Option SBoxId :=
  match tsel.toNat with
  | 0 => some .s0
  | 1 => some .s1
  | _ => none

/-- A BVU word: BVOP in bits 4..3, TSEL in bits 2..0 (R100). -/
def decodeBvu (w : BitVec 5) : Except DecodeError Instr :=
  let tsel := w.extractLsb' 0 3
  match (w.extractLsb' 3 2).toNat with
  | 0 => match permTableOf tsel with
    | some t => .ok (.permute t)
    | none => .error .reservedTable
  | 1 => if tsel = 0#3 then .ok .rotl else .error .reservedTsel
  | 2 => if tsel = 0#3 then .ok .xor else .error .reservedTsel
  | _ => match sboxIdOf tsel with
    | some b => .ok (.sbox b)
    | none => .error .reservedTable

/-- An SDESQ word: SOP in bits 2..1, KSEL in bit 0 (R101). -/
def decodeSdesq (w : BitVec 3) : Except DecodeError Instr :=
  let ksel := w.extractLsb' 0 1
  match (w.extractLsb' 1 2).toNat with
  | 0 => if ksel = 0#1 then .ok .keysched else .error .reservedKsel
  | 1 => .ok (.fk (if ksel = 0#1 then .k1 else .k2))
  | 2 => if ksel = 0#1 then .ok .block else .error .reservedKsel
  | _ => .error .reservedSop

/-- Bit 0 of a write to CTRL (R102). -/
def decodeCmd (w : BitVec 1) : Except DecodeError Instr :=
  if w = 1#1 then .ok .run else .error .notStart

/-- The decoder of an encoded operation. -/
def decode (w : Word) : Except DecodeError Instr :=
  match w with
  | .layer header klen key => decodeLayer header klen key
  | .bvu w => decodeBvu w
  | .sdesq w => decodeSdesq w
  | .cmd w => decodeCmd w

/-- TSEL of a permutation table (R100). -/
def permTsel (t : PermTable) : BitVec 3 :=
  match t with
  | .p10 => 0b000#3
  | .p8 => 0b001#3
  | .p4 => 0b010#3
  | .ip => 0b011#3
  | .ipinv => 0b100#3
  | .ep => 0b101#3

/-- TSEL of a substitution box (R100). -/
def sboxTsel (b : SBoxId) : BitVec 3 :=
  match b with
  | .s0 => 0b000#3
  | .s1 => 0b001#3

/-- KSEL of a subkey (R101). -/
def subkeyKsel (k : Subkey) : BitVec 1 :=
  match k with
  | .k1 => 0#1
  | .k2 => 1#1

/-- The header byte of an algorithm, reserved bits written as 0 (R90). -/
def headerOf (a : Alg) : BitVec 8 := 0b00000#5 ++ algCode a

/-- The encoded form of an operation (R90, R100 to R102). -/
def encode (i : Instr) : Word :=
  match i with
  | .skip => .layer (headerOf .skip) 0 []
  | .caesar key => .layer (headerOf .caesar) key.length key
  | .mono key => .layer (headerOf .mono) key.length key
  | .vigenere key => .layer (headerOf .vigenere) key.length key
  | .railfence key => .layer (headerOf .railfence) key.length key
  | .rowcol key => .layer (headerOf .rowcol) key.length key
  | .des key => .layer (headerOf .des) key.length key
  | .playfair key => .layer (headerOf .playfair) key.length key
  | .permute t => .bvu (0b00#2 ++ permTsel t)
  | .rotl => .bvu (0b01#2 ++ 0b000#3)
  | .xor => .bvu (0b10#2 ++ 0b000#3)
  | .sbox b => .bvu (0b11#2 ++ sboxTsel b)
  | .keysched => .sdesq (0b00#2 ++ 0#1)
  | .fk k => .sdesq (0b01#2 ++ subkeyKsel k)
  | .block => .sdesq (0b10#2 ++ 0#1)
  | .run => .cmd 1#1

/-- A row of spec/opcode_table.json: the width, the mask and the match of the operation's fixed bits. -/
structure OpcodeRow where
  width : Nat
  mask : Nat
  pattern : Nat
  deriving DecidableEq, Repr

/-- The row of spec/opcode_table.json of an operation. -/
def opcodeRow (i : Instr) : OpcodeRow :=
  match i with
  | .skip => ⟨8, 0x07, 0x00⟩
  | .caesar _ => ⟨8, 0x07, 0x01⟩
  | .mono _ => ⟨8, 0x07, 0x02⟩
  | .vigenere _ => ⟨8, 0x07, 0x03⟩
  | .railfence _ => ⟨8, 0x07, 0x04⟩
  | .rowcol _ => ⟨8, 0x07, 0x05⟩
  | .des _ => ⟨8, 0x07, 0x06⟩
  | .playfair _ => ⟨8, 0x07, 0x07⟩
  | .permute _ => ⟨5, 0x18, 0x00⟩
  | .rotl => ⟨5, 0x1F, 0x08⟩
  | .xor => ⟨5, 0x1F, 0x10⟩
  | .sbox _ => ⟨5, 0x1E, 0x18⟩
  | .keysched => ⟨3, 0x7, 0x0⟩
  | .fk _ => ⟨3, 0x6, 0x2⟩
  | .block => ⟨3, 0x7, 0x4⟩
  | .run => ⟨1, 0x1, 0x1⟩

/-- The width in bits of the word the opcode table numbers, and the word itself: the header byte of a descriptor, or the
whole word of an internal format or command. -/
def Word.tableBits (w : Word) : Nat × Nat :=
  match w with
  | .layer header _ _ => (8, header.toNat)
  | .bvu w => (5, w.toNat)
  | .sdesq w => (3, w.toNat)
  | .cmd w => (1, w.toNat)

/-- The word of `nbits` bits `w` in the format of that width: 8 a Layer header (with KLEN = 0 and no key), 5 a BVU word, 3
an SDESQ word, 1 a CMD word. No other width is a format of the spec (DESIGN CHOICE, log entry 12). -/
def tableWord (nbits w : Nat) : Option Word :=
  match nbits with
  | 8 => some (.layer (BitVec.ofNat 8 w) 0 [])
  | 5 => some (.bvu (BitVec.ofNat 5 w))
  | 3 => some (.sdesq (BitVec.ofNat 3 w))
  | 1 => some (.cmd (BitVec.ofNat 1 w))
  | _ => none

/-- The operation the decoder reads from the word `w` of `nbits` bits. -/
def decodeTableWord (nbits w : Nat) : Option Instr :=
  match tableWord nbits w with
  | some word => (decode word).toOption
  | none => none

end Sys2Proof
end

