-- ==== Sys2Proof/Config.lean ====
section
/-! DEFINITION. The implementation parameters of spec/00_scope.md R7 in one record. The fixed ones are constants; the
OPEN ones are fields, so that a statement over all states holds for every value of them. -/

namespace Sys2Proof

/-- Which alphabet letter the Monoalphabetic inverse map keeps for a duplicated key character (R147, OPEN, D11). -/
inductive DupWinner where
  | first
  | last
  deriving DecidableEq, Repr

/-- What a `j` in the Playfair key does (R201, OPEN, D13; spec/90_conflicts.md C5). -/
inductive KeyJ where
  | toI
  | skip
  deriving DecidableEq, Repr

/-- One row of a substitution box: four values 0..3 (R9, R232). -/
structure SBoxRow where
  c0 : Fin 4
  c1 : Fin 4
  c2 : Fin 4
  c3 : Fin 4
  deriving DecidableEq, Repr

/-- A 4×4 substitution box. Its shape, every entry in 0..3, is carried by the type (R232; log entry 19). -/
structure SBoxTable where
  r0 : SBoxRow
  r1 : SBoxRow
  r2 : SBoxRow
  r3 : SBoxRow
  deriving DecidableEq, Repr

/-- The OPEN parameters of R7. A permutation table is a sequence of integers, 1-based source positions (R9, R121). The
capacities MAX_TEXT, MAX_LAYERS and MAX_KEY have no field: the model takes them unbounded (D20; log entry 6). -/
structure Config where
  p10 : List Int
  p8 : List Int
  p4 : List Int
  ip : List Int
  ipinv : List Int
  ep : List Int
  s0 : SBoxTable
  s1 : SBoxTable
  monoDupWinner : DupWinner
  playfairKeyJ : KeyJ
  base : Nat
  deriving DecidableEq, Repr

/-- KEY_BITS of R7. -/
def keyBits : Nat := 10
/-- BLOCK_BITS of R7. -/
def blockBits : Nat := 8
/-- SUBKEY_BITS of R7. -/
def subkeyBits : Nat := 8
/-- The number of letters of ALPHABET (R7). -/
def alphabetSize : Nat := 26
/-- The side of the Playfair key square (SQUARE of R7). -/
def squareSide : Nat := 5

end Sys2Proof
end

