-- ==== Sys2Proof/Machine/Operands.lean ====
section
/-! DEFINITION. The operand forms: character classes (spec/00_scope.md R11), floored arithmetic (R12), numbers of bits
(R10), the key decoders `parseInt`, `parseBits` and `showBits` (spec/30_encoding.md R94 to R96), and reading or writing a
sequence in a given visiting order. -/

namespace Sys2Proof.Machine

/-- The characters of a string constant of the model (codes of ASCII: PRESUMED, log entry 23). -/
def ascii (s : String) : Text := s.toList.map fun c => BitVec.ofNat 8 c.toNat

/-- `isUpper` of R11. -/
def isUpper (c : Chr) : Bool := 0x41 ≤ c.toNat && c.toNat ≤ 0x5A
/-- `isLower` of R11. -/
def isLower (c : Chr) : Bool := 0x61 ≤ c.toNat && c.toNat ≤ 0x7A
/-- `isAlpha` of R11. -/
def isAlpha (c : Chr) : Bool := isUpper c || isLower c
/-- `lower` of R11. -/
def lower (c : Chr) : Chr := if isUpper c then c + 0x20#8 else c
/-- `lowerText` of R11. -/
def lowerText (t : Text) : Text := t.map lower
/-- `chrL` of R11. -/
def chrL (n : Nat) : Chr := BitVec.ofNat 8 (0x61 + n)
/-- `chrU` of R11. -/
def chrU (n : Nat) : Chr := BitVec.ofNat 8 (0x41 + n)
/-- `ord0` of R11: a letter's position 0..25. -/
def ord0 (c : Chr) : Nat := (lower c).toNat - 0x61
/-- `ALPHABET` of R11. -/
def alphabet : Text := (List.range alphabetSize).map chrL
/-- A decimal digit (R94). -/
def isDigit (c : Chr) : Bool := 0x30 ≤ c.toNat && c.toNat ≤ 0x39
/-- The six whitespace characters of R95 (decision D6). -/
def isSpace (c : Chr) : Bool :=
  c.toNat == 0x20 || (0x09 ≤ c.toNat && c.toNat ≤ 0x0D)

/-- A letter position moved by an integer, modulo 26 with the floored remainder (R12). -/
def shiftPos (p : Nat) (k : Int) : Nat := (((p : Int) + k) % 26).toNat

/-- `ceil_div` of R12. -/
def ceilDiv (a n : Nat) : Nat := (a + n - 1) / n

/-- The value of a bit as a number. -/
def bitNat (b : Bool) : Nat := if b then 1 else 0
/-- `num2` of R10: the first bit is the more significant. -/
def num2 (a b : Bool) : Nat := 2 * bitNat a + bitNat b
/-- `bin2` of R10. -/
def bin2 (v : Nat) : Bits := [v / 2 == 1, v % 2 == 1]

/-- The packed register that holds a bit vector: index 0 is its most significant bit (R10, decision D5). -/
def packed (v : Bits) : Nat := v.foldl (fun acc b => 2 * acc + bitNat b) 0

/-- The decimal value of a string of digits, most significant first (R62). -/
def digitsValue (t : Text) : Nat := t.foldl (fun acc c => 10 * acc + (c.toNat - 0x30)) 0

/-- One or more decimal digits and nothing else (R94). -/
def parseDigits (t : Text) : Option Nat :=
  if t ≠ [] ∧ t.all isDigit then some (digitsValue t) else none

/-- `parseInt` of R94 (grammar: decision D7): an optional sign, then one or more digits; `none` for any other string. -/
def parseInt (k : Text) : Option Int :=
  match k with
  | [] => none
  | c :: t =>
    if c.toNat = 0x2B then (parseDigits t).map fun n : Nat => (n : Int)
    else if c.toNat = 0x2D then (parseDigits t).map fun n : Nat => -(n : Int)
    else (parseDigits (c :: t)).map fun n : Nat => (n : Int)

/-- `parseBits` of R95: whitespace dropped, `0` and `1` read as bits in order, `none` when malformed. -/
def parseBits (s : Text) : Option Bits :=
  match s with
  | [] => some []
  | c :: t =>
    if isSpace c then parseBits t
    else if c.toNat = 0x30 then (parseBits t).map (false :: ·)
    else if c.toNat = 0x31 then (parseBits t).map (true :: ·)
    else none

/-- `showBits` of R96. -/
def showBits (v : Bits) : Text := v.map fun b => BitVec.ofNat 8 (0x30 + bitNat b)

/-- The characters of `w` read in the visiting order `p`: output position `j` holds `w[p[j]]`. Every index of the orders
the engines use is below `len(w)` (R67), so the default character is never taken. -/
def gather (p : List Nat) (w : Text) : Text := p.map fun i => w.getD i 0

/-- A sequence of `len(w)` unset elements into which `w` is written in the visiting order `p`: element `p[j]` receives
`w[j]` (R173, R180). An unset element is held as character 0 until it is written; the orders the engines use write every
element (log entry 22). -/
def scatter (p : List Nat) (w : Text) : Text :=
  (p.zip w).foldl (fun out ic => out.set ic.1 ic.2) (List.replicate w.length 0)

end Sys2Proof.Machine
end

