-- ==== Sys2Proof/Machine/Rom.lean ====
section
/-! DEFINITION. The ROM of spec/20_memory.md R60: the S-DES tables a configuration holds, and the default configuration
(tables: spec/44_sdes.md R231, R232, PRESUMED, log entry 3; the other OPEN parameters: log entries 4 and 5). -/

namespace Sys2Proof.Machine

/-- A row of a box from its four entries. -/
def boxRow (a b c d : Fin 4) : SBoxRow := ⟨a, b, c, d⟩

/-- The default S0 of R232. -/
def defaultS0 : SBoxTable := ⟨boxRow 1 0 3 2, boxRow 3 2 1 0, boxRow 0 2 1 3, boxRow 3 1 3 2⟩

/-- The default S1 of R232. -/
def defaultS1 : SBoxTable := ⟨boxRow 0 1 2 3, boxRow 2 0 1 3, boxRow 3 0 1 0, boxRow 2 1 0 3⟩

/-- The configuration with the default tables of R231 and R232, the recommended `last` (R147) and `to_i` (R201), and
BASE 0. -/
def defaultConfig : Config where
  p10 := [3, 5, 2, 7, 4, 10, 1, 9, 8, 6]
  p8 := [6, 3, 7, 4, 8, 5, 10, 9]
  ip := [2, 6, 3, 1, 4, 8, 5, 7]
  ipinv := [4, 1, 3, 5, 7, 2, 8, 6]
  ep := [4, 1, 2, 3, 2, 3, 4, 1]
  p4 := [2, 4, 3, 1]
  s0 := defaultS0
  s1 := defaultS1
  monoDupWinner := .last
  playfairKeyJ := .toI
  base := 0

/-- The permutation table a selector names (R100). -/
def permTable (c : Config) (t : PermTable) : List Int :=
  match t with
  | .p10 => c.p10
  | .p8 => c.p8
  | .p4 => c.p4
  | .ip => c.ip
  | .ipinv => c.ipinv
  | .ep => c.ep

/-- The substitution box a selector names (R100). -/
def sboxTable (c : Config) (b : SBoxId) : SBoxTable :=
  match b with
  | .s0 => c.s0
  | .s1 => c.s1

/-- A row's entry; `col` is in 0..3 (R9). -/
def rowEntry (r : SBoxRow) (col : Nat) : Fin 4 :=
  match col with
  | 0 => r.c0
  | 1 => r.c1
  | 2 => r.c2
  | _ => r.c3

/-- The entry `S[row][col]`; `row` and `col` are in 0..3 (R9, R69). -/
def boxEntry (t : SBoxTable) (row col : Nat) : Fin 4 :=
  match row with
  | 0 => rowEntry t.r0 col
  | 1 => rowEntry t.r1 col
  | 2 => rowEntry t.r2 col
  | _ => rowEntry t.r3 col

end Sys2Proof.Machine
end

