-- ==== Sys2Proof/Machine/State.lean ====
section
/-! DEFINITION. The architectural state of spec/10_state.md and spec/20_memory.md, the reasons a step can stop, and the
state after reset (R37, R340). INVENTORY.md lists every field with its rule and reset value. -/

namespace Sys2Proof.Machine

/-- A buffer: (index, element) cells in canonical form, indices strictly rising; an unlisted element has not been written
and holds no value (R38; log entry 8). -/
abbrev Cells (α : Type) := List (Nat × α)

/-- A character buffer: TEXT_IN, a key, RESULT or TRACE (R60). -/
abbrev Memory := List Host.Cell

/-- One Layer descriptor as the host has written it, field by field; a field never written is `none` (R90, R66). -/
structure LayerEntry where
  header : Option (BitVec 8)
  klen : Option Nat
  key : Memory
  deriving DecidableEq, Repr

/-- STATUS.STATE (R26). -/
inductive RunStatus where
  | idle
  | busy
  | done
  | fault
  deriving DecidableEq, Repr

/-- The fault kinds with the information they carry (R310). -/
inductive FaultKind where
  | invalidKeyFormat
  | lengthMismatch (a b : Nat)
  | indexOutOfRange (position : Nat) (entry : Int)
  | invalidBlockFormat
  deriving DecidableEq, Repr

/-- The 19 trace labels, in the order of R260. -/
inductive Label where
  | ksP10
  | ksSplit
  | ksLs1
  | ksK1
  | ksLs2
  | ksK2
  | bIp
  | bSplit
  | f1Ep
  | f1Xor
  | f1Sbox
  | f1P4
  | bSwitch
  | f2Ep
  | f2Xor
  | f2Sbox
  | f2P4
  | bCombine
  | bIpinv
  deriving DecidableEq, Repr

/-- A trace record: a label and one or two bit vectors (R260). -/
structure TraceRecord where
  label : Label
  parts : List Bits
  deriving DecidableEq, Repr

/-- The trace of one DES layer (R260). -/
abbrev Trace := List TraceRecord

/-- The S-DES datapath registers of R29, and T, the trace of the layer being executed (R255). -/
structure SdesRegs where
  keyv : Bits
  pk : Bits
  hl : Bits
  hr : Bits
  k1 : Bits
  k2 : Bits
  blk : Bits
  ipv : Bits
  l : Bits
  r : Bits
  epv : Bits
  xv : Bits
  sb : Bits
  fv : Bits
  pre : Bits
  outv : Bits
  trace : Trace
  deriving DecidableEq, Repr

/-- A cell of the Rail Fence array MARK (R33). -/
inductive MarkCell where
  | unmarked
  | marked
  | holding (c : Chr)
  deriving DecidableEq, Repr

/-- The scratch state of the classical engines (R31 to R34). MARK lists its cells other than unmarked by linear index
(log entry 16). -/
structure EngineRegs where
  shift : Nat
  map : List (Chr × Chr)
  ks : List Nat
  kp : Nat
  rails : Int
  row : Nat
  down : Bool
  mark : Cells MarkCell
  ncols : Nat
  nrows : Nat
  order : List Nat
  grid : List (Option Chr)
  sq : Text
  norm : Text
  dg : List (Chr × Chr)
  deriving DecidableEq, Repr

/-- The operand registers of the BVU (R61) and the port its result appears at (DESIGN CHOICE, log entry 10). -/
structure BvuPorts where
  a : Bits
  b : Bits
  out : Bits
  deriving DecidableEq, Repr

/-- An internal operation word waiting at the unit that executes it (DESIGN CHOICE, log entry 11). -/
inductive IssueWord where
  | bvu (w : BitVec 5)
  | sdesq (w : BitVec 3)
  deriving DecidableEq, Repr

/-- The state of the core. -/
structure State where
  start : Bool
  status : RunStatus
  dir : Dir
  nlayers : Nat
  tlen : Nat
  rlen : Nat
  trlen : Nat
  faultCause : BitVec 3
  faultLayer : Nat
  faultAlg : BitVec 3
  textIn : Memory
  layers : Cells LayerEntry
  result : Memory
  traceBuf : Memory
  w : Text
  lp : Nat
  traceAcc : List Trace
  eng : EngineRegs
  sdes : SdesRegs
  bvu : BvuPorts
  issue : Option IssueWord
  cfg : Config
  deriving DecidableEq, Repr

/-- The reasons a host access or a step stops with a fault. A fault of the spec (R310) is none of these: it is a next state
(R315, `takeFault`). -/
inductive Fault where
  /-- A host access to a register number other than 0..9 (R25, R68). Raised by `regRead` and `regWrite`. Safe: the model
  stops where the spec lists no register. -/
  | noSuchRegister (n : Nat)
  deriving DecidableEq, Repr

/-- The reasons an operation has no outcome. -/
inductive Refusal where
  /-- An instruction without a meaning in the model. Raised by no arm of `exec` that has a meaning. Safe. -/
  | notModelled (mnemonic : String)
  /-- ROTL of the empty vector, outside the operation's domain (R122, U9). Raised by ROTL, and by KEYSCHED and DES when an
  ill-formed P10 leaves an empty half (U20). Safe. -/
  | rotlEmpty
  /-- A run, or the fetch of a layer, whose inputs were not all written since reset (R38, U12). Raised by RUN and by a step
  of a run in progress. Safe. -/
  | inputNotWritten
  /-- An internal operation word that is reserved and never issued (R100, R101). Raised by a step. Safe. -/
  | reservedWord
  /-- A host read of an output that holds no value (R38, U22). Raised by `regRead`, `resultRead` and `traceRead`. Safe. -/
  | outputHoldsNoValue
  deriving DecidableEq, Repr

/-- Why a pure operation gives no value: it raised a fault, or it is outside its domain (R14). -/
inductive Stop where
  | raised (k : FaultKind)
  | refused (r : Refusal)
  deriving DecidableEq, Repr

/-- What a step finds to run. -/
inductive Fetched where
  /-- Nothing: no run in progress and no command (R342). -/
  | idle
  /-- A run in progress with LP at NLAYERS (R287). -/
  | endOfRun
  /-- An operation word and the state its operation runs in. -/
  | word (w : Word) (s : State)
  /-- A layer of a run in progress that the host never wrote (R38). -/
  | unwritten
  deriving DecidableEq, Repr

/-- S-DES datapath registers after reset: zeros of each register's width (R37 leaves them unspecified; DESIGN CHOICE, log
entry 7). -/
def SdesRegs.reset : SdesRegs where
  keyv := List.replicate 10 false
  pk := List.replicate 10 false
  hl := List.replicate 5 false
  hr := List.replicate 5 false
  k1 := List.replicate 8 false
  k2 := List.replicate 8 false
  blk := List.replicate 8 false
  ipv := List.replicate 8 false
  l := List.replicate 4 false
  r := List.replicate 4 false
  epv := List.replicate 8 false
  xv := List.replicate 8 false
  sb := List.replicate 4 false
  fv := List.replicate 4 false
  pre := List.replicate 8 false
  outv := List.replicate 8 false
  trace := []

/-- Engine scratch after reset (R37 leaves it unspecified; DESIGN CHOICE, log entry 7). -/
def EngineRegs.reset : EngineRegs where
  shift := 0
  map := []
  ks := []
  kp := 0
  rails := 0
  row := 0
  down := false
  mark := []
  ncols := 0
  nrows := 0
  order := []
  grid := []
  sq := []
  norm := []
  dg := []

/-- The state after reset: R37 and R340; buffers hold no value (log entry 8), scratch at the values of log entry 7, the
default configuration (log entries 2 to 5). -/
def State.reset : State where
  start := false
  status := .idle
  dir := .encrypt
  nlayers := 0
  tlen := 0
  rlen := 0
  trlen := 0
  faultCause := 0#3
  faultLayer := 0
  faultAlg := 0#3
  textIn := []
  layers := []
  result := []
  traceBuf := []
  w := []
  lp := 0
  traceAcc := []
  eng := EngineRegs.reset
  sdes := SdesRegs.reset
  bvu := ⟨[], [], []⟩
  issue := none
  cfg := defaultConfig

end Sys2Proof.Machine
end

