-- ==== Sys2Proof/Machine/Ops.lean ====
section
/-! DEFINITION. The shared operations over buffers, the Layer table and the run: reads and writes of sparse buffers
(spec/20_memory.md R60, spec/10_state.md R38), the Layer table index (R22, R281), the completion of a layer (R22, R286) and
TAKING A FAULT (spec/60_exceptions.md R315). There is no return from a fault (R318). -/

namespace Sys2Proof.Machine

/-- The element at an index; `none` when nothing has written it (R38). -/
def cellsRead {α : Type} (m : Cells α) (i : Nat) : Option α :=
  match m with
  | [] => none
  | c :: m => if c.1 = i then some c.2 else cellsRead m i

/-- The buffer with the element at an index written; indices stay strictly rising. -/
def cellsWrite {α : Type} (m : Cells α) (i : Nat) (v : α) : Cells α :=
  match m with
  | [] => [(i, v)]
  | c :: m =>
    if i < c.1 then (i, v) :: c :: m
    else if i = c.1 then (i, v) :: m
    else c :: cellsWrite m i v

/-- The canonical form: indices strictly rising, each at least `low`. -/
def cellsRising {α : Type} (low : Nat) (m : Cells α) : Bool :=
  match m with
  | [] => true
  | c :: m => decide (low ≤ c.1) && cellsRising (c.1 + 1) m

/-- The canonical form of a character buffer. No entry can equal what an unlisted element reads as, which is no value. -/
def Memory.wf (m : Memory) : Bool := cellsRising 0 m

/-- The element of a character buffer (R60). -/
def memRead (m : Memory) (i : Nat) : Option Chr := cellsRead m i
/-- A character buffer with one element written (R60). -/
def memWrite (m : Memory) (i : Nat) (c : Chr) : Memory := cellsWrite m i c

/-- `MemRead(space, i, n)` of R13: `n` consecutive elements; `none` when one of them holds no value. -/
def memReadFrom (m : Memory) (i n : Nat) : Option Text :=
  match n with
  | 0 => some []
  | n + 1 => match memRead m i with
    | some c => (memReadFrom m (i + 1) n).map (c :: ·)
    | none => none

/-- Elements 0 to n-1 of a buffer. -/
def memReadText (m : Memory) (n : Nat) : Option Text := memReadFrom m 0 n

/-- A buffer holding a text at the elements from index `i` on, and nothing else. -/
def memOfTextFrom (i : Nat) (t : Text) : Memory :=
  match t with
  | [] => []
  | c :: t => (i, c) :: memOfTextFrom (i + 1) t

/-- A buffer holding exactly a text (log entry 17). -/
def memOfText (t : Text) : Memory := memOfTextFrom 0 t

/-- A descriptor nothing has been written to. -/
def emptyEntry : LayerEntry := ⟨none, none, []⟩

/-- LAYER[i] as written so far. -/
def layerEntry (t : Cells LayerEntry) (i : Nat) : LayerEntry := (cellsRead t i).getD emptyEntry

/-- The descriptor at a table index, fetched whole (R64). KLEN and KEY of a SKIP layer are not read (R283, R61; log entry
14). `none` when a field that is read was never written (R38). -/
def readDescriptor (t : Cells LayerEntry) (i : Nat) : Option Word :=
  let e := layerEntry t i
  match e.header with
  | none => none
  | some h =>
    if algOfCode (algField h) = .skip then some (.layer h 0 [])
    else match e.klen with
      | none => none
      | some n => (memReadText e.key n).map fun k => .layer h n k

/-- The table index of the layer at LP: `idx(LP)` of R22, R281. -/
def layerIndex (s : State) : Nat :=
  match s.dir with
  | .encrypt => s.lp
  | .decrypt => s.nlayers - 1 - s.lp

/-- The descriptor of the layer at LP (R64, R280). -/
def fetchLayer (s : State) : Option Word := readDescriptor s.layers (layerIndex s)

/-- Every element a run may read has been written since reset (R38, R343). -/
def inputsWritten (s : State) : Bool :=
  (memReadText s.textIn s.tlen).isSome && (List.range s.nlayers).all fun i => (readDescriptor s.layers i).isSome

/-- A Layer operation that completes: W becomes its output and LP advances by one (R22, R282, R286). -/
def layerDone (out : Text) (s : State) : State := { s with w := out, lp := s.lp + 1 }

/-- The cause code of a fault kind (R310). -/
def causeCode (k : FaultKind) : BitVec 3 :=
  match k with
  | .invalidKeyFormat => 1#3
  | .lengthMismatch _ _ => 2#3
  | .indexOutOfRange _ _ => 3#3
  | .invalidBlockFormat => 4#3

/-- Fault entry (R315): the fault registers record the cause, the table index of the layer at LP and its algorithm; the
state becomes FAULT; LP, the outputs and the inputs are left as they are. -/
def takeFault (k : FaultKind) (alg : Alg) (s : State) : State :=
  { s with faultCause := causeCode k, faultLayer := layerIndex s, faultAlg := algCode alg, status := .fault }

/-- The outcome of an operation of the layer algorithm `alg` that gave no value: a raised fault is taken (R315), an
operation outside its domain is refused (R14). -/
def stopped (alg : Alg) (e : Stop) (s : State) : Host.Outcome State Fault Refusal :=
  match e with
  | .raised k => .next (takeFault k alg s)
  | .refused r => .refused r

end Sys2Proof.Machine
end

