-- ==== Sys2Proof/Machine/Playfair.lean ====
section
/-! DEFINITION. The Playfair engine (spec/43_playfair.md R200 to R207). -/

namespace Sys2Proof.Machine

/-- The letter `i`. -/
def letterI : Chr := 0x69#8
/-- The letter `j`. -/
def letterJ : Chr := 0x6A#8
/-- The letter `x`, inserted and padded (R203). -/
def letterX : Chr := 0x78#8

/-- A letter placed in the square unless it is there already (R201). -/
def placeLetter (sq : Text) (c : Chr) : Text := if c ∈ sq then sq else sq ++ [c]

/-- Phase 1 of R201 for one key character: case ignored, non-letters ignored, `j` as PLAYFAIR_KEY_J says. -/
def placeKeyChar (keyJ : KeyJ) (sq : Text) (k : Chr) : Text :=
  let c := lower k
  if isLower c then
    if c = letterJ then
      match keyJ with
      | .skip => sq
      | .toI => placeLetter sq letterI
    else placeLetter sq c
  else sq

/-- Phase 2 of R201 for one letter of the alphabet. -/
def placeAlphabetChar (sq : Text) (c : Chr) : Text := if c = letterJ then sq else placeLetter sq c

/-- `buildSquare(KEY)` of R201. -/
def buildSquare (keyJ : KeyJ) (key : Text) : Text :=
  alphabet.foldl placeAlphabetChar (key.foldl (placeKeyChar keyJ) [])

/-- One character of the text normalised: a lowercase letter with `j` as `i`, or stripped (R202). -/
def normaliseChar (k : Chr) : Option Chr :=
  let c := lower k
  if isLower c then some (if c = letterJ then letterI else c) else none

/-- `normalise(W)` of R202. -/
def normalise (w : Text) : Text := w.filterMap normaliseChar

/-- The digraphs of a text when `held` is the first letter of a digraph not yet closed (R203). Closing a pair of equal
letters with `x` keeps the second letter held: that is the spec's step back by one position. -/
def digraphsFrom (held : Option Chr) (u : Text) : List (Chr × Chr) :=
  match u with
  | [] =>
    match held with
    | none => []
    | some a => [(a, letterX)]
  | b :: u =>
    match held with
    | none => digraphsFrom (some b) u
    | some a => if a = b then (a, letterX) :: digraphsFrom (some b) u else (a, b) :: digraphsFrom none u

/-- `digraphs(NORM)` of R203. -/
def digraphs (u : Text) : List (Chr × Chr) := digraphsFrom none u

/-- The letter of cell `(row, col)`, at linear index `5*row + col` (R34, R69). -/
def squareCell (sq : Text) (row col : Nat) : Chr := sq.getD (squareSide * row + col) 0

/-- A row or column index moved by `d`, wrapping modulo 5 with the floored remainder (R204). -/
def wrapFive (i : Nat) (d : Int) : Nat := (((i : Int) + d) % 5).toNat

/-- The step `d` of a direction (R204). -/
def playfairStep (dir : Dir) : Int :=
  match dir with
  | .encrypt => 1
  | .decrypt => -1

/-- `transform(SQ, a, b, DIR)` of R204: same row, then same column, then rectangle. -/
def transform (sq : Text) (dir : Dir) (p : Chr × Chr) : Chr × Chr :=
  let ra := sq.idxOf p.1 / squareSide
  let ca := sq.idxOf p.1 % squareSide
  let rb := sq.idxOf p.2 / squareSide
  let cb := sq.idxOf p.2 % squareSide
  let d := playfairStep dir
  if ra = rb then (squareCell sq ra (wrapFive ca d), squareCell sq rb (wrapFive cb d))
  else if ca = cb then (squareCell sq (wrapFive ra d) ca, squareCell sq (wrapFive rb d) cb)
  else (squareCell sq ra cb, squareCell sq rb ca)

/-- The output text: the transformed digraphs in order (R205). -/
def playfairText (sq : Text) (dir : Dir) (dg : List (Chr × Chr)) : Text :=
  dg.flatMap fun p => [(transform sq dir p).1, (transform sq dir p).2]

/-- PLAYFAIR of R200: SQ, NORM, DG and the output text. -/
def playfairEngine (keyJ : KeyJ) (key : Text) (dir : Dir) (w : Text) :
    Except Stop (Text × Text × List (Chr × Chr) × Text) :=
  if key = [] then .error (.raised .invalidKeyFormat)
  else
    let sq := buildSquare keyJ key
    let norm := normalise w
    let dg := digraphs norm
    .ok (sq, norm, dg, playfairText sq dir dg)

/-- PLAYFAIR (R200). -/
def execPlayfair (key : Text) (s : State) : Host.Outcome State Fault Refusal :=
  match playfairEngine s.cfg.playfairKeyJ key s.dir s.w with
  | .ok (sq, norm, dg, out) => .next (layerDone out { s with eng := { s.eng with sq := sq, norm := norm, dg := dg } })
  | .error e => stopped .playfair e s

end Sys2Proof.Machine
end

