-- ==== Sys2Proof/Machine/Bvu.lean ====
section
/-! DEFINITION. The bit-vector unit (spec/40_bitvector.md R120 to R126): PERMUTE, ROTL, XOR, SBOX as functions on bit
vectors of any length, and their meanings as internal operation words over the unit's ports (log entry 10). -/

namespace Sys2Proof.Machine

/-- The lowest table position, counted from `i`, whose entry is outside `[1, n]`, and the entry (R121, R317 (e)). -/
def firstBadEntry (n i : Nat) (t : List Int) : Option (Nat × Int) :=
  match t with
  | [] => none
  | e :: t => if e < 1 ∨ (n : Int) < e then some (i, e) else firstBadEntry n (i + 1) t

/-- `PERMUTE(bits, T)` of R121: every entry is checked before any output is produced. -/
def permute (bits : Bits) (t : List Int) : Except Stop Bits :=
  match firstBadEntry bits.length 0 t with
  | some (i, e) => .error (.raised (.indexOutOfRange i e))
  | none => .ok (t.map fun e => bits.getD (e - 1).toNat false)

/-- `ROTL(bits)` of R122; the empty vector is outside its domain (U9). -/
def rotl (bits : Bits) : Except Stop Bits :=
  match bits with
  | [] => .error (.refused .rotlEmpty)
  | b :: t => .ok (t ++ [b])

/-- `XOR(a, b)` of R123. -/
def xorBits (a b : Bits) : Except Stop Bits :=
  if a.length = b.length then .ok (List.zipWith Bool.xor a b)
  else .error (.raised (.lengthMismatch a.length b.length))

/-- `SBOX(bits4, S)` of R124: the outer bits select the row, the inner bits the column. -/
def sboxLookup (b : Bits) (t : SBoxTable) : Except Stop Bits :=
  match b with
  | [b0, b1, b2, b3] => .ok (bin2 (boxEntry t (num2 b0 b3) (num2 b1 b2)).val)
  | _ => .error (.raised (.lengthMismatch b.length 4))

/-- The outcome of a BVU word: its result appears at the result port; a fault is the current DES layer's (R104, R315). -/
def bvuResult (s : State) (r : Except Stop Bits) : Host.Outcome State Fault Refusal :=
  match r with
  | .ok v => .next { s with bvu := { s.bvu with out := v } }
  | .error e => stopped .des e s

/-- PERMUTE (R121) of operand `a` by the selected table. -/
def execPermute (t : PermTable) (s : State) : Host.Outcome State Fault Refusal :=
  bvuResult s (permute s.bvu.a (permTable s.cfg t))

/-- ROTL (R122) of operand `a`. -/
def execRotl (s : State) : Host.Outcome State Fault Refusal :=
  bvuResult s (rotl s.bvu.a)

/-- XOR (R123) of operands `a` and `b`. -/
def execXor (s : State) : Host.Outcome State Fault Refusal :=
  bvuResult s (xorBits s.bvu.a s.bvu.b)

/-- SBOX (R124) of operand `a` in the selected box. -/
def execSbox (b : SBoxId) (s : State) : Host.Outcome State Fault Refusal :=
  bvuResult s (sboxLookup s.bvu.a (sboxTable s.cfg b))

end Sys2Proof.Machine
end

