-- ==== Sys2Proof/Machine/Sdes.lean ====
section
/-! DEFINITION. The S-DES unit (spec/44_sdes.md): KEYSCHED (R240), FK (R245), BLOCK (R250) over the registers of R29, and
the DES layer (R255). Every trace record is appended to T in the order of R260. -/

namespace Sys2Proof.Machine

/-- `trace(label, v)` of R13, R260: a record appended to T. -/
def SdesRegs.note (r : SdesRegs) (label : Label) (parts : List Bits) : SdesRegs :=
  { r with trace := r.trace ++ [⟨label, parts⟩] }

/-- KEYSCHED of R240, from KEYV. -/
def keySchedule (c : Config) (r : SdesRegs) : Except Stop SdesRegs := do
  let pk ← permute r.keyv c.p10
  let hl0 := (pk.take 5)
  let hr0 := (pk.drop 5).take 5
  let hl1 ← rotl hl0
  let hr1 ← rotl hr0
  let k1 ← permute (hl1 ++ hr1) c.p8
  let hl2 ← rotl hl1
  let hl3 ← rotl hl2
  let hr2 ← rotl hr1
  let hr3 ← rotl hr2
  let k2 ← permute (hl3 ++ hr3) c.p8
  return { r with
    pk := pk, hl := hl3, hr := hr3, k1 := k1, k2 := k2
    trace := r.trace ++ [⟨.ksP10, [pk]⟩, ⟨.ksSplit, [hl0, hr0]⟩, ⟨.ksLs1, [hl1, hr1]⟩, ⟨.ksK1, [k1]⟩,
      ⟨.ksLs2, [hl3, hr3]⟩, ⟨.ksK2, [k2]⟩] }

/-- The subkey register FK reads (R101, R245). -/
def subkeyReg (r : SdesRegs) (k : Subkey) : Bits :=
  match k with
  | .k1 => r.k1
  | .k2 => r.k2

/-- The four labels of FK: `F1_` in round 1, with K1, and `F2_` in round 2, with K2 (R245, R260). -/
def fkLabels (k : Subkey) : Label × Label × Label × Label :=
  match k with
  | .k1 => (.f1Ep, .f1Xor, .f1Sbox, .f1P4)
  | .k2 => (.f2Ep, .f2Xor, .f2Sbox, .f2P4)

/-- FK of R245, from R and the selected subkey: EPV, XV, SB and FV, and four records. -/
def roundFunction (c : Config) (k : Subkey) (r : SdesRegs) : Except Stop SdesRegs := do
  let epv ← permute r.r c.ep
  let xv ← xorBits epv (subkeyReg r k)
  let a ← sboxLookup (xv.take 4) c.s0
  let b ← sboxLookup ((xv.drop 4).take 4) c.s1
  let fv ← permute (a ++ b) c.p4
  return { r with
    epv := epv, xv := xv, sb := a ++ b, fv := fv
    trace := r.trace ++ [⟨(fkLabels k).1, [epv]⟩, ⟨(fkLabels k).2.1, [xv]⟩, ⟨(fkLabels k).2.2.1, [a, b]⟩,
      ⟨(fkLabels k).2.2.2, [fv]⟩] }

/-- IP and the split into L0 and R0 (R250). -/
def blockEntry (c : Config) (r : SdesRegs) : Except Stop SdesRegs := do
  let ipv ← permute r.blk c.ip
  let l := ipv.take 4
  let rr := (ipv.drop 4).take 4
  return { r with
    ipv := ipv, l := l, r := rr
    trace := r.trace ++ [⟨.bIp, [ipv]⟩, ⟨.bSplit, [l, rr]⟩] }

/-- The half-swap after round 1: the new L is the old R, the new R is the old L xor FV (R250, R251). -/
def blockSwitch (r : SdesRegs) : Except Stop SdesRegs := do
  let x ← xorBits r.l r.fv
  return { r with l := r.r, r := x, trace := r.trace ++ [⟨.bSwitch, [r.r, x]⟩] }

/-- The pre-output after round 2, not swapped, and the final permutation (R250). -/
def blockExit (c : Config) (r : SdesRegs) : Except Stop SdesRegs := do
  let x ← xorBits r.l r.fv
  let outv ← permute (x ++ r.r) c.ipinv
  return { r with
    pre := x ++ r.r, outv := outv
    trace := r.trace ++ [⟨.bCombine, [x ++ r.r]⟩, ⟨.bIpinv, [outv]⟩] }

/-- BLOCK of R250, from BLK, K1 and K2: round 1 with K1, the half-swap, round 2 with K2. -/
def processBlock (c : Config) (r : SdesRegs) : Except Stop SdesRegs := do
  let r ← blockEntry c r
  let r ← roundFunction c .k1 r
  let r ← blockSwitch r
  let r ← roundFunction c .k2 r
  blockExit c r

/-- The outcome of an internal S-DES operation; a fault is the current DES layer's (R104, R315). -/
def sdesResult (s : State) (r : Except Stop SdesRegs) : Host.Outcome State Fault Refusal :=
  match r with
  | .ok r => .next { s with sdes := r }
  | .error e => stopped .des e s

/-- KEYSCHED (R240). -/
def execKeysched (s : State) : Host.Outcome State Fault Refusal := sdesResult s (keySchedule s.cfg s.sdes)

/-- FK (R245). -/
def execFk (k : Subkey) (s : State) : Host.Outcome State Fault Refusal := sdesResult s (roundFunction s.cfg k s.sdes)

/-- BLOCK (R250). -/
def execBlock (s : State) : Host.Outcome State Fault Refusal := sdesResult s (processBlock s.cfg s.sdes)

/-- A bit string of exactly `n` bits (R95, R255). -/
def bitsOfLength (n : Nat) (s : Text) : Option Bits :=
  match parseBits s with
  | some v => if v.length = n then some v else none
  | none => none

/-- DES of R255 as far as OUTV: the key is checked before the block (decision D9), both before KEYSCHED. DIR is not an
operand (R256). -/
def desEngine (c : Config) (key : Text) (w : Text) (r : SdesRegs) : Except Stop SdesRegs :=
  match bitsOfLength keyBits key with
  | none => .error (.raised .invalidKeyFormat)
  | some kv =>
    match bitsOfLength blockBits w with
    | none => .error (.raised .invalidBlockFormat)
    | some bv => do
      let r ← keySchedule c { r with keyv := kv, blk := bv, trace := [] }
      processBlock c r

/-- DES (R255): W becomes the result block as text and the layer's trace is appended to TRACE_ACC (R284). -/
def execDes (key : Text) (s : State) : Host.Outcome State Fault Refusal :=
  match desEngine s.cfg key s.w s.sdes with
  | .ok r => .next (layerDone (showBits r.outv) { s with sdes := r, traceAcc := s.traceAcc ++ [r.trace] })
  | .error e => stopped .des e s

end Sys2Proof.Machine
end

