-- ==== Sys2Proof/Machine/Substitution.lean ====
section
/-! DEFINITION. The substitution engines (spec/41_substitution.md): CAESAR (R140 to R143), MONO (R145 to R149) and VIGENERE
(R151 to R154). Each engine's function gives its scratch and its output, or the fault it raises; the key is checked before
any character is read (R311, decision D9). -/

namespace Sys2Proof.Machine

/-- SHIFT of R140: `n mod 26` to encrypt, `(-n) mod 26` to decrypt. -/
def caesarShift (n : Int) (dir : Dir) : Nat :=
  match dir with
  | .encrypt => (n % 26).toNat
  | .decrypt => (-n % 26).toNat

/-- One character through CAESAR: case kept, non-letters passed through (R140). -/
def caesarChar (shift : Nat) (c : Chr) : Chr :=
  if isUpper c then chrU (shiftPos (c.toNat - 0x41) shift)
  else if isLower c then chrL (shiftPos (c.toNat - 0x61) shift)
  else c

/-- CAESAR of R140: SHIFT and the output text. -/
def caesarEngine (key : Text) (dir : Dir) (w : Text) : Except Stop (Nat × Text) :=
  match parseInt key with
  | none => .error (.raised .invalidKeyFormat)
  | some n => .ok (caesarShift n dir, w.map (caesarChar (caesarShift n dir)))

/-- CAESAR (R140). -/
def execCaesar (key : Text) (s : State) : Host.Outcome State Fault Refusal :=
  match caesarEngine key s.dir s.w with
  | .ok (shift, out) => .next (layerDone out { s with eng := { s.eng with shift := shift } })
  | .error e => stopped .caesar e s

/-- The character a partial map holds for `k` (R31, R146). -/
def mapGet (m : List (Chr × Chr)) (k : Chr) : Option Chr := m.lookup k

/-- The partial map with `k` mapped to `v`, an earlier entry for `k` replaced (R147). -/
def mapPut (m : List (Chr × Chr)) (k v : Chr) : List (Chr × Chr) :=
  match m with
  | [] => [(k, v)]
  | e :: m => if e.1 = k then (k, v) :: m else e :: mapPut m k v

/-- One turn of the loop that builds MAP, for alphabet position `i` (R145, R147). -/
def monoMapStep (winner : DupWinner) (key : Text) (dir : Dir) (m : List (Chr × Chr)) (i : Nat) : List (Chr × Chr) :=
  let a := chrL i
  let k := key.getD (i % key.length) 0
  match dir with
  | .encrypt => mapPut m a k
  | .decrypt => if winner = .last ∨ mapGet m k = none then mapPut m k a else m

/-- MAP of R146. -/
def monoMap (winner : DupWinner) (key : Text) (dir : Dir) : List (Chr × Chr) :=
  (List.range alphabetSize).foldl (monoMapStep winner key dir) []

/-- A character through MAP; one absent from it passes through (R145). -/
def mapChar (m : List (Chr × Chr)) (c : Chr) : Chr := (mapGet m c).getD c

/-- MONO of R145: MAP and the output text. The key is used literally (R146; log entry 24). -/
def monoEngine (winner : DupWinner) (key : Text) (dir : Dir) (w : Text) : Except Stop (List (Chr × Chr) × Text) :=
  if key = [] then .error (.raised .invalidKeyFormat)
  else
    let m := monoMap winner key dir
    .ok (m, (lowerText w).map (mapChar m))

/-- MONO (R145). -/
def execMono (key : Text) (s : State) : Host.Outcome State Fault Refusal :=
  match monoEngine s.cfg.monoDupWinner key s.dir s.w with
  | .ok (m, out) => .next (layerDone out { s with eng := { s.eng with map := m } })
  | .error e => stopped .mono e s

/-- A lowercase letter under a key shift, added to encrypt and subtracted to decrypt (R151). -/
def vigenereChar (dir : Dir) (shift : Nat) (c : Chr) : Chr :=
  match dir with
  | .encrypt => chrL (shiftPos (c.toNat - 0x61) shift)
  | .decrypt => chrL (shiftPos (c.toNat - 0x61) (-(shift : Int)))

/-- The loop of R151 over a lowercased text, from key pointer `kp`: the output. -/
def vigenereText (ks : List Nat) (dir : Dir) (kp : Nat) (t : Text) : Text :=
  match t with
  | [] => []
  | c :: t =>
    if isLower c then vigenereChar dir (ks.getD (kp % ks.length) 0) c :: vigenereText ks dir (kp + 1) t
    else c :: vigenereText ks dir kp t

/-- VIGENERE of R151: KS, the final KP (the number of letters consumed, R152) and the output text. -/
def vigenereEngine (key : Text) (dir : Dir) (w : Text) : Except Stop (List Nat × Nat × Text) :=
  if key ≠ [] ∧ key.all isAlpha then
    let ks := key.map ord0
    .ok (ks, (lowerText w).countP isLower, vigenereText ks dir 0 (lowerText w))
  else .error (.raised .invalidKeyFormat)

/-- VIGENERE (R151). -/
def execVigenere (key : Text) (s : State) : Host.Outcome State Fault Refusal :=
  match vigenereEngine key s.dir s.w with
  | .ok (ks, kp, out) => .next (layerDone out { s with eng := { s.eng with ks := ks, kp := kp } })
  | .error e => stopped .vigenere e s

end Sys2Proof.Machine
end

