-- ==== Sys2Proof/Machine/Trace.lean ====
section
/-! DEFINITION. The text of traces (spec/44_sdes.md R260, R261; spec/45_pipeline.md R285). Label texts, line format and
separators are the spec's decision D14. -/

namespace Sys2Proof.Machine

/-- The label text of R260. -/
def labelText (l : Label) : String :=
  match l with
  | .ksP10 => "Key P10"
  | .ksSplit => "Key split"
  | .ksLs1 => "Key LS-1"
  | .ksK1 => "K1"
  | .ksLs2 => "Key LS-2"
  | .ksK2 => "K2"
  | .bIp => "IP"
  | .bSplit => "Split"
  | .f1Ep => "fk1 EP"
  | .f1Xor => "fk1 XOR"
  | .f1Sbox => "fk1 S-box"
  | .f1P4 => "fk1 combine"
  | .bSwitch => "Switch"
  | .f2Ep => "fk2 EP"
  | .f2Xor => "fk2 XOR"
  | .f2Sbox => "fk2 S-box"
  | .f2P4 => "fk2 combine"
  | .bCombine => "Combine"
  | .bIpinv => "IP-1"

/-- Texts joined with a separator between consecutive ones and none after the last. -/
def joinText (sep : Text) (ts : List Text) : Text :=
  match ts with
  | [] => []
  | [t] => t
  | t :: ts => t ++ sep ++ joinText sep ts

/-- The line of a record (R261). -/
def renderRecord (r : TraceRecord) : Text :=
  ascii (labelText r.label) ++ ascii ": " ++ joinText (ascii " ") (r.parts.map showBits)

/-- The text of one trace: its lines joined with one line feed (R261). -/
def renderTrace (t : Trace) : Text := joinText [0x0A#8] (t.map renderRecord)

/-- `renderAll(TRACE_ACC)` of R285: traces joined with two line feeds. -/
def renderAll (ts : List Trace) : Text := joinText [0x0A#8, 0x0A#8] (ts.map renderTrace)

end Sys2Proof.Machine
end

