-- ==== Sys2Proof/Machine/Flags.lean ====
section
/-! DEFINITION. The core has no arithmetic condition codes (spec/10_state.md R28). Its one-bit and status state is DIR,
CTRL.START, the two STATE bits and the Rail Fence flag DOWN; this file holds the codes and the rules of each. -/

namespace Sys2Proof.Machine

/-- The bit of the direction flag: 1 is encrypt (R23, decision D29). -/
def dirBit (d : Dir) : Nat :=
  match d with
  | .decrypt => 0
  | .encrypt => 1

/-- The direction flag a bit denotes (R23). -/
def dirOfBit (n : Nat) : Dir := if n % 2 = 1 then .encrypt else .decrypt

/-- The code of STATUS.STATE (R26). -/
def statusCode (r : RunStatus) : Nat :=
  match r with
  | .idle => 0
  | .busy => 1
  | .done => 2
  | .fault => 3

/-- A run is in progress or commanded: inputs are frozen and outputs hold no value (R71, R347, R348; log entry 18). -/
def runInProgress (s : State) : Bool := s.start || s.status == .busy

/-- STATUS as the host reads it: BUSY from START to the end of the run (R26). -/
def visibleStatus (s : State) : RunStatus := if runInProgress s then .busy else s.status

/-- DOWN after the character on rail `row`: set on rail 0, cleared on rail `r-1`, else kept (R171). -/
def nextDown (r row : Nat) (down : Bool) : Bool :=
  if row = 0 then true else if row = r - 1 then false else down

/-- The rail after `row`, in the direction of travel (R171). -/
def nextRow (row : Nat) (down : Bool) : Nat := if down then row + 1 else row - 1

end Sys2Proof.Machine
end

