-- ==== Sys2Proof/Machine/Transposition.lean ====
section
/-! DEFINITION. The transposition engines (spec/42_transposition.md): RAILFENCE (R170 to R175) and ROWCOL (R180 to R185).
Each visits the text's positions in an order the key fixes; encryption reads in that order, decryption writes in it. -/

namespace Sys2Proof.Machine

/-- The zig-zag of R171 for the next `n` characters, from rail `row` travelling as `down` says: the rail of each. -/
def railWalk (r n row : Nat) (down : Bool) : List Nat :=
  match n with
  | 0 => []
  | n + 1 => row :: railWalk r n (nextRow row (nextDown r row down)) (nextDown r row down)

/-- ROW and DOWN after `n` characters of the walk (R171, R33). -/
def railEnd (r n row : Nat) (down : Bool) : Nat × Bool :=
  match n with
  | 0 => (row, down)
  | n + 1 => railEnd r n (nextRow row (nextDown r row down)) (nextDown r row down)

/-- `railRows(n, r)` of R171, for `r >= 2`: the walk starts on rail 0 travelling down. -/
def railRows (n r : Nat) : List Nat := railWalk r n 0 true

/-- The text indices on rail `q`, ascending (R172). -/
def railIndices (rows : List Nat) (q : Nat) : List Nat :=
  (List.range rows.length).filter fun i => rows.getD i 0 == q

/-- The text indices rail by rail: the row-major visit of the marked cells (R172, R173). Rails at or past `len(W)` hold
nothing, so the visit stops at `min(r, len(W))` (R353; log entry 16). -/
def railOrder (rows : List Nat) (r : Nat) : List Nat :=
  (List.range (min r rows.length)).flatMap (railIndices rows)

/-- Step (1) of R173: one marked cell `(rows[i], i)` per column, listed in row-major order by linear index (R69). -/
def railMarks (rows : List Nat) (r : Nat) : Cells MarkCell :=
  (railOrder rows r).map fun i => (rows.getD i 0 * rows.length + i, .marked)

/-- Step (2) of R173: the marked cells, in the order listed, receive the ciphertext characters in order. -/
def railFill (marks : Cells MarkCell) (w : Text) : Cells MarkCell :=
  List.zipWith (fun cell c => (cell.1, MarkCell.holding c)) marks w

/-- `railEncrypt` of R172. -/
def railEncrypt (rows : List Nat) (r : Nat) (w : Text) : Text := gather (railOrder rows r) w

/-- `railDecrypt` of R173. -/
def railDecrypt (rows : List Nat) (r : Nat) (w : Text) : Text := scatter (railOrder rows r) w

/-- The Rail Fence scratch after a layer with `r >= 2` rails: ROW and DOWN as the walk leaves them, and MARK when
decrypting (R33, R170). -/
def railScratch (dir : Dir) (r : Nat) (w : Text) (e : EngineRegs) : EngineRegs :=
  let last := railEnd r w.length 0 true
  match dir with
  | .encrypt => { e with rails := r, row := last.1, down := last.2 }
  | .decrypt =>
    { e with rails := r, row := last.1, down := last.2, mark := railFill (railMarks (railRows w.length r) r) w }

/-- The output of RAILFENCE for `r >= 2` rails (R170). -/
def railText (dir : Dir) (r : Nat) (w : Text) : Text :=
  match dir with
  | .encrypt => railEncrypt (railRows w.length r) r w
  | .decrypt => railDecrypt (railRows w.length r) r w

/-- RAILFENCE of R170: a rail count of 1 or less leaves the text unchanged (R174 (a)). -/
def railfenceEngine (key : Text) (dir : Dir) (w : Text) (e : EngineRegs) : Except Stop (EngineRegs × Text) :=
  match parseInt key with
  | none => .error (.raised .invalidKeyFormat)
  | some n =>
    if n ≤ 1 then .ok ({ e with rails := n }, w)
    else .ok (railScratch dir n.toNat w e, railText dir n.toNat w)

/-- RAILFENCE (R170). -/
def execRailfence (key : Text) (s : State) : Host.Outcome State Fault Refusal :=
  match railfenceEngine key s.dir s.w s.eng with
  | .ok (e, out) => .next (layerDone out { s with eng := e })
  | .error e => stopped .railfence e s

/-- The order of R181 on column indices: by key character code, then by position. -/
def columnBefore (key : Text) (a b : Nat) : Bool :=
  let x := (key.getD a 0).toNat
  let y := (key.getD b 0).toNat
  decide (x < y) || (x == y && decide (a ≤ b))

/-- `columnOrder(KEY)` of R181. -/
def columnOrder (key : Text) : List Nat :=
  (List.range key.length).insertionSort fun a b => columnBefore key a b = true

/-- The text indices of column `c`, top to bottom, empty cells left out (R180, R182). -/
def columnIndices (n ncols nrows c : Nat) : List Nat :=
  ((List.range nrows).map fun r => r * ncols + c).filter fun i => i < n

/-- The text indices in the order ROWCOL visits the grid: columns in key order, rows upward (R180). -/
def columnVisit (key : Text) (n : Nat) : List Nat :=
  (columnOrder key).flatMap (columnIndices n key.length (ceilDiv n key.length))

/-- The output of ROWCOL for a non-empty key (R180). -/
def rowcolText (key : Text) (dir : Dir) (w : Text) : Text :=
  match dir with
  | .encrypt => gather (columnVisit key w.length) w
  | .decrypt => scatter (columnVisit key w.length) w

/-- GRID: cell `(r, c)` at `r*NCOLS + c` holds the plaintext character of that index, or is empty (R32, R182). -/
def rowcolGrid (key : Text) (plain : Text) : List (Option Chr) :=
  (List.range (ceilDiv plain.length key.length * key.length)).map fun i => plain[i]?

/-- The Row-Column scratch of a layer (R32). -/
def rowcolScratch (key : Text) (dir : Dir) (w : Text) (e : EngineRegs) : EngineRegs :=
  let plain := match dir with
    | .encrypt => w
    | .decrypt => rowcolText key dir w
  { e with ncols := key.length, nrows := ceilDiv w.length key.length, order := columnOrder key,
           grid := rowcolGrid key plain }

/-- ROWCOL of R180. -/
def rowcolEngine (key : Text) (dir : Dir) (w : Text) (e : EngineRegs) : Except Stop (EngineRegs × Text) :=
  if key = [] then .error (.raised .invalidKeyFormat)
  else .ok (rowcolScratch key dir w e, rowcolText key dir w)

/-- ROWCOL (R180). -/
def execRowcol (key : Text) (s : State) : Host.Outcome State Fault Refusal :=
  match rowcolEngine key s.dir s.w s.eng with
  | .ok (e, out) => .next (layerDone out { s with eng := e })
  | .error e => stopped .rowcol e s

end Sys2Proof.Machine
end

