-- ==== Sys2Proof/Machine/Sequencer.lean ====
section
/-! DEFINITION. The layer sequencer (spec/45_pipeline.md): SKIP (R283), dispatch (R282), RUN (R280) and what a step finds
to run. -/

namespace Sys2Proof.Machine

/-- SKIP (R283): nothing but the advance of LP; the key is never read. -/
def execSkip (s : State) : Host.Outcome State Fault Refusal := .next (layerDone s.w s)

/-- The dispatch of R280 and R282: the engine the algorithm names, on W with the layer's own key. -/
def dispatchLayer (alg : Alg) (key : Text) (s : State) : Host.Outcome State Fault Refusal :=
  match alg with
  | .skip => execSkip s
  | .caesar => execCaesar key s
  | .mono => execMono key s
  | .vigenere => execVigenere key s
  | .railfence => execRailfence key s
  | .rowcol => execRowcol key s
  | .des => execDes key s
  | .playfair => execPlayfair key s

/-- The algorithm and key a fetched Layer word gives; nothing for a word of another format. -/
def layerOfWord (w : Word) : Option (Alg × Text) :=
  match decode w with
  | .ok i => i.layer?
  | .error _ => none

/-- One turn of the loop of R280: fetch the layer at LP and dispatch it. -/
def runLayer (s : State) : Host.Outcome State Fault Refusal :=
  match (fetchLayer s).bind layerOfWord with
  | some (alg, key) => dispatchLayer alg key s
  | none => .refused .inputNotWritten

/-- The end of a successful run (R280, R285, R287): RESULT and TRACE are written and the state becomes DONE. -/
def finishRun (s : State) : State :=
  { s with
    result := memOfText s.w, rlen := s.w.length
    traceBuf := memOfText (renderAll s.traceAcc), trlen := (renderAll s.traceAcc).length
    status := .done }

/-- The start of a run on the text `text` (R280): START is taken, the fault registers are cleared (R27, R318), W, TRACE_ACC
and LP are set, the state becomes BUSY. -/
def beginRun (text : Text) (s : State) : State :=
  { s with
    start := false, status := .busy, faultCause := 0#3, faultLayer := 0, faultAlg := 0#3
    w := text, traceAcc := [], lp := 0 }

/-- The loop of R280 for at most `fuel` turns: layers while LP is below NLAYERS, then the end of the run; a fault ends it
(R315). -/
def continueRun (fuel : Nat) (s : State) : Host.Outcome State Fault Refusal :=
  match fuel with
  | 0 => .next s
  | fuel + 1 =>
    if s.status = .busy then
      if s.lp < s.nlayers then
        match runLayer s with
        | .next t => continueRun fuel t
        | .fault r => .fault r
        | .refused r => .refused r
      else .next (finishRun s)
    else .next s

/-- RUN (R280): the whole run, one transition for the host (R289), on inputs that were all written (R38). A START while a
run is in progress is ignored (R288). -/
def execRun (s : State) : Host.Outcome State Fault Refusal :=
  if s.status = .busy then .next { s with start := false }
  else if inputsWritten s then
    continueRun (s.nlayers + 1) (beginRun ((memReadText s.textIn s.tlen).getD []) s)
  else .refused .inputNotWritten

/-- What the next step runs: an issued internal word (log entry 11), else the layer of a run in progress (R289), else the
command a write of START left (R102), else nothing (R342). -/
def fetch (s : State) : Fetched :=
  match s.issue with
  | some (.bvu w) => .word (.bvu w) { s with issue := none }
  | some (.sdesq w) => .word (.sdesq w) { s with issue := none }
  | none =>
    if s.status = .busy then
      if s.lp < s.nlayers then
        match fetchLayer s with
        | some w => .word w s
        | none => .unwritten
      else .endOfRun
    else if s.start then .word (.cmd 1#1) s
    else .idle

end Sys2Proof.Machine
end

