-- ==== Sys2Proof/Machine/Dispatch.lean ====
section
/-! DEFINITION. The meaning of every instruction: one arm per constructor of Instr. -/

namespace Sys2Proof.Machine

def exec (i : Instr) (s : State) : Host.Outcome State Fault Refusal :=
  match i with
  | .skip => Sys2Proof.Machine.execSkip s
  | .caesar key => Sys2Proof.Machine.execCaesar key s
  | .mono key => Sys2Proof.Machine.execMono key s
  | .vigenere key => Sys2Proof.Machine.execVigenere key s
  | .railfence key => Sys2Proof.Machine.execRailfence key s
  | .rowcol key => Sys2Proof.Machine.execRowcol key s
  | .des key => Sys2Proof.Machine.execDes key s
  | .playfair key => Sys2Proof.Machine.execPlayfair key s
  | .permute t => Sys2Proof.Machine.execPermute t s
  | .rotl => Sys2Proof.Machine.execRotl s
  | .xor => Sys2Proof.Machine.execXor s
  | .sbox b => Sys2Proof.Machine.execSbox b s
  | .keysched => Sys2Proof.Machine.execKeysched s
  | .fk k => Sys2Proof.Machine.execFk k s
  | .block => Sys2Proof.Machine.execBlock s
  | .run => Sys2Proof.Machine.execRun s

end Sys2Proof.Machine
end

