-- ==== Sys2Proof/Machine/Step.lean ====
section
/-! DEFINITION. One step of the core: what `fetch` finds is decoded and executed (spec/45_pipeline.md R289). -/

namespace Sys2Proof.Machine

/-- One step: the end of a run in progress (R287), an operation word decoded and executed, or nothing (R342). -/
def step (s : State) : Host.Outcome State Fault Refusal :=
  match fetch s with
  | .idle => .next s
  | .endOfRun => .next (finishRun s)
  | .unwritten => .refused .inputNotWritten
  | .word w t =>
    match decode w with
    | .ok i => exec i t
    | .error _ => .refused .reservedWord

/-- The state with the word `w` of `nbits` bits placed where the next step fetches it: 8 bits, the header of the only layer
of a run in progress, with KLEN 0 (R90, R280); 5 or 3 bits, the issue latch (R100, R101); 1 bit, START (R102). Log entries
12 and 13. -/
def State.withFetchWord (s : State) (nbits w : Nat) : State :=
  match nbits with
  | 8 => { s with
      layers := cellsWrite s.layers 0 ⟨some (BitVec.ofNat 8 w), some 0, []⟩
      nlayers := 1, lp := 0, status := .busy, issue := none }
  | 5 => { s with issue := some (.bvu (BitVec.ofNat 5 w)) }
  | 3 => { s with issue := some (.sdesq (BitVec.ofNat 3 w)) }
  | 1 => { s with
      start := w % 2 == 1, issue := none
      status := if s.status = .busy then .idle else s.status }
  | _ => s

end Sys2Proof.Machine
end

