-- ==== Sys2Proof/Machine/HostPort.lean ====
section
/-! DEFINITION. What the host and the platform can do to the core: register accesses by number (spec/10_state.md R25, R38),
buffer accesses (spec/20_memory.md R60, R71), START (spec/45_pipeline.md R288) and reset (spec/70_reset_and_hazards.md
R340, R341). None of these is a step of the core. -/

namespace Sys2Proof.Machine

/-- A host read of register `n` (R25): CTRL reads 0; RLEN and TRLEN hold a value only in DONE, FAULT_LAYER and FAULT_ALG
only in FAULT, and FAULT_CAUSE is 0 outside FAULT (R38). -/
def regRead (n : Nat) (s : State) : Host.Outcome Nat Fault Refusal :=
  match n with
  | 0 => .next 0
  | 1 => .next (statusCode (visibleStatus s))
  | 2 => .next (dirBit s.dir)
  | 3 => .next s.nlayers
  | 4 => .next s.tlen
  | 5 => if visibleStatus s = .done then .next s.rlen else .refused .outputHoldsNoValue
  | 6 => if visibleStatus s = .done then .next s.trlen else .refused .outputHoldsNoValue
  | 7 => .next (if visibleStatus s = .fault then s.faultCause.toNat else 0)
  | 8 => if visibleStatus s = .fault then .next s.faultLayer else .refused .outputHoldsNoValue
  | 9 => if visibleStatus s = .fault then .next s.faultAlg.toNat else .refused .outputHoldsNoValue
  | _ => .fault (.noSuchRegister n)

/-- A host write that the core accepts unless a run is in progress (R71, R347, decision D25). -/
def hostWrite (f : State → State) (s : State) : State := if runInProgress s then s else f s

/-- A host write of `v` to register `n` (R25): START when bit 0 of a write to CTRL is set (R102, R288); DIR takes bit 0;
writes to the read-only registers are ignored. -/
def regWrite (n v : Nat) (s : State) : Host.Outcome State Fault Refusal :=
  match n with
  | 0 => .next (if v % 2 = 1 then hostWrite (fun s => { s with start := true }) s else s)
  | 1 => .next s
  | 2 => .next (hostWrite (fun s => { s with dir := dirOfBit v }) s)
  | 3 => .next (hostWrite (fun s => { s with nlayers := v }) s)
  | 4 => .next (hostWrite (fun s => { s with tlen := v }) s)
  | 5 => .next s
  | 6 => .next s
  | 7 => .next s
  | 8 => .next s
  | 9 => .next s
  | _ => .fault (.noSuchRegister n)

/-- A host write of element `i` of TEXT_IN (R60). -/
def textWrite (i : Nat) (c : Chr) (s : State) : State :=
  hostWrite (fun s => { s with textIn := memWrite s.textIn i c }) s

/-- A host write of the header of LAYER[i] (R60, R90). -/
def headerWrite (i : Nat) (h : BitVec 8) (s : State) : State :=
  hostWrite (fun s => { s with layers := cellsWrite s.layers i { layerEntry s.layers i with header := some h } }) s

/-- A host write of LAYER[i].KLEN (R60, R90). -/
def klenWrite (i n : Nat) (s : State) : State :=
  hostWrite (fun s => { s with layers := cellsWrite s.layers i { layerEntry s.layers i with klen := some n } }) s

/-- A host write of element `j` of LAYER[i].KEY (R60, R90). -/
def keyWrite (i j : Nat) (c : Chr) (s : State) : State :=
  hostWrite (fun s => { s with
    layers := cellsWrite s.layers i
      { layerEntry s.layers i with key := memWrite (layerEntry s.layers i).key j c } }) s

/-- A host read of element `i` of an output buffer: a value only in DONE and only where one was written (R38). -/
def outputRead (m : Memory) (i : Nat) (s : State) : Host.Outcome Chr Fault Refusal :=
  if visibleStatus s = .done then
    match memRead m i with
    | some c => .next c
    | none => .refused .outputHoldsNoValue
  else .refused .outputHoldsNoValue

/-- A host read of element `i` of RESULT (R60). -/
def resultRead (i : Nat) (s : State) : Host.Outcome Chr Fault Refusal := outputRead s.result i s

/-- A host read of element `i` of TRACE (R60). -/
def traceRead (i : Nat) (s : State) : Host.Outcome Chr Fault Refusal := outputRead s.traceBuf i s

/-- Reset by the platform, at any time: the state of R340; the configuration is not affected. -/
def platformReset (s : State) : State := { State.reset with cfg := s.cfg }

/-- The bus address of register `n`: BASE + n (R25, OPEN parameter BASE of R7). -/
def busAddress (c : Config) (n : Nat) : Nat := c.base + n

/-- TEXT_IN holding a text, and TLEN its length: the host writes of R343 (1). -/
def loadText (t : Text) (s : State) : State :=
  hostWrite (fun s => { s with textIn := memOfText t, tlen := t.length }) s

/-- The Layer table holding descriptors from index `i` on. -/
def tableOf (i : Nat) (ds : List (BitVec 8 × Text)) : Cells LayerEntry :=
  match ds with
  | [] => []
  | d :: ds => (i, ⟨some d.1, some d.2.length, memOfText d.2⟩) :: tableOf (i + 1) ds

/-- The Layer table holding descriptors, given by header and key, and NLAYERS their number: the host writes of R343 (2)
and (3) on a table not written before. -/
def loadLayers (ds : List (BitVec 8 × Text)) (s : State) : State :=
  hostWrite (fun s => { s with layers := tableOf 0 ds, nlayers := ds.length }) s

/-- The host's whole set-up for a run, START last (R343). -/
def loadRun (dir : Dir) (ds : List (BitVec 8 × Text)) (t : Text) (s : State) : State :=
  hostWrite (fun s => { loadLayers ds (loadText t s) with dir := dir, start := true }) s

end Sys2Proof.Machine
end

