-- ==== Sys2Proof/WellFormed.lean ====
section
/-! DEFINITION. What the host owes the core: keys in the format each algorithm expects (spec/30_encoding.md R93, R97,
spec/70_reset_and_hazards.md R344) and a well-formed configuration (spec/44_sdes.md R231, R346). The core runs ill-formed
keys too, as the engines' rules say; these predicates are premises of statements, not checks of the machine. -/

namespace Sys2Proof

/-- A bit string of exactly `n` bits after whitespace is dropped (R95). -/
def isBitString (n : Nat) (s : Text) : Bool :=
  match Machine.parseBits s with
  | some v => v.length == n
  | none => false

/-- An integer string (R94). -/
def isIntegerString (s : Text) : Bool := (Machine.parseInt s).isSome

/-- An integer string whose value is at least 2 (R93, Rail Fence). -/
def isRailCount (s : Text) : Bool :=
  match Machine.parseInt s with
  | some n => decide (2 ≤ n)
  | none => false

/-- The key format of R93 and R97: the key the host should supply for the operation. R93 says "26-letter permutation-ish
string" of MONO and "any string" of PLAYFAIR; this takes R344's narrower list, which counts a MONO key with duplicates or with
characters outside a..z, and a PLAYFAIR key with a j, as ill-formed (DESIGN CHOICE, log entry 26). -/
def Instr.wellFormed (i : Instr) : Bool :=
  match i with
  | .skip => true
  | .caesar key => isIntegerString key
  | .mono key => key.length == alphabetSize && key.all Machine.isLower && decide key.Nodup
  | .vigenere key => !key.isEmpty && key.all Machine.isAlpha
  | .railfence key => isRailCount key
  | .rowcol key => !key.isEmpty
  | .des key => isBitString keyBits key
  | .playfair key => !key.isEmpty && key.all fun c => Machine.lower c != 0x6A#8
  | .permute _ => true
  | .rotl => true
  | .xor => true
  | .sbox _ => true
  | .keysched => true
  | .fk _ => true
  | .block => true
  | .run => true

/-- A permutation table of `m` entries, each in 1..`n` (R231). -/
def tableShape (m n : Nat) (t : List Int) : Bool :=
  t.length == m && t.all fun e => decide (1 ≤ e) && decide (e ≤ (n : Int))

/-- The table shapes of R231; the boxes have theirs by type (R232, R346). -/
def Config.wellFormed (c : Config) : Bool :=
  tableShape 10 10 c.p10 && tableShape 8 10 c.p8 && tableShape 8 8 c.ip && tableShape 8 8 c.ipinv &&
    tableShape 8 4 c.ep && tableShape 4 4 c.p4

/-- `IP[IPINV[i]-1] = i+1` for every `i`: IPINV is the inverse permutation its name says (R231). No rule of the core's
operation depends on it; it is a premise where a statement needs it. -/
def Config.ipInverse (c : Config) : Bool :=
  (List.range blockBits).all fun i => c.ip.getD ((c.ipinv.getD i 1) - 1).toNat 0 == (i : Int) + 1

end Sys2Proof
end

