-- ==== Sys2Proof/Safety.lean ====
section
/-! DEFINITION. The terms statements use: the outcome of a run (spec/00_scope.md R14), the pipeline as a function of its
inputs (spec/45_pipeline.md R281, R282), and the invariants of the state. -/

namespace Sys2Proof.Machine

/-- The next state of an outcome, if it has one. -/
def nextState? (o : Host.Outcome State Fault Refusal) : Option State :=
  match o with
  | .next s => some s
  | .fault _ => none
  | .refused _ => none

/-- `k` steps, ending at the first fault or refusal. -/
def runSteps (k : Nat) (s : State) : Host.Outcome State Fault Refusal :=
  match k with
  | 0 => .next s
  | k + 1 =>
    match step s with
    | .next t => runSteps k t
    | .fault r => .fault r
    | .refused r => .refused r

/-- The outcome of a run as the host receives it: `done(result, trace)` or `fault(kind, layer, alg)` (R14, R287). -/
inductive RunOutcome where
  | done (result trace : Text)
  | fault (cause : BitVec 3) (layer : Nat) (alg : BitVec 3)
  deriving DecidableEq, Repr

/-- What the outputs of a state say, in DONE or FAULT (R25, R38). -/
def runOutcome (s : State) : Option RunOutcome :=
  match s.status with
  | .done =>
    match memReadText s.result s.rlen, memReadText s.traceBuf s.trlen with
    | some r, some t => some (.done r t)
    | _, _ => none
  | .fault => some (.fault s.faultCause s.faultLayer s.faultAlg)
  | .idle => none
  | .busy => none

/-- An engine as a function `cipher(text, key, encrypt)` (R282): its output and the traces it appends, or why it gives
none. -/
def engineText (c : Config) (alg : Alg) (key : Text) (dir : Dir) (w : Text) : Except Stop (Text × List Trace) :=
  match alg with
  | .skip => .ok (w, [])
  | .caesar => (caesarEngine key dir w).map fun r => (r.2, [])
  | .mono => (monoEngine c.monoDupWinner key dir w).map fun r => (r.2, [])
  | .vigenere => (vigenereEngine key dir w).map fun r => (r.2.2, [])
  | .railfence => (railfenceEngine key dir w EngineRegs.reset).map fun r => (r.2, [])
  | .rowcol => (rowcolEngine key dir w EngineRegs.reset).map fun r => (r.2, [])
  | .des => (desEngine c key w SdesRegs.reset).map fun r => (showBits r.outv, [r.trace])
  | .playfair => (playfairEngine c.playfairKeyJ key dir w).map fun r => (r.2.2.2, [])

/-- A layer by algorithm and key. -/
abbrev Layer := Alg × Text

/-- `order = encrypt ? layers : reverse(layers)`, each layer with its index in the table as supplied (R281, R25). -/
def processingOrder (dir : Dir) (ls : List Layer) : List (Nat × Layer) :=
  let indexed := (List.range ls.length).zip ls
  match dir with
  | .encrypt => indexed
  | .decrypt => indexed.reverse

/-- What stopped a pipeline: why, the table index of the layer, and its algorithm (R315). -/
structure PipelineStop where
  reason : Stop
  layer : Nat
  alg : Alg
  deriving DecidableEq, Repr

/-- The pipeline over layers in processing order: each engine's output is the next one's input, traces accumulate, the
first engine that gives no value ends it (R282, R284, R317). -/
def pipeline (c : Config) (dir : Dir) (order : List (Nat × Layer)) (w : Text) (acc : List Trace) :
    Except PipelineStop (Text × List Trace) :=
  match order with
  | [] => .ok (w, acc)
  | l :: order =>
    match engineText c l.2.1 l.2.2 dir w with
    | .ok r => pipeline c dir order r.1 (acc ++ r.2)
    | .error e => .error ⟨e, l.1, l.2.1⟩

/-- The false variant of R292, kept beside the round trip: the decrypt directions applied in table order, without the
reversal. The core does not compute it. -/
def decryptInTableOrder (c : Config) (ls : List Layer) (w : Text) : Except PipelineStop (Text × List Trace) :=
  pipeline c .decrypt (processingOrder .encrypt ls) w []

/-- The letters a Playfair key contributes, in order: letters only, in lower case, each `j` as PLAYFAIR_KEY_J says (R201). -/
def squareKeyLetters (keyJ : KeyJ) (key : Text) : Text :=
  ((key.map lower).filter isLower).filterMap fun c =>
    if c = 0x6A#8 then
      match keyJ with
      | .toI => some 0x69#8
      | .skip => none
    else some c

/-- The layers the host has written, table indices 0 to NLAYERS-1; `none` when one was not written. -/
def tableLayers (s : State) : Option (List Layer) :=
  (List.range s.nlayers).mapM fun i => (readDescriptor s.layers i).bind layerOfWord

/-- The rail of text index `i` with `r >= 2` rails, in closed form (R171). -/
def railOf (r i : Nat) : Nat :=
  let m := i % (2 * (r - 1))
  if m ≤ r - 1 then m else 2 * (r - 1) - m

/-- The characters rail by rail, on all `r` rails, each in ascending text index (R172). -/
def railCipher (r : Nat) (w : Text) : Text :=
  (List.range r).flatMap fun q =>
    ((List.range w.length).filter fun i => railOf r i == q).map fun i => w.getD i 0

/-- The characters column by column in a given column order, empty cells contributing nothing (R180). -/
def columnCipher (order : List Nat) (ncols : Nat) (w : Text) : Text :=
  order.flatMap fun c => (List.range (ceilDiv w.length ncols)).filterMap fun r => w[r * ncols + c]?

/-- The bits a table selects from a vector that has them all (R121). -/
def selectBits (t : List Int) (v : Bits) : Bits := t.map fun e => v.getD (e - 1).toNat false

/-- The two bits a box gives on four (R124). -/
def boxBits (t : SBoxTable) (v : Bits) : Bits :=
  bin2 (boxEntry t (num2 (v.getD 0 false) (v.getD 3 false)) (num2 (v.getD 1 false) (v.getD 2 false))).val

/-- K1 and K2 of a 10-bit key: the halves of `P10(key)` rotated once and three times in all (R240). -/
def subkeys (c : Config) (key : Bits) : Bits × Bits :=
  let pk := selectBits c.p10 key
  (selectBits c.p8 ((pk.take 5).rotate 1 ++ (pk.drop 5).rotate 1),
    selectBits c.p8 ((pk.take 5).rotate 3 ++ (pk.drop 5).rotate 3))

/-- `EP(r) xor k` (R245). -/
def roundXor (c : Config) (r k : Bits) : Bits := List.zipWith Bool.xor (selectBits c.ep r) k

/-- The two bits S0 gives in a round (R245). -/
def roundBox0 (c : Config) (r k : Bits) : Bits := boxBits c.s0 ((roundXor c r k).take 4)

/-- The two bits S1 gives in a round (R245). -/
def roundBox1 (c : Config) (r k : Bits) : Bits := boxBits c.s1 ((roundXor c r k).drop 4)

/-- `fk(r, k)` (R245). -/
def roundValue (c : Config) (r k : Bits) : Bits := selectBits c.p4 (roundBox0 c r k ++ roundBox1 c r k)

/-- The four records of a round: `F1_` in round 1, `F2_` in round 2 (R245, R260). -/
def roundRecords (c : Config) (n : Subkey) (r k : Bits) : Trace :=
  match n with
  | .k1 => [⟨.f1Ep, [selectBits c.ep r]⟩, ⟨.f1Xor, [roundXor c r k]⟩, ⟨.f1Sbox, [roundBox0 c r k, roundBox1 c r k]⟩,
      ⟨.f1P4, [roundValue c r k]⟩]
  | .k2 => [⟨.f2Ep, [selectBits c.ep r]⟩, ⟨.f2Xor, [roundXor c r k]⟩, ⟨.f2Sbox, [roundBox0 c r k, roundBox1 c r k]⟩,
      ⟨.f2P4, [roundValue c r k]⟩]

/-- The right half after round 1: `L0 xor fk(R0, K1)` (R250). -/
def rightAfterRound1 (c : Config) (b k1 : Bits) : Bits :=
  let v := selectBits c.ip b
  List.zipWith Bool.xor (v.take 4) (roundValue c (v.drop 4) k1)

/-- The pre-output: `(L1 xor fk(R1, K2)) ++ R1` with `L1 = R0`, not swapped (R250). -/
def preOutput (c : Config) (b k1 k2 : Bits) : Bits :=
  let r1 := rightAfterRound1 c b k1
  List.zipWith Bool.xor ((selectBits c.ip b).drop 4) (roundValue c r1 k2) ++ r1

/-- The block's result: `IPINV` of the pre-output (R250). -/
def blockValue (c : Config) (b k1 k2 : Bits) : Bits := selectBits c.ipinv (preOutput c b k1 k2)

/-- The six records of the key schedule (R240, R260). -/
def keyRecords (c : Config) (key : Bits) : Trace :=
  let pk := selectBits c.p10 key
  let l := pk.take 5
  let r := pk.drop 5
  [⟨.ksP10, [pk]⟩, ⟨.ksSplit, [l, r]⟩, ⟨.ksLs1, [l.rotate 1, r.rotate 1]⟩, ⟨.ksK1, [(subkeys c key).1]⟩,
    ⟨.ksLs2, [l.rotate 3, r.rotate 3]⟩, ⟨.ksK2, [(subkeys c key).2]⟩]

/-- The thirteen records of a block (R250, R260). -/
def blockRecords (c : Config) (b k1 k2 : Bits) : Trace :=
  let v := selectBits c.ip b
  let r1 := rightAfterRound1 c b k1
  [⟨.bIp, [v]⟩, ⟨.bSplit, [v.take 4, v.drop 4]⟩] ++ roundRecords c .k1 (v.drop 4) k1 ++ [⟨.bSwitch, [v.drop 4, r1]⟩] ++
    roundRecords c .k2 r1 k2 ++ [⟨.bCombine, [preOutput c b k1 k2]⟩, ⟨.bIpinv, [blockValue c b k1 k2]⟩]

/-- Along an encrypt run each layer completes without a trace, and its decrypt direction undoes it on the text it was given
(R291: `D_i(t_i) = t_(i-1)`). -/
def undoneLayerByLayer (c : Config) (ls : List Layer) (w : Text) : Prop :=
  match ls with
  | [] => True
  | l :: ls => ∃ out, engineText c l.1 l.2 .encrypt w = .ok (out, []) ∧
      engineText c l.1 l.2 .decrypt out = .ok (w, []) ∧ undoneLayerByLayer c ls out

/-- Every character buffer and the Layer table are in canonical form. -/
def State.memoryWf (s : State) : Prop :=
  Memory.wf s.textIn ∧ Memory.wf s.result ∧ Memory.wf s.traceBuf ∧ cellsRising 0 s.layers ∧
    ∀ e ∈ s.layers, Memory.wf e.2.key

/-- The S-DES registers that hold operands and results have the widths of R29. -/
def SdesRegs.widths (r : SdesRegs) : Prop :=
  r.keyv.length = 10 ∧ r.pk.length = 10 ∧ r.hl.length = 5 ∧ r.hr.length = 5 ∧ r.k1.length = 8 ∧ r.k2.length = 8 ∧
    r.blk.length = 8 ∧ r.ipv.length = 8 ∧ r.l.length = 4 ∧ r.r.length = 4 ∧ r.epv.length = 8 ∧ r.xv.length = 8 ∧
    r.sb.length = 4 ∧ r.fv.length = 4 ∧ r.pre.length = 8 ∧ r.outv.length = 8

/-- The fault registers hold 0 outside FAULT, and a cause of R310 in FAULT (R25, R27). -/
def State.faultRegsOk (s : State) : Prop :=
  (s.status ≠ .fault → s.faultCause = 0#3 ∧ s.faultLayer = 0 ∧ s.faultAlg = 0#3) ∧
    (s.status = .fault → 1 ≤ s.faultCause.toNat ∧ s.faultCause.toNat ≤ 4)

/-- In DONE, RLEN and TRLEN are the lengths of what RESULT and TRACE hold (R25, R287). -/
def State.outputsOk (s : State) : Prop :=
  s.status = .done → (memReadText s.result s.rlen).isSome ∧ (memReadText s.traceBuf s.trlen).isSome

/-- While a run is in progress LP is at most NLAYERS (R22). -/
def State.pointerOk (s : State) : Prop := s.status = .busy → s.lp ≤ s.nlayers

/-- Every accumulated trace has the 19 records of R260. -/
def State.tracesOk (s : State) : Prop := ∀ t ∈ s.traceAcc, t.length = 19

/-- The inputs the host has supplied, and the configuration (R20 (a) and (d)). -/
def sameInputs (s t : State) : Prop :=
  s.textIn = t.textIn ∧ s.tlen = t.tlen ∧ s.layers = t.layers ∧ s.nlayers = t.nlayers ∧ s.dir = t.dir ∧ s.cfg = t.cfg

end Sys2Proof.Machine
end

