-- ==== Sys2Proof/Certificates/Slice0/Obligations.lean ====
section
/-! DEFINITION. The statements about the core. A statement whose docstring names a decision or a log entry rests on it. -/

open Sys2Proof Sys2Proof.Machine

/-! ### Encoding -/

/-- Decoding an encoded operation gives it back, with every operand at every value (R90, R100 to R102; codes D3, D24). -/
def Obligations.DecodeInvertsEncode : Prop :=
  ∀ i : Instr, decode (encode i) = .ok i

/-- Every word that decodes is the encoding of what it decodes to, but for the reserved header bits, the key past KLEN, and
KLEN and KEY of SKIP, which the core ignores (R90, R98, R283). -/
def Obligations.EncodeRecoversDecodedWord : Prop :=
  ∀ (w : Word) (i : Instr), decode w = .ok i → encode i =
    match w with
    | .layer h n key =>
      if algField h = 0#3 then .layer 0#8 0 [] else .layer (0b00000#5 ++ algField h) n (key.take n)
    | .bvu w => .bvu w
    | .sdesq w => .sdesq w
    | .cmd w => .cmd w

/-- Which words have an operation: every Layer word with its whole key, whatever its reserved bits; of the other formats
exactly the words R100 to R102 list (codes: decisions D3, D24). -/
def Obligations.DecodableWords : Prop :=
  (∀ (h : BitVec 8) (n : Nat) (key : Text), n ≤ key.length → ∃ i, decode (.layer h n key) = .ok i) ∧
  (∀ (h h' : BitVec 8) (n : Nat) (key : Text), algField h = algField h' →
    decode (.layer h n key) = decode (.layer h' n key)) ∧
  (∀ w : BitVec 5, (∃ i, decode (.bvu w) = .ok i) ↔ w.toNat < 6 ∨ w.toNat = 8 ∨ w.toNat = 16 ∨ w.toNat = 24 ∨ w.toNat = 25) ∧
  (∀ w : BitVec 3, (∃ i, decode (.sdesq w) = .ok i) ↔ w.toNat = 0 ∨ w.toNat = 2 ∨ w.toNat = 3 ∨ w.toNat = 4) ∧
  ∀ w : BitVec 1, (∃ i, decode (.cmd w) = .ok i) ↔ w = 1#1

/-- A few words written from R90, R92, R98, R100 to R102, R283 and the descriptors of 95_test_vectors.md Part E. -/
def Obligations.DecodedSampleWords : Prop :=
  decode (.layer 0x01#8 1 [0x31#8]) = .ok (.caesar [0x31#8]) ∧
  decode (.layer 0x03#8 3 [0x6B#8, 0x65#8, 0x79#8]) = .ok (.vigenere [0x6B#8, 0x65#8, 0x79#8]) ∧
  decode (.layer 0xF8#8 3 [0x3F#8, 0x3F#8, 0x3F#8]) = .ok .skip ∧
  decode (.bvu 0b00101#5) = .ok (.permute .ep) ∧ decode (.bvu 0b11001#5) = .ok (.sbox .s1) ∧
  decode (.sdesq 0b011#3) = .ok (.fk .k2) ∧ decode (.cmd 1#1) = .ok .run

/-! ### Operand decoding -/

/-- `parseBits` reads exactly the strings that are a bit string once the six whitespace characters are dropped, and inverts
`showBits`; `parseInt` reads exactly an optional sign and one or more decimal digits, as their decimal value (R94 to R96;
grammars: decisions D6, D7). -/
def Obligations.OperandDecoding : Prop :=
  (∀ v : Bits, parseBits (showBits v) = some v) ∧
  (∀ (s : Text) (v : Bits), parseBits s = some v ↔
    (s.filter fun c => !(c.toNat == 0x20 || (9 ≤ c.toNat && c.toNat ≤ 13))) =
      v.map fun b => if b then 0x31#8 else 0x30#8) ∧
  (∀ (k : Text) (n : Int), parseInt k = some n ↔
    ∃ d : Text, d ≠ [] ∧ (∀ c ∈ d, 0x30 ≤ c.toNat ∧ c.toNat ≤ 0x39) ∧
      ((k = d ∨ k = 0x2B#8 :: d) ∧ n = (digitsValue d : Int) ∨ k = 0x2D#8 :: d ∧ n = -(digitsValue d : Int))) ∧
  digitsValue [] = 0 ∧ ∀ (d : Text) (c : Chr), digitsValue (d ++ [c]) = 10 * digitsValue d + (c.toNat - 0x30)

/-! ### Bit-vector unit -/

/-- PERMUTE: with every entry in range the result has the table's length and holds `a[T[i]-1]` at position `i`, and nothing
else changes; otherwise IndexOutOfRange is raised with the lowest bad position and its entry, and taken, and nothing is written to the
result (R121, R317 (e); the ports and the layer a fault names: log entries 10, 20). -/
def Obligations.PermuteResult : Prop :=
  ∀ (t : PermTable) (s : State),
    ((∀ e ∈ permTable s.cfg t, 1 ≤ e ∧ e ≤ (s.bvu.a.length : Int)) →
      ∃ out, exec (.permute t) s = .next { s with bvu := { s.bvu with out := out } } ∧
        out.length = (permTable s.cfg t).length ∧
        ∀ (i : Nat) (e : Int), (permTable s.cfg t)[i]? = some e → out[i]? = s.bvu.a[(e - 1).toNat]?) ∧
    ∀ (i : Nat) (e : Int), (permTable s.cfg t)[i]? = some e → (e < 1 ∨ (s.bvu.a.length : Int) < e) →
      (∀ j < i, ∀ e', (permTable s.cfg t)[j]? = some e' → 1 ≤ e' ∧ e' ≤ (s.bvu.a.length : Int)) →
      permute s.bvu.a (permTable s.cfg t) = .error (.raised (.indexOutOfRange i e)) ∧
        exec (.permute t) s = .next (takeFault (.indexOutOfRange i e) .des s)

/-- ROTL: `out[i] = a[(i+1) mod n]`, and nothing else changes; applied n times it gives the vector back; the empty vector is
refused (R122; the ports: log entry 10). -/
def Obligations.RotlResult : Prop :=
  ∀ s : State,
    (s.bvu.a ≠ [] → ∃ out, exec .rotl s = .next { s with bvu := { s.bvu with out := out } } ∧
      out.length = s.bvu.a.length ∧ (∀ i < s.bvu.a.length, out[i]? = s.bvu.a[(i + 1) % s.bvu.a.length]?) ∧
      (fun r : Except Stop Bits => r.bind rotl)^[s.bvu.a.length] (.ok s.bvu.a) = .ok s.bvu.a) ∧
    (s.bvu.a = [] → exec .rotl s = .refused .rotlEmpty)

/-- XOR: element-wise on equal lengths, and nothing else changes; otherwise LengthMismatch is taken (R123; the
ports and the layer a fault names: log entries 10, 20). -/
def Obligations.XorResult : Prop :=
  ∀ s : State,
    (s.bvu.a.length = s.bvu.b.length → ∃ out, exec .xor s = .next { s with bvu := { s.bvu with out := out } } ∧
      out.length = s.bvu.a.length ∧
      ∀ (i : Nat) (x y : Bool), s.bvu.a[i]? = some x → s.bvu.b[i]? = some y → out[i]? = some (x != y)) ∧
    (s.bvu.a.length ≠ s.bvu.b.length →
      exec .xor s = .next (takeFault (.lengthMismatch s.bvu.a.length s.bvu.b.length) .des s))

/-- SBOX: on four bits the two bits of `S[row][col]`, row from bits 0 and 3, column from bits 1 and 2, and nothing else
changes; on any other length LengthMismatch is taken (R124; the fault: decision D23; the ports and the
layer a fault names: log entries 10, 20). -/
def Obligations.SboxResult : Prop :=
  ∀ (b : SBoxId) (s : State),
    (∀ b0 b1 b2 b3, s.bvu.a = [b0, b1, b2, b3] →
      ∃ o0 o1, exec (.sbox b) s = .next { s with bvu := { s.bvu with out := [o0, o1] } } ∧
        2 * bitNat o0 + bitNat o1 =
          (boxEntry (sboxTable s.cfg b) (2 * bitNat b0 + bitNat b3) (2 * bitNat b1 + bitNat b2)).val) ∧
    (s.bvu.a.length ≠ 4 → exec (.sbox b) s = .next (takeFault (.lengthMismatch s.bvu.a.length 4) .des s))

/-! ### S-DES unit -/

/-- KEYSCHED: PK, the halves rotated three times in all, K1 and K2, and six records appended to T; nothing else changes
(R240). -/
def Obligations.KeyScheduleResult : Prop :=
  ∀ s : State, s.cfg.wellFormed → s.sdes.keyv.length = 10 →
    let pk := selectBits s.cfg.p10 s.sdes.keyv
    exec .keysched s = .next { s with sdes := { s.sdes with
      pk := pk, hl := (pk.take 5).rotate 3, hr := (pk.drop 5).rotate 3
      k1 := (subkeys s.cfg s.sdes.keyv).1, k2 := (subkeys s.cfg s.sdes.keyv).2
      trace := s.sdes.trace ++ keyRecords s.cfg s.sdes.keyv } }

/-- FK: EPV, XV, SB and FV from R and the selected subkey, and four records appended to T; nothing else changes (R245). -/
def Obligations.RoundFunctionResult : Prop :=
  ∀ (n : Subkey) (s : State), s.cfg.wellFormed → s.sdes.r.length = 4 → (subkeyReg s.sdes n).length = 8 →
    let k := match n with
      | .k1 => s.sdes.k1
      | .k2 => s.sdes.k2
    exec (.fk n) s = .next { s with sdes := { s.sdes with
      epv := selectBits s.cfg.ep s.sdes.r, xv := roundXor s.cfg s.sdes.r k
      sb := roundBox0 s.cfg s.sdes.r k ++ roundBox1 s.cfg s.sdes.r k, fv := roundValue s.cfg s.sdes.r k
      trace := s.sdes.trace ++ roundRecords s.cfg n s.sdes.r k } }

/-- BLOCK: IP, the split, round 1 with K1 and the half-swap, round 2 with K2 and no swap, IPINV; thirteen records appended to
T; KEYV, PK, HL, HR, K1, K2, BLK and everything outside the unit are unchanged (R250, R251). -/
def Obligations.BlockResult : Prop :=
  ∀ s : State, s.cfg.wellFormed → s.sdes.blk.length = 8 → s.sdes.k1.length = 8 → s.sdes.k2.length = 8 →
    let r1 := rightAfterRound1 s.cfg s.sdes.blk s.sdes.k1
    exec .block s = .next { s with sdes := { s.sdes with
      ipv := selectBits s.cfg.ip s.sdes.blk, l := (selectBits s.cfg.ip s.sdes.blk).drop 4, r := r1
      epv := selectBits s.cfg.ep r1, xv := roundXor s.cfg r1 s.sdes.k2
      sb := roundBox0 s.cfg r1 s.sdes.k2 ++ roundBox1 s.cfg r1 s.sdes.k2, fv := roundValue s.cfg r1 s.sdes.k2
      pre := preOutput s.cfg s.sdes.blk s.sdes.k1 s.sdes.k2, outv := blockValue s.cfg s.sdes.blk s.sdes.k1 s.sdes.k2
      trace := s.sdes.trace ++ blockRecords s.cfg s.sdes.blk s.sdes.k1 s.sdes.k2 } }

/-- When IPINV inverts IP, BLOCK with the subkeys exchanged undoes BLOCK (R252). No operation of the core does this. -/
def Obligations.BlockUndoneBySwappedSubkeys : Prop :=
  ∀ s : State, s.cfg.wellFormed → s.cfg.ipInverse → s.sdes.blk.length = 8 → s.sdes.k1.length = 8 →
    s.sdes.k2.length = 8 →
    ∃ t u, exec .block s = .next t ∧
      exec .block { t with sdes := { t.sdes with blk := t.sdes.outv, k1 := s.sdes.k2, k2 := s.sdes.k1 } } = .next u ∧
      u.sdes.outv = s.sdes.blk

/-- DES on a 10-bit key and an 8-bit block: W is the block's result as text, TRACE_ACC gains the layer's trace of 19 records,
LP advances, and only the S-DES registers change besides (R255, R260; formats and text form: decisions D8, D33). -/
def Obligations.DesResult : Prop :=
  ∀ (key : Text) (kv bv : Bits) (s : State), s.cfg.wellFormed → parseBits key = some kv → kv.length = 10 →
    parseBits s.w = some bv → bv.length = 8 →
    let k := subkeys s.cfg kv
    ∃ t, exec (.des key) s = .next t ∧
      t = { s with w := t.w, lp := s.lp + 1, traceAcc := s.traceAcc ++ [t.sdes.trace], sdes := t.sdes } ∧
      t.w = showBits (blockValue s.cfg bv k.1 k.2) ∧ t.w.length = 8 ∧
      t.sdes.trace = keyRecords s.cfg kv ++ blockRecords s.cfg bv k.1 k.2 ∧ t.sdes.trace.length = 19 ∧
      t.sdes.keyv = kv ∧ t.sdes.blk = bv ∧ t.sdes.k1 = k.1 ∧ t.sdes.k2 = k.2 ∧
      t.sdes.outv = blockValue s.cfg bv k.1 k.2

/-- DES computes the same for both directions (R256). -/
def Obligations.DesIgnoresDirection : Prop :=
  ∀ (key : Text) (s t : State), exec (.des key) { s with dir := .encrypt } = .next t → t.status ≠ .fault →
    exec (.des key) { s with dir := .decrypt } = .next { t with dir := .decrypt }

/-! ### Substitution engines -/

/-- CAESAR on an integer key: SHIFT is `n mod 26` or `(-n) mod 26`, each letter moves by it inside its own case, every other
character is kept, LP advances, nothing else changes (R140; key grammar: decision D7). -/
def Obligations.CaesarResult : Prop :=
  ∀ (key : Text) (n : Int) (s : State), parseInt key = some n →
    ∃ t, exec (.caesar key) s = .next t ∧
      t = { s with w := t.w, lp := s.lp + 1, eng := { s.eng with shift := t.eng.shift } } ∧
      (t.eng.shift : Int) = (match s.dir with | .encrypt => n % 26 | .decrypt => -n % 26) ∧
      t.w.length = s.w.length ∧
      ∀ (i : Nat) (c : Chr), s.w[i]? = some c → t.w[i]? = some (
        if isUpper c then chrU ((c.toNat - 0x41 + t.eng.shift) % 26)
        else if isLower c then chrL ((c.toNat - 0x61 + t.eng.shift) % 26)
        else c)

/-- Decrypting a CAESAR encryption gives the text back, and the other way round, for every text and integer key (R143). -/
def Obligations.CaesarRoundTrip : Prop :=
  ∀ (key : Text) (n : Int) (c : Config) (t : Text), parseInt key = some n →
    (∃ u, engineText c .caesar key .encrypt t = .ok (u, []) ∧ engineText c .caesar key .decrypt u = .ok (t, [])) ∧
    ∃ u, engineText c .caesar key .decrypt t = .ok (u, []) ∧ engineText c .caesar key .encrypt u = .ok (t, [])

/-- Keys congruent modulo 26 give the same output, and decrypting with n is encrypting with -n (R141). -/
def Obligations.CaesarKeyModulo26 : Prop :=
  ∀ (k1 k2 : Text) (n1 n2 : Int) (s : State), parseInt k1 = some n1 → parseInt k2 = some n2 →
    (n1 % 26 = n2 % 26 → exec (.caesar k1) s = exec (.caesar k2) s) ∧
    (n2 = -n1 → ∃ t u, exec (.caesar k1) { s with dir := .decrypt } = .next t ∧
      exec (.caesar k2) { s with dir := .encrypt } = .next u ∧ t.w = u.w)

/-- MONO on a non-empty key. Encrypting, a letter becomes the key character at its cyclic position. Decrypting, a character
paired with alphabet letters becomes the last or the first of them, as MONO_DUP_WINNER says. Every other character of the
lowercased text is kept; LP advances, MAP is written, nothing else changes (R145 to R147; literal key and OPEN winner:
decision D11). -/
def Obligations.MonoResult : Prop :=
  ∀ (key : Text) (s : State), key ≠ [] →
    ∃ t, exec (.mono key) s = .next t ∧
      t = { s with w := t.w, lp := s.lp + 1, eng := { s.eng with map := t.eng.map } } ∧
      t.w.length = s.w.length ∧
      ∀ (i : Nat) (c : Chr), (s.w.map lower)[i]? = some c →
        match s.dir with
        | .encrypt => t.w[i]? = if isLower c then key[(c.toNat - 0x61) % key.length]? else some c
        | .decrypt =>
          (∀ k < 26, key[k % key.length]? = some c →
            (∀ j < 26, key[j % key.length]? = some c →
              match s.cfg.monoDupWinner with
              | .last => j ≤ k
              | .first => k ≤ j) →
            t.w[i]? = some (chrL k)) ∧
          ((∀ k < 26, key[k % key.length]? ≠ some c) → t.w[i]? = some c)

/-- With a key whose first 26 characters are a permutation of the alphabet, decrypting a MONO encryption gives the
lowercased text, for either MONO_DUP_WINNER (R149). -/
def Obligations.MonoRoundTrip : Prop :=
  ∀ (key : Text) (c : Config) (t : Text), (key.take 26).Perm alphabet →
    ∃ u, engineText c .mono key .encrypt t = .ok (u, []) ∧ engineText c .mono key .decrypt u = .ok (lowerText t, [])

/-- VIGENERE on a non-empty alphabetic key: the letter at a position moves by the key letter selected by the number of
letters before it, forward or back; every other character is kept; KS, KP and LP are written, nothing else changes (R151,
R152; case and key content: decision D10). -/
def Obligations.VigenereResult : Prop :=
  ∀ (key : Text) (s : State), key ≠ [] → (∀ c ∈ key, isAlpha c) →
    ∃ t, exec (.vigenere key) s = .next t ∧
      t = { s with w := t.w, lp := s.lp + 1, eng := { s.eng with ks := t.eng.ks, kp := t.eng.kp } } ∧
      t.eng.ks = key.map ord0 ∧ t.eng.kp = s.w.countP isAlpha ∧
      t.w.length = s.w.length ∧
      ∀ (i : Nat) (c : Chr), s.w[i]? = some c → t.w[i]? = some (
        if isAlpha c then
          let shift := ord0 (key.getD ((s.w.take i).countP isAlpha % key.length) 0)
          match s.dir with
          | .encrypt => chrL ((ord0 c + shift) % 26)
          | .decrypt => chrL ((ord0 c + 26 - shift) % 26)
        else c)

/-- For a non-empty alphabetic key, decrypting a VIGENERE encryption gives the lowercased text, and the other way round
(R154). -/
def Obligations.VigenereRoundTrip : Prop :=
  ∀ (key : Text) (c : Config) (t : Text), key ≠ [] → (∀ c ∈ key, isAlpha c) →
    (∃ u, engineText c .vigenere key .encrypt t = .ok (u, []) ∧
      engineText c .vigenere key .decrypt u = .ok (lowerText t, [])) ∧
    ∃ u, engineText c .vigenere key .decrypt t = .ok (u, []) ∧
      engineText c .vigenere key .encrypt u = .ok (lowerText t, [])

/-! ### Transposition engines -/

/-- The zig-zag walk in closed form, with period 2(r-1) (R171). -/
def Obligations.ZigzagClosedForm : Prop :=
  ∀ n r : Nat, 2 ≤ r → railRows n r = (List.range n).map (railOf r)

/-- RAILFENCE on an integer key: one rail or fewer leaves W unchanged; with r >= 2 rails encryption lists the rails in order,
all r of them, and decryption gives the text whose encryption W is; LP advances and only the engine's scratch changes
besides (R170 to R174; key grammar: decision D7). -/
def Obligations.RailfenceResult : Prop :=
  ∀ (key : Text) (n : Int) (s : State), parseInt key = some n →
    ∃ t, exec (.railfence key) s = .next t ∧
      t = { s with w := t.w, lp := s.lp + 1, eng := { s.eng with
        rails := n, row := t.eng.row, down := t.eng.down, mark := t.eng.mark } } ∧
      (n ≤ 1 → t.w = s.w) ∧
      (2 ≤ n →
        match s.dir with
        | .encrypt => t.w = railCipher n.toNat s.w
        | .decrypt => t.w.length = s.w.length ∧ railCipher n.toNat t.w = s.w)

/-- After a decrypting RAILFENCE layer with r >= 2 rails, MARK read along the zig-zag is the output, and no other cell is
marked (R173 (1) to (3)). -/
def Obligations.RailfenceMarkHoldsOutput : Prop :=
  ∀ (key : Text) (n : Int) (s t : State), parseInt key = some n → 2 ≤ n → s.dir = .decrypt →
    exec (.railfence key) s = .next t →
    (∀ (i : Nat) (c : Chr), t.w[i]? = some c →
      cellsRead t.eng.mark (railOf n.toNat i * s.w.length + i) = some (.holding c)) ∧
    t.eng.mark.length = s.w.length

/-- `railfence(railfence(t, r, true), r, false) == t` for every rail count, and the other way round (R175). -/
def Obligations.RailfenceRoundTrip : Prop :=
  ∀ (key : Text) (n : Int) (c : Config) (t : Text), parseInt key = some n →
    (∃ u, engineText c .railfence key .encrypt t = .ok (u, []) ∧ engineText c .railfence key .decrypt u = .ok (t, [])) ∧
    ∃ u, engineText c .railfence key .decrypt t = .ok (u, []) ∧ engineText c .railfence key .encrypt u = .ok (t, [])

/-- The column order is a permutation of the column indices, ascending by key character and, for equal characters, by
position (R181; comparison by unsigned code: decision D12). -/
def Obligations.ColumnOrderSorted : Prop :=
  ∀ key : Text, (columnOrder key).Perm (List.range key.length) ∧
    (columnOrder key).Pairwise fun a b =>
      (key.getD a 0).toNat < (key.getD b 0).toNat ∨ key.getD a 0 = key.getD b 0 ∧ a < b

/-- ROWCOL on a non-empty key: encryption reads the grid's columns in key order, decryption gives the text whose encryption
W is; GRID holds the plaintext row by row, short last row empty; LP advances and only the engine's scratch changes besides
(R180, R182, R32). -/
def Obligations.RowcolResult : Prop :=
  ∀ (key : Text) (s : State), key ≠ [] →
    ∃ t, exec (.rowcol key) s = .next t ∧
      t = { s with w := t.w, lp := s.lp + 1, eng := { s.eng with
        ncols := key.length, nrows := ceilDiv s.w.length key.length, order := columnOrder key, grid := t.eng.grid } } ∧
      (match s.dir with
        | .encrypt => t.w = columnCipher (columnOrder key) key.length s.w
        | .decrypt => t.w.length = s.w.length ∧ columnCipher (columnOrder key) key.length t.w = s.w) ∧
      t.eng.grid.length = t.eng.nrows * key.length ∧
      ∀ r < t.eng.nrows, ∀ c < key.length, t.eng.grid[r * key.length + c]? =
        some ((match s.dir with | .encrypt => s.w | .decrypt => t.w)[r * key.length + c]?)

/-- `rowcolumn(rowcolumn(t, k, true), k, false) == t` for every non-empty key, and the other way round (R185). -/
def Obligations.RowcolRoundTrip : Prop :=
  ∀ (key : Text) (c : Config) (t : Text), key ≠ [] →
    (∃ u, engineText c .rowcol key .encrypt t = .ok (u, []) ∧ engineText c .rowcol key .decrypt u = .ok (t, [])) ∧
    ∃ u, engineText c .rowcol key .decrypt t = .ok (u, []) ∧ engineText c .rowcol key .encrypt u = .ok (t, [])

/-! ### Playfair engine -/

/-- The key square: the key's letters first, in the order they first occur (j as PLAYFAIR_KEY_J says), then the remaining
letters in ascending order; it holds each of the 25 letters a..z without j exactly once (R201; key preprocessing: decision
D13). -/
def Obligations.KeySquareResult : Prop :=
  ∀ (keyJ : KeyJ) (key : Text),
    let ks := squareKeyLetters keyJ key
    ((buildSquare keyJ key).length = 25 ∧ (buildSquare keyJ key).Nodup ∧
      ∀ c : Chr, c ∈ buildSquare keyJ key ↔ isLower c ∧ c ≠ 0x6A#8) ∧
    ∃ first rest : Text, buildSquare keyJ key = first ++ rest ∧
      (∀ c, c ∈ first ↔ c ∈ ks) ∧ (first.Pairwise fun a b => ks.idxOf a < ks.idxOf b) ∧
      rest.Pairwise fun a b => a.toNat < b.toNat

/-- Digraph formation, by the cases of R203's loop. -/
def Obligations.DigraphFormation : Prop :=
  digraphs [] = [] ∧ (∀ a : Chr, digraphs [a] = [(a, 0x78#8)]) ∧
    ∀ (a b : Chr) (u : Text), digraphs (a :: b :: u) =
      if a = b then (a, 0x78#8) :: digraphs (b :: u) else (a, b) :: digraphs u

/-- PLAYFAIR on a non-empty key: SQ, NORM and DG are built, and each digraph's output letters stand where R204's row, column
or rectangle rule says; LP advances and nothing else changes (R200 to R205; decision D13). -/
def Obligations.PlayfairResult : Prop :=
  ∀ (key : Text) (s : State), key ≠ [] →
    ∃ t, exec (.playfair key) s = .next t ∧
      t = { s with w := t.w, lp := s.lp + 1, eng := { s.eng with sq := t.eng.sq, norm := t.eng.norm, dg := t.eng.dg } } ∧
      t.eng.sq = buildSquare s.cfg.playfairKeyJ key ∧
      t.eng.norm = ((s.w.map lower).filter isLower).map (fun c => if c = 0x6A#8 then 0x69#8 else c) ∧
      t.eng.dg = digraphs t.eng.norm ∧
      t.w.length = 2 * t.eng.dg.length ∧
      ∀ (m : Nat) (a b : Chr), t.eng.dg[m]? = some (a, b) →
        ∃ ra < 5, ∃ ca < 5, ∃ rb < 5, ∃ cb < 5,
          t.eng.sq[5 * ra + ca]? = some a ∧ t.eng.sq[5 * rb + cb]? = some b ∧
          let d := match s.dir with | .encrypt => 1 | .decrypt => 4
          if ra = rb then
            t.w[2 * m]? = t.eng.sq[5 * ra + (ca + d) % 5]? ∧ t.w[2 * m + 1]? = t.eng.sq[5 * rb + (cb + d) % 5]?
          else if ca = cb then
            t.w[2 * m]? = t.eng.sq[5 * ((ra + d) % 5) + ca]? ∧ t.w[2 * m + 1]? = t.eng.sq[5 * ((rb + d) % 5) + cb]?
          else
            t.w[2 * m]? = t.eng.sq[5 * ra + cb]? ∧ t.w[2 * m + 1]? = t.eng.sq[5 * rb + ca]?

/-- The output of PLAYFAIR has even length, at most twice the letters of the text, and holds only letters of the square
(R205). -/
def Obligations.PlayfairOutputLetters : Prop :=
  ∀ (key : Text) (s t : State), exec (.playfair key) s = .next t → t.status ≠ .fault →
    t.w.length = 2 * t.eng.dg.length ∧ t.w.length ≤ 2 * t.eng.norm.length ∧ t.w.length ≤ 2 * s.w.length ∧
    ∀ c ∈ t.w, c ∈ t.eng.sq ∧ isLower c ∧ c ≠ 0x6A#8

/-- The Playfair round trip, on texts whose normalised form has even length and no pair of equal letters (R207). -/
def Obligations.PlayfairRoundTrip : Prop :=
  ∀ (key : Text) (c : Config) (t : Text), key ≠ [] → (normalise t).length % 2 = 0 →
    (∀ (m : Nat) (a b : Chr), (normalise t)[2 * m]? = some a → (normalise t)[2 * m + 1]? = some b → a ≠ b) →
    ∃ u, engineText c .playfair key .encrypt t = .ok (u, []) ∧
      engineText c .playfair key .decrypt u = .ok (normalise t, [])

/-! ### Sequencer -/

/-- SKIP: every descriptor with ALG = 0 is one, whatever its KLEN and key; it changes nothing but LP, which advances by one;
a table made only of SKIP layers gives the input text and an empty trace (R283). -/
def Obligations.SkipResult : Prop :=
  (∀ (h : BitVec 8) (n : Nat) (key : Text), algField h = 0#3 → decode (.layer h n key) = .ok .skip) ∧
  (∀ s : State, exec .skip s = .next { s with lp := s.lp + 1 }) ∧
  ∀ (s : State) (text : Text) (ls : List Layer), s.status ≠ .busy → memReadText s.textIn s.tlen = some text →
    tableLayers s = some ls → (∀ l ∈ ls, l.1 = .skip) →
    ∃ t, exec .run s = .next t ∧ runOutcome t = some (.done text [])

/-- One step runs the decoded operation: an issued internal word, the layer at LP of a run in progress, or the command START
left; otherwise it ends a run in progress or does nothing (R280, R289, R342; log entries 1 and 11). -/
def Obligations.StepRunsDecodedInstruction : Prop :=
  (∀ (s : State) (w : BitVec 5) (i : Instr), s.issue = some (.bvu w) → decode (.bvu w) = .ok i →
    step s = exec i { s with issue := none }) ∧
  (∀ (s : State) (w : BitVec 3) (i : Instr), s.issue = some (.sdesq w) → decode (.sdesq w) = .ok i →
    step s = exec i { s with issue := none }) ∧
  (∀ (s : State) (w : Word) (i : Instr), s.issue = none → s.status = .busy → s.lp < s.nlayers →
    fetchLayer s = some w → decode w = .ok i → step s = exec i s) ∧
  (∀ s : State, s.issue = none → s.status ≠ .busy → s.start = true → step s = exec .run s) ∧
  (∀ s : State, s.issue = none → s.status = .busy → s.nlayers ≤ s.lp → step s = .next (finishRun s)) ∧
  ∀ s : State, s.issue = none → s.status ≠ .busy → s.start = false → step s = .next s

/-- Every descriptor the sequencer can fetch decodes, to the operation of its ALG field with its own key, and the sequencer's
dispatch of it is `exec` of that operation (R64, R98, R282). -/
def Obligations.FetchedLayerDispatch : Prop :=
  ∀ (s : State) (w : Word), fetchLayer s = some w →
    ∃ alg key, decode w = .ok (Instr.ofLayer alg key) ∧ runLayer s = exec (Instr.ofLayer alg key) s ∧
      ∃ h n k, w = .layer h n k ∧ algCode alg = algField h ∧ (alg ≠ .skip → key = k.take n)

/-- RUN is the pipeline of R281 and R282: DONE with the pipeline's result and rendered traces, or FAULT with the cause, the
table index and the algorithm of the layer that raised, and the outputs not written (R280, R284, R290, R315). -/
def Obligations.RunIsPipeline : Prop :=
  ∀ (s : State) (text : Text) (ls : List Layer), s.status ≠ .busy → memReadText s.textIn s.tlen = some text →
    tableLayers s = some ls →
    match pipeline s.cfg s.dir (processingOrder s.dir ls) text [] with
    | .ok (out, traces) => ∃ t, exec .run s = .next t ∧ t.status = .done ∧
        runOutcome t = some (.done out (renderAll traces)) ∧ t.w = out ∧ t.traceAcc = traces ∧ t.lp = s.nlayers ∧
        t.rlen = out.length ∧ t.trlen = (renderAll traces).length ∧
        t.faultCause = 0#3 ∧ t.faultLayer = 0 ∧ t.faultAlg = 0#3
    | .error ⟨.raised k, i, alg⟩ => ∃ t, exec .run s = .next t ∧ t.status = .fault ∧
        runOutcome t = some (.fault (causeCode k) i (algCode alg)) ∧
        t.result = s.result ∧ t.rlen = s.rlen ∧ t.traceBuf = s.traceBuf ∧ t.trlen = s.trlen
    | .error ⟨.refused r, _, _⟩ => exec .run s = .refused r

/-- Every run on written inputs and well-formed tables ends, in DONE or in FAULT (R14, R287). -/
def Obligations.RunEndsInDoneOrFault : Prop :=
  ∀ s : State, s.status ≠ .busy → inputsWritten s → s.cfg.wellFormed →
    ∃ t, exec .run s = .next t ∧ t.start = false ∧ (t.status = .done ∨ t.status = .fault)

/-- A START while a run is in progress is ignored, and a run whose inputs were not all written is refused (R288, R38). -/
def Obligations.RunNotStarted : Prop :=
  (∀ s : State, s.status = .busy → exec .run s = .next { s with start := false }) ∧
    ∀ s : State, s.status ≠ .busy → inputsWritten s = false → exec .run s = .refused .inputNotWritten

/-- The layer-by-layer steps of a run in progress come to what RUN answers: one step per layer and one for the end (R289;
decision D26, log entry 1). -/
def Obligations.StepsComputeRun : Prop :=
  ∀ (s : State) (text : Text), s.status ≠ .busy → s.issue = none → inputsWritten s →
    memReadText s.textIn s.tlen = some text →
    runSteps (s.nlayers + 1) (beginRun text s) = exec .run s

/-- The outcome of a run depends on the text read, the layers read, the direction and the configuration only: not on elements
at or past TLEN, NLAYERS or KLEN, nor on W, LP, scratch, earlier outputs or the earlier state (R6, R35, R280). -/
def Obligations.RunDependsOnInputsOnly : Prop :=
  ∀ s t : State, memReadText s.textIn s.tlen = memReadText t.textIn t.tlen → tableLayers s = tableLayers t →
    s.dir = t.dir → s.cfg = t.cfg → s.status ≠ .busy → t.status ≠ .busy →
    (∃ s' t', exec .run s = .next s' ∧ exec .run t = .next t' ∧ s'.status = t'.status ∧ runOutcome s' = runOutcome t') ∨
    ∃ r, exec .run s = .refused r ∧ exec .run t = .refused r

/-- The decryption contract: if along an encrypt run each layer's decrypt direction undoes it, then the run with the same
table, DIR = 0 and the result as text ends with the original text (R291). The reversal is needed: for every configuration
there are such layers and a text for which the decrypt directions in table order give another text (R292). -/
def Obligations.RoundTripContract : Prop :=
  (∀ (s : State) (text : Text) (ls : List Layer), s.status ≠ .busy → s.dir = .encrypt →
    memReadText s.textIn s.tlen = some text → tableLayers s = some ls → undoneLayerByLayer s.cfg ls text →
    ∃ t out, exec .run s = .next t ∧ runOutcome t = some (.done out []) ∧
      ∃ u, exec .run { loadText out t with dir := .decrypt } = .next u ∧ runOutcome u = some (.done text [])) ∧
  ∀ c : Config, ∃ (ls : List Layer) (text out other : Text), undoneLayerByLayer c ls text ∧
    pipeline c .encrypt (processingOrder .encrypt ls) text [] = .ok (out, []) ∧
    pipeline c .decrypt (processingOrder .decrypt ls) out [] = .ok (text, []) ∧
    decryptInTableOrder c ls out = .ok (other, []) ∧ other ≠ text

/-- TRACE is empty exactly when no DES layer was executed (R285). -/
def Obligations.TraceEmptyWithoutDes : Prop :=
  ∀ (s t : State) (ls : List Layer), s.status ≠ .busy → tableLayers s = some ls → exec .run s = .next t →
    t.status = .done → (t.trlen = 0 ↔ ∀ l ∈ ls, l.1 ≠ .des)

/-- RUN leaves the inputs, the ports and the issue latch as they are; START is taken; after a fault the outputs are as they
were (R71, R73, R315; START, the ports and the latch are the model's: log entries 1, 10, 11). -/
def Obligations.RunFrame : Prop :=
  ∀ s t : State, exec .run s = .next t →
    t.dir = s.dir ∧ t.nlayers = s.nlayers ∧ t.tlen = s.tlen ∧ t.cfg = s.cfg ∧ t.bvu = s.bvu ∧ t.issue = s.issue ∧
    t.start = false ∧ t.layers = s.layers ∧ (∀ a, memRead t.textIn a = memRead s.textIn a) ∧
    (t.status ≠ .done → t.rlen = s.rlen ∧ t.trlen = s.trlen ∧
      ∀ a, memRead t.result a = memRead s.result a ∧ memRead t.traceBuf a = memRead s.traceBuf a)

/-! ### Faults -/

/-- Fault entry: the cause, the table index of the layer at LP and the algorithm of the operation that raised are recorded,
the state becomes FAULT, LP is not advanced and the outputs are not written (R315; codes: decision D17). That W, TRACE_ACC and
the scratch stay as they were, and whose algorithm is recorded outside a run, is the model's choice (log entries 9, 20). -/
def Obligations.FaultEntryWrites : Prop :=
  ∀ (k : FaultKind) (alg : Alg) (s : State), takeFault k alg s = { s with
    faultCause := match k with
      | .invalidKeyFormat => 1#3
      | .lengthMismatch _ _ => 2#3
      | .indexOutOfRange _ _ => 3#3
      | .invalidBlockFormat => 4#3
    faultLayer := match s.dir with
      | .encrypt => s.lp
      | .decrypt => s.nlayers - 1 - s.lp
    faultAlg := algCode alg
    status := .fault }

/-- Every site of InvalidKeyFormat and InvalidBlockFormat: the layer takes the fault whatever W is, and in a DES layer the key
is checked before the block (R311, R314, R317 (d); decisions D7 to D10). -/
def Obligations.MalformedLayersTakeTheirFault : Prop :=
  ∀ (key : Text) (s : State),
    (parseInt key = none → exec (.caesar key) s = .next (takeFault .invalidKeyFormat .caesar s) ∧
      exec (.railfence key) s = .next (takeFault .invalidKeyFormat .railfence s)) ∧
    (key = [] → exec (.mono key) s = .next (takeFault .invalidKeyFormat .mono s) ∧
      exec (.rowcol key) s = .next (takeFault .invalidKeyFormat .rowcol s) ∧
      exec (.playfair key) s = .next (takeFault .invalidKeyFormat .playfair s)) ∧
    (key = [] ∨ (∃ c ∈ key, isAlpha c = false) →
      exec (.vigenere key) s = .next (takeFault .invalidKeyFormat .vigenere s)) ∧
    (isBitString 10 key = false → exec (.des key) s = .next (takeFault .invalidKeyFormat .des s)) ∧
    (isBitString 10 key = true → isBitString 8 s.w = false →
      exec (.des key) s = .next (takeFault .invalidBlockFormat .des s))

/-- With well-formed tables every Layer operation answers a next state, and no DES layer meets a BVU fault (R14, R233). -/
def Obligations.LayersAlwaysAnswer : Prop :=
  ∀ (alg : Alg) (key : Text) (s : State), s.cfg.wellFormed →
    ∃ t, exec (Instr.ofLayer alg key) s = .next t ∧
      (t.status = .fault → s.status = .fault ∨ t.faultCause = 1#3 ∨ t.faultCause = 4#3)

/-! ### Frames -/

/-- What a Layer operation leaves unchanged: everything but W, LP, TRACE_ACC, the scratch registers and, when it faults, the
fault registers and STATUS; TRACE_ACC only by DES, and by every one either LP or the fault registers (R61, R23, R315). That a
layer that faults leaves W, TRACE_ACC and the scratch as they were is the model's choice (log entry 9); the ports and the latch
are the model's (log entries 10, 11). -/
def Obligations.LayerFrame : Prop :=
  ∀ (alg : Alg) (key : Text) (s t : State), exec (Instr.ofLayer alg key) s = .next t →
    t.start = s.start ∧ t.dir = s.dir ∧ t.nlayers = s.nlayers ∧ t.tlen = s.tlen ∧ t.rlen = s.rlen ∧ t.trlen = s.trlen ∧
    t.layers = s.layers ∧ t.bvu = s.bvu ∧ t.issue = s.issue ∧ t.cfg = s.cfg ∧
    (∀ a, memRead t.textIn a = memRead s.textIn a ∧ memRead t.result a = memRead s.result a ∧
      memRead t.traceBuf a = memRead s.traceBuf a) ∧
    (alg ≠ .des → t.sdes = s.sdes ∧ t.traceAcc = s.traceAcc) ∧ (alg = .des → t.eng = s.eng) ∧
    (t.lp = s.lp + 1 ∧ t.status = s.status ∧ t.faultCause = s.faultCause ∧ t.faultLayer = s.faultLayer ∧
        t.faultAlg = s.faultAlg ∨
      t.lp = s.lp ∧ t.status = .fault ∧ t.w = s.w ∧ t.traceAcc = s.traceAcc ∧ t.eng = s.eng ∧ t.sdes = s.sdes)

/-- What an internal operation leaves unchanged: a BVU operation everything but its result port, an S-DES operation
everything but the unit's registers, K1 and K2 written by KEYSCHED only; when one faults, everything but the fault registers
and STATUS, and otherwise these too (R120, R30, R61; the scratch after a fault, the ports, the latch and the fault of an
operation issued by itself: log entries 9, 10, 11, 20). -/
def Obligations.InternalOperationFrame : Prop :=
  ∀ (i : Instr) (s t : State), i.layer? = none → i ≠ .run → exec i s = .next t →
    t.start = s.start ∧ t.dir = s.dir ∧ t.nlayers = s.nlayers ∧ t.tlen = s.tlen ∧ t.rlen = s.rlen ∧ t.trlen = s.trlen ∧
    t.w = s.w ∧ t.lp = s.lp ∧ t.traceAcc = s.traceAcc ∧ t.eng = s.eng ∧ t.layers = s.layers ∧ t.issue = s.issue ∧
    t.cfg = s.cfg ∧ t.bvu.a = s.bvu.a ∧ t.bvu.b = s.bvu.b ∧
    (∀ a, memRead t.textIn a = memRead s.textIn a ∧ memRead t.result a = memRead s.result a ∧
      memRead t.traceBuf a = memRead s.traceBuf a) ∧
    ((∃ k, i = .permute k) ∨ i = .rotl ∨ i = .xor ∨ (∃ b, i = .sbox b) → t.sdes = s.sdes) ∧
    (i = .keysched ∨ (∃ k, i = .fk k) ∨ i = .block → t.bvu = s.bvu ∧ t.sdes.keyv = s.sdes.keyv ∧
      t.sdes.blk = s.sdes.blk) ∧
    (i ≠ .keysched → t.sdes.k1 = s.sdes.k1 ∧ t.sdes.k2 = s.sdes.k2) ∧
    (t.status = s.status ∧ t.faultCause = s.faultCause ∧ t.faultLayer = s.faultLayer ∧ t.faultAlg = s.faultAlg ∨
      t.status = .fault ∧ t.sdes = s.sdes ∧ t.bvu = s.bvu)

/-! ### Invariants of a step -/

/-- Every step keeps every buffer and the Layer table in canonical form. -/
def Obligations.StepKeepsCanonicalBuffers : Prop :=
  ∀ s t : State, s.memoryWf → step s = .next t → t.memoryWf

/-- The core never writes its own inputs or its configuration (R23, R73, R20 (d)). -/
def Obligations.StepKeepsInputs : Prop :=
  ∀ s t : State, step s = .next t → sameInputs t s

/-- Every step keeps the fault registers at 0 outside FAULT and at a cause 1..4 in FAULT (R25, R27, R310). -/
def Obligations.StepKeepsFaultRegisters : Prop :=
  ∀ s t : State, s.faultRegsOk → step s = .next t → t.faultRegsOk

/-- With well-formed tables every step keeps the S-DES registers at the widths of R29. -/
def Obligations.StepKeepsSdesWidths : Prop :=
  ∀ s t : State, s.cfg.wellFormed → s.sdes.widths → step s = .next t → t.sdes.widths

/-- Every step keeps LP at most NLAYERS during a run, the outputs readable in DONE, and every accumulated trace at 19 records
(R22, R25, R262). -/
def Obligations.StepKeepsRunState : Prop :=
  ∀ s t : State, s.pointerOk → s.outputsOk → s.tracesOk → step s = .next t → t.pointerOk ∧ t.outputsOk ∧ t.tracesOk

/-- The invariants hold at reset (the widths at reset, the tables and the empty buffers: log entries 7, 3 and 8). -/
def Obligations.ResetMeetsInvariants : Prop :=
  State.reset.memoryWf ∧ State.reset.faultRegsOk ∧ State.reset.cfg.wellFormed ∧ State.reset.cfg.ipInverse ∧
    State.reset.sdes.widths ∧ State.reset.pointerOk ∧ State.reset.outputsOk ∧ State.reset.tracesOk

/-! ### Host and platform -/

/-- Reset from any state gives the reset state and keeps the configuration. The host then reads STATUS IDLE, DIR = 1, NLAYERS,
TLEN and FAULT_CAUSE 0, and RLEN, TRLEN, FAULT_LAYER, FAULT_ALG, RESULT and TRACE hold no value for it; the registers behind
them are 0, LP is 0, W and TRACE_ACC are empty, and no input element holds a value (R37, R38, R340; decision D19; what R37
leaves unspecified, the scratch and the empty buffers: log entries 7, 8). -/
def Obligations.ResetValues : Prop :=
  ∀ s : State, let r := platformReset s
    r = { State.reset with cfg := s.cfg } ∧
    regRead 0 r = .next 0 ∧ regRead 1 r = .next 0 ∧ regRead 2 r = .next 1 ∧ regRead 3 r = .next 0 ∧
    regRead 4 r = .next 0 ∧ regRead 5 r = .refused .outputHoldsNoValue ∧ regRead 6 r = .refused .outputHoldsNoValue ∧
    regRead 7 r = .next 0 ∧ regRead 8 r = .refused .outputHoldsNoValue ∧ regRead 9 r = .refused .outputHoldsNoValue ∧
    r.status = .idle ∧ r.dir = .encrypt ∧ r.nlayers = 0 ∧ r.tlen = 0 ∧ r.rlen = 0 ∧ r.trlen = 0 ∧
    r.faultCause = 0#3 ∧ r.faultLayer = 0 ∧ r.faultAlg = 0#3 ∧ r.lp = 0 ∧ r.w = [] ∧ r.traceAcc = [] ∧
    ∀ a, memRead r.textIn a = none ∧ layerEntry r.layers a = ⟨none, none, []⟩ ∧
      resultRead a r = .refused .outputHoldsNoValue ∧ traceRead a r = .refused .outputHoldsNoValue

/-- Host register accesses outside a run: DIR takes bit 0, NLAYERS and TLEN the value written; CTRL bit 0 sets START and its
other bits are ignored, and CTRL reads 0; writes to the read-only registers are ignored; STATUS reads its code, DIR, NLAYERS
and TLEN their values, RLEN and TRLEN theirs in DONE, the fault registers theirs in FAULT; a register holding no value is not
read; numbers above 9 name no register (R25, R26, R38, R102; decisions D2, D27; log entry 18). -/
def Obligations.HostRegisterAccess : Prop :=
  ∀ (n v : Nat) (s : State), runInProgress s = false →
    (regWrite 2 v s = .next { s with dir := if v % 2 = 1 then .encrypt else .decrypt }) ∧
    (regWrite 3 v s = .next { s with nlayers := v }) ∧ (regWrite 4 v s = .next { s with tlen := v }) ∧
    (regWrite 0 v s = .next (if v % 2 = 1 then { s with start := true } else s)) ∧ regRead 0 s = .next 0 ∧
    (n = 1 ∨ 5 ≤ n ∧ n ≤ 9 → regWrite n v s = .next s) ∧
    (10 ≤ n → regWrite n v s = .fault (.noSuchRegister n) ∧ regRead n s = .fault (.noSuchRegister n)) ∧
    (s.status = .idle → regRead 1 s = .next 0) ∧ (s.status = .done → regRead 1 s = .next 2) ∧
    (s.status = .fault → regRead 1 s = .next 3) ∧
    (s.dir = .encrypt → regRead 2 s = .next 1) ∧ (s.dir = .decrypt → regRead 2 s = .next 0) ∧
    regRead 3 s = .next s.nlayers ∧ regRead 4 s = .next s.tlen ∧
    (s.status = .done → regRead 5 s = .next s.rlen ∧ regRead 6 s = .next s.trlen) ∧
    (s.status = .fault → regRead 7 s = .next s.faultCause.toNat ∧ regRead 8 s = .next s.faultLayer ∧
      regRead 9 s = .next s.faultAlg.toNat) ∧
    (s.status ≠ .done → regRead 5 s = .refused .outputHoldsNoValue ∧ regRead 6 s = .refused .outputHoldsNoValue) ∧
    (s.status ≠ .fault → regRead 7 s = .next 0 ∧ regRead 8 s = .refused .outputHoldsNoValue ∧
      regRead 9 s = .refused .outputHoldsNoValue)

/-- While a run is in progress or commanded every host write is ignored, STATUS reads BUSY, FAULT_CAUSE reads 0 and no output
is read: not RLEN, TRLEN, FAULT_LAYER, FAULT_ALG, RESULT or TRACE (R71, R347, R348; decision D25, log entry 18). -/
def Obligations.InputsFrozenDuringRun : Prop :=
  ∀ (n v i j : Nat) (c : Chr) (s : State), runInProgress s = true →
    (n ≤ 9 → regWrite n v s = .next s) ∧ textWrite i c s = s ∧ headerWrite i c s = s ∧ klenWrite i v s = s ∧
    keyWrite i j c s = s ∧ regRead 1 s = .next 1 ∧ regRead 5 s = .refused .outputHoldsNoValue ∧
    regRead 6 s = .refused .outputHoldsNoValue ∧ regRead 7 s = .next 0 ∧ regRead 8 s = .refused .outputHoldsNoValue ∧
    regRead 9 s = .refused .outputHoldsNoValue ∧ resultRead i s = .refused .outputHoldsNoValue ∧
    traceRead i s = .refused .outputHoldsNoValue

/-- A host write of an element of TEXT_IN, or of the header, KLEN or a key element of LAYER[i], changes that element and
nothing else of the state, and the written buffers stay canonical (R60, R66; the canonical form: log entry 8). -/
def Obligations.HostBufferWrites : Prop :=
  ∀ (i j n : Nat) (c : Chr) (s : State), runInProgress s = false →
    let e := layerEntry s.layers i
    (memRead (textWrite i c s).textIn i = some c ∧
      (∀ a, a ≠ i → memRead (textWrite i c s).textIn a = memRead s.textIn a) ∧
      textWrite i c s = { s with textIn := (textWrite i c s).textIn }) ∧
    (layerEntry (headerWrite i c s).layers i = { e with header := some c } ∧
      (∀ a, a ≠ i → layerEntry (headerWrite i c s).layers a = layerEntry s.layers a) ∧
      headerWrite i c s = { s with layers := (headerWrite i c s).layers }) ∧
    (layerEntry (klenWrite i n s).layers i = { e with klen := some n } ∧
      (∀ a, a ≠ i → layerEntry (klenWrite i n s).layers a = layerEntry s.layers a) ∧
      klenWrite i n s = { s with layers := (klenWrite i n s).layers }) ∧
    (∃ k, layerEntry (keyWrite i j c s).layers i = { e with key := k } ∧ memRead k j = some c ∧
      (∀ a, a ≠ j → memRead k a = memRead e.key a) ∧
      (∀ a, a ≠ i → layerEntry (keyWrite i j c s).layers a = layerEntry s.layers a) ∧
      keyWrite i j c s = { s with layers := (keyWrite i j c s).layers }) ∧
    (s.memoryWf → (textWrite i c s).memoryWf ∧ (headerWrite i c s).memoryWf ∧ (klenWrite i n s).memoryWf ∧
      (keyWrite i j c s).memoryWf)
end

