-- ==== Sys2Proof/Laws/Bvu.lean ====
section
/-! SUPPORT. What the four BVU functions answer (spec/40_bitvector.md R121 to R125). -/

namespace Sys2Proof.Machine

/-- No bad entry: every entry is within `[1, n]`. -/
theorem firstBadEntry_eq_none {n i : Nat} {t : List Int} :
    firstBadEntry n i t = none ↔ ∀ e ∈ t, 1 ≤ e ∧ e ≤ (n : Int) := by
  induction t generalizing i with
  | nil => simp [firstBadEntry]
  | cons e t ih =>
    unfold firstBadEntry
    split
    · simp only [List.forall_mem_cons, reduceCtorEq, false_iff]
      omega
    · simp only [List.forall_mem_cons, ih]
      exact ⟨fun h => ⟨by omega, h⟩, fun h => h.2⟩

/-- A bad entry: it is the lowest one. -/
theorem firstBadEntry_eq_some {n i p : Nat} {t : List Int} {e : Int} (h : firstBadEntry n i t = some (p, e)) :
    ∃ j, p = i + j ∧ t[j]? = some e ∧ (e < 1 ∨ (n : Int) < e) ∧ ∀ k < j, ∀ x, t[k]? = some x → 1 ≤ x ∧ x ≤ (n : Int) := by
  induction t generalizing i with
  | nil => simp [firstBadEntry] at h
  | cons x t ih =>
    unfold firstBadEntry at h
    split at h
    · obtain ⟨rfl, rfl⟩ : i = p ∧ x = e := by simpa using h
      exact ⟨0, rfl, rfl, ‹_›, by simp⟩
    · next hx =>
      obtain ⟨j, rfl, hj, he, hk⟩ := ih h
      refine ⟨j + 1, by omega, by simpa using hj, he, fun k hk' y hy => ?_⟩
      cases k with
      | zero =>
        obtain rfl : x = y := by simpa using hy
        omega
      | succ k => exact hk k (by omega) y (by simpa using hy)

/-- PERMUTE answers when every entry is in range. -/
theorem permute_ok {bits : Bits} {t : List Int} (h : ∀ e ∈ t, 1 ≤ e ∧ e ≤ (bits.length : Int)) :
    permute bits t = .ok (t.map fun e => bits.getD (e - 1).toNat false) := by
  simp [permute, firstBadEntry_eq_none.2 h]

/-- A result of PERMUTE has the table's length. -/
theorem permute_length {bits v : Bits} {t : List Int} (h : permute bits t = .ok v) : v.length = t.length := by
  unfold permute at h
  split at h
  · exact absurd h (by simp)
  · cases h
    simp

theorem rotl_ok {bits : Bits} (h : bits ≠ []) : rotl bits = .ok (bits.tail ++ [bits.head h]) := by
  cases bits with
  | nil => exact absurd rfl h
  | cons b t => rfl

theorem rotl_length {bits v : Bits} (h : rotl bits = .ok v) : v.length = bits.length := by
  cases bits with
  | nil => simp [rotl] at h
  | cons b t =>
    cases h
    simp

theorem xorBits_ok {a b : Bits} (h : a.length = b.length) : xorBits a b = .ok (List.zipWith Bool.xor a b) := by
  simp [xorBits, h]

theorem xorBits_length {a b v : Bits} (h : xorBits a b = .ok v) : v.length = a.length ∧ v.length = b.length := by
  unfold xorBits at h
  split at h
  · next hl =>
    cases h
    simp [hl]
  · exact absurd h (by simp)

/-- SBOX answers two bits on four. -/
theorem sboxLookup_ok {b : Bits} (t : SBoxTable) (h : b.length = 4) :
    sboxLookup b t =
      .ok (bin2 (boxEntry t (num2 (b.getD 0 false) (b.getD 3 false)) (num2 (b.getD 1 false) (b.getD 2 false))).val) := by
  match b, h with
  | [_, _, _, _], _ => rfl

theorem sboxLookup_length {b v : Bits} {t : SBoxTable} (h : sboxLookup b t = .ok v) : v.length = 2 := by
  unfold sboxLookup at h
  split at h
  · cases h
    rfl
  · exact absurd h (by simp)

end Sys2Proof.Machine
end

