-- ==== Sys2Proof/Laws/Memory.lean ====
section
/-! SUPPORT. Laws of sparse buffers: a read after a write, the canonical form, and a buffer that holds a text. -/

namespace Sys2Proof.Machine

variable {α : Type}

@[simp] theorem cellsRead_nil (i : Nat) : cellsRead ([] : Cells α) i = none := rfl

theorem cellsRising_mono {low low' : Nat} {m : Cells α} (h : low' ≤ low) (hm : cellsRising low m) :
    cellsRising low' m := by
  cases m with
  | nil => rfl
  | cons c m =>
    simp only [cellsRising, Bool.and_eq_true, decide_eq_true_eq] at hm ⊢
    exact ⟨h.trans hm.1, hm.2⟩

/-- Below its lowest index a buffer in canonical form holds nothing. -/
theorem cellsRead_below {low i : Nat} {m : Cells α} (hm : cellsRising low m) (h : i < low) : cellsRead m i = none := by
  induction m generalizing low with
  | nil => rfl
  | cons c m ih =>
    simp only [cellsRising, Bool.and_eq_true, decide_eq_true_eq] at hm
    rw [cellsRead, if_neg (by omega)]
    exact ih hm.2 (by omega)

@[simp] theorem cellsRead_write_same (m : Cells α) (i : Nat) (v : α) : cellsRead (cellsWrite m i v) i = some v := by
  induction m with
  | nil => simp [cellsWrite, cellsRead]
  | cons c m ih =>
    unfold cellsWrite
    split
    · simp [cellsRead]
    · split
      · simp [cellsRead]
      · rw [cellsRead, if_neg (by omega), ih]

theorem cellsRead_write_other (m : Cells α) {i j : Nat} (v : α) (h : i ≠ j) :
    cellsRead (cellsWrite m i v) j = cellsRead m j := by
  induction m with
  | nil => simp [cellsWrite, cellsRead, h]
  | cons c m ih =>
    unfold cellsWrite
    split
    · simp [cellsRead, h]
    · split
      · next hc => simp [cellsRead, h, ← hc]
      · rw [cellsRead, cellsRead, ih]

/-- A write keeps the canonical form. -/
theorem cellsRising_write {low i : Nat} {m : Cells α} (v : α) (hm : cellsRising low m) (h : low ≤ i) :
    cellsRising low (cellsWrite m i v) := by
  induction m generalizing low with
  | nil => simpa [cellsWrite, cellsRising] using h
  | cons c m ih =>
    simp only [cellsRising, Bool.and_eq_true, decide_eq_true_eq] at hm
    unfold cellsWrite
    split
    · simp only [cellsRising, Bool.and_eq_true, decide_eq_true_eq]
      exact ⟨h, by omega, hm.2⟩
    · split
      · next hc =>
        simp only [cellsRising, Bool.and_eq_true, decide_eq_true_eq]
        exact ⟨h, hc ▸ hm.2⟩
      · simp only [cellsRising, Bool.and_eq_true, decide_eq_true_eq]
        exact ⟨hm.1, ih hm.2 (by omega)⟩

/-- Every cell of a written buffer was there before or is the one written. -/
theorem mem_cellsWrite {m : Cells α} {i : Nat} {v : α} {e : Nat × α} (h : e ∈ cellsWrite m i v) :
    e = (i, v) ∨ e ∈ m := by
  induction m with
  | nil => simpa [cellsWrite] using h
  | cons c m ih =>
    unfold cellsWrite at h
    split at h
    · simpa using h
    · split at h
      · rcases List.mem_cons.1 h with h | h
        · exact .inl h
        · exact .inr (List.mem_cons_of_mem _ h)
      · rcases List.mem_cons.1 h with h | h
        · exact .inr (h ▸ List.mem_cons_self)
        · exact (ih h).imp_right (List.mem_cons_of_mem _)

theorem memWrite_wf {m : Memory} (i : Nat) (c : Chr) (h : Memory.wf m) : Memory.wf (memWrite m i c) :=
  cellsRising_write c h (Nat.zero_le _)

theorem memOfTextFrom_rising (i : Nat) (t : Text) : cellsRising i (memOfTextFrom i t) := by
  induction t generalizing i with
  | nil => rfl
  | cons c t ih => simpa [memOfTextFrom, cellsRising] using ih (i + 1)

theorem memOfText_wf (t : Text) : Memory.wf (memOfText t) := memOfTextFrom_rising 0 t

theorem memRead_ofTextFrom (i j : Nat) (t : Text) : memRead (memOfTextFrom i t) (i + j) = t[j]? := by
  induction t generalizing i j with
  | nil => rfl
  | cons c t ih =>
    cases j with
    | zero => simp [memOfTextFrom, memRead, cellsRead]
    | succ j =>
      have := ih (i + 1) j
      simp only [memOfTextFrom, memRead, cellsRead, List.getElem?_cons_succ] at this ⊢
      rw [if_neg (by omega), show i + (j + 1) = i + 1 + j by omega, this]

/-- A buffer made from a text holds exactly its characters. -/
@[simp] theorem memRead_ofText (t : Text) (j : Nat) : memRead (memOfText t) j = t[j]? := by
  simpa [memOfText] using memRead_ofTextFrom 0 j t

/-- `memReadFrom` depends on the elements it reads only. -/
theorem memReadFrom_congr {m m' : Memory} {i n : Nat} (h : ∀ j, i ≤ j → j < i + n → memRead m j = memRead m' j) :
    memReadFrom m i n = memReadFrom m' i n := by
  induction n generalizing i with
  | zero => rfl
  | succ n ih =>
    rw [memReadFrom, memReadFrom, h i le_rfl (by omega), ih fun j hj hj' => h j (by omega) (by omega)]

theorem memReadFrom_length {m : Memory} {i n : Nat} {t : Text} (h : memReadFrom m i n = some t) : t.length = n := by
  induction n generalizing i t with
  | zero => simpa [memReadFrom] using h.symm
  | succ n ih =>
    rw [memReadFrom] at h
    split at h
    · obtain ⟨u, hu, rfl⟩ := Option.map_eq_some_iff.1 h
      simp [ih hu]
    · exact absurd h (by simp)

theorem memReadText_length {m : Memory} {n : Nat} {t : Text} (h : memReadText m n = some t) : t.length = n :=
  memReadFrom_length h

theorem memReadFrom_ofText (t u : Text) (i : Nat) (h : ∀ j, j < u.length → t[i + j]? = u[j]?) :
    memReadFrom (memOfText t) i u.length = some u := by
  induction u generalizing i with
  | nil => rfl
  | cons c u ih =>
    have hc : memRead (memOfText t) i = some c := by simpa using h 0 (by simp)
    simp only [List.length_cons, memReadFrom, hc]
    rw [ih (i + 1) fun j hj => by simpa [show i + 1 + j = i + (j + 1) by omega] using h (j + 1) (by simpa using hj)]
    rfl

/-- Reading back a buffer made from a text gives the text. -/
@[simp] theorem memReadText_ofText (t : Text) : memReadText (memOfText t) t.length = some t :=
  memReadFrom_ofText t t 0 (by simp)

end Sys2Proof.Machine
end

