-- ==== Sys2Proof/Laws/Decode.lean ====
section
/-! SUPPORT. A Layer word with its whole key always decodes, and so does every descriptor the sequencer fetches. -/

namespace Sys2Proof.Machine

/-- A descriptor with KLEN characters of key decodes to the Layer operation of its ALG field (R92, R98). -/
theorem decodeLayer_ok {h : BitVec 8} {n : Nat} {key : Text} (hn : n ≤ key.length) :
    decode (.layer h n key) = .ok (Instr.ofLayer (algOfCode (algField h)) (key.take n)) := by
  simp only [decode, decodeLayer, hn, if_true]
  split
  · next ha => rw [ha, Instr.ofLayer]
  · rfl

/-- A descriptor read from the Layer table is a Layer word with its whole key. -/
theorem readDescriptor_some {t : Cells LayerEntry} {i : Nat} {w : Word} (h : readDescriptor t i = some w) :
    ∃ hd n key, w = .layer hd n key ∧ n ≤ key.length := by
  unfold readDescriptor at h
  simp only at h
  split at h
  · exact absurd h (by simp)
  · next hd _ =>
    split at h
    · cases h
      exact ⟨hd, 0, [], rfl, le_rfl⟩
    · split at h
      · exact absurd h (by simp)
      · next n _ =>
        obtain ⟨k, hk, rfl⟩ := Option.map_eq_some_iff.1 h
        exact ⟨hd, n, k, rfl, (memReadText_length hk).ge⟩

end Sys2Proof.Machine
end

