-- ==== Sys2Proof/Laws/State.lean ====
section
/-! SUPPORT. One lemma per field of State for each named update of a run: what the field holds after it. -/

namespace Sys2Proof.Machine

/-! ### layerDone: a layer that completes -/

@[simp] theorem layerDone_start (out : Text) (s : State) : (layerDone out s).start = s.start := rfl
@[simp] theorem layerDone_status (out : Text) (s : State) : (layerDone out s).status = s.status := rfl
@[simp] theorem layerDone_dir (out : Text) (s : State) : (layerDone out s).dir = s.dir := rfl
@[simp] theorem layerDone_nlayers (out : Text) (s : State) : (layerDone out s).nlayers = s.nlayers := rfl
@[simp] theorem layerDone_tlen (out : Text) (s : State) : (layerDone out s).tlen = s.tlen := rfl
@[simp] theorem layerDone_rlen (out : Text) (s : State) : (layerDone out s).rlen = s.rlen := rfl
@[simp] theorem layerDone_trlen (out : Text) (s : State) : (layerDone out s).trlen = s.trlen := rfl
@[simp] theorem layerDone_faultCause (out : Text) (s : State) : (layerDone out s).faultCause = s.faultCause := rfl
@[simp] theorem layerDone_faultLayer (out : Text) (s : State) : (layerDone out s).faultLayer = s.faultLayer := rfl
@[simp] theorem layerDone_faultAlg (out : Text) (s : State) : (layerDone out s).faultAlg = s.faultAlg := rfl
@[simp] theorem layerDone_textIn (out : Text) (s : State) : (layerDone out s).textIn = s.textIn := rfl
@[simp] theorem layerDone_layers (out : Text) (s : State) : (layerDone out s).layers = s.layers := rfl
@[simp] theorem layerDone_result (out : Text) (s : State) : (layerDone out s).result = s.result := rfl
@[simp] theorem layerDone_traceBuf (out : Text) (s : State) : (layerDone out s).traceBuf = s.traceBuf := rfl
@[simp] theorem layerDone_w (out : Text) (s : State) : (layerDone out s).w = out := rfl
@[simp] theorem layerDone_lp (out : Text) (s : State) : (layerDone out s).lp = s.lp + 1 := rfl
@[simp] theorem layerDone_traceAcc (out : Text) (s : State) : (layerDone out s).traceAcc = s.traceAcc := rfl
@[simp] theorem layerDone_eng (out : Text) (s : State) : (layerDone out s).eng = s.eng := rfl
@[simp] theorem layerDone_sdes (out : Text) (s : State) : (layerDone out s).sdes = s.sdes := rfl
@[simp] theorem layerDone_bvu (out : Text) (s : State) : (layerDone out s).bvu = s.bvu := rfl
@[simp] theorem layerDone_issue (out : Text) (s : State) : (layerDone out s).issue = s.issue := rfl
@[simp] theorem layerDone_cfg (out : Text) (s : State) : (layerDone out s).cfg = s.cfg := rfl

/-! ### takeFault: fault entry -/

@[simp] theorem takeFault_start (k : FaultKind) (alg : Alg) (s : State) : (takeFault k alg s).start = s.start := rfl
@[simp] theorem takeFault_status (k : FaultKind) (alg : Alg) (s : State) : (takeFault k alg s).status = .fault := rfl
@[simp] theorem takeFault_dir (k : FaultKind) (alg : Alg) (s : State) : (takeFault k alg s).dir = s.dir := rfl
@[simp] theorem takeFault_nlayers (k : FaultKind) (alg : Alg) (s : State) : (takeFault k alg s).nlayers = s.nlayers := rfl
@[simp] theorem takeFault_tlen (k : FaultKind) (alg : Alg) (s : State) : (takeFault k alg s).tlen = s.tlen := rfl
@[simp] theorem takeFault_rlen (k : FaultKind) (alg : Alg) (s : State) : (takeFault k alg s).rlen = s.rlen := rfl
@[simp] theorem takeFault_trlen (k : FaultKind) (alg : Alg) (s : State) : (takeFault k alg s).trlen = s.trlen := rfl
@[simp] theorem takeFault_faultCause (k : FaultKind) (alg : Alg) (s : State) : (takeFault k alg s).faultCause = causeCode k := rfl
@[simp] theorem takeFault_faultLayer (k : FaultKind) (alg : Alg) (s : State) : (takeFault k alg s).faultLayer = layerIndex s := rfl
@[simp] theorem takeFault_faultAlg (k : FaultKind) (alg : Alg) (s : State) : (takeFault k alg s).faultAlg = algCode alg := rfl
@[simp] theorem takeFault_textIn (k : FaultKind) (alg : Alg) (s : State) : (takeFault k alg s).textIn = s.textIn := rfl
@[simp] theorem takeFault_layers (k : FaultKind) (alg : Alg) (s : State) : (takeFault k alg s).layers = s.layers := rfl
@[simp] theorem takeFault_result (k : FaultKind) (alg : Alg) (s : State) : (takeFault k alg s).result = s.result := rfl
@[simp] theorem takeFault_traceBuf (k : FaultKind) (alg : Alg) (s : State) : (takeFault k alg s).traceBuf = s.traceBuf := rfl
@[simp] theorem takeFault_w (k : FaultKind) (alg : Alg) (s : State) : (takeFault k alg s).w = s.w := rfl
@[simp] theorem takeFault_lp (k : FaultKind) (alg : Alg) (s : State) : (takeFault k alg s).lp = s.lp := rfl
@[simp] theorem takeFault_traceAcc (k : FaultKind) (alg : Alg) (s : State) : (takeFault k alg s).traceAcc = s.traceAcc := rfl
@[simp] theorem takeFault_eng (k : FaultKind) (alg : Alg) (s : State) : (takeFault k alg s).eng = s.eng := rfl
@[simp] theorem takeFault_sdes (k : FaultKind) (alg : Alg) (s : State) : (takeFault k alg s).sdes = s.sdes := rfl
@[simp] theorem takeFault_bvu (k : FaultKind) (alg : Alg) (s : State) : (takeFault k alg s).bvu = s.bvu := rfl
@[simp] theorem takeFault_issue (k : FaultKind) (alg : Alg) (s : State) : (takeFault k alg s).issue = s.issue := rfl
@[simp] theorem takeFault_cfg (k : FaultKind) (alg : Alg) (s : State) : (takeFault k alg s).cfg = s.cfg := rfl

/-! ### beginRun: the start of a run -/

@[simp] theorem beginRun_start (text : Text) (s : State) : (beginRun text s).start = false := rfl
@[simp] theorem beginRun_status (text : Text) (s : State) : (beginRun text s).status = .busy := rfl
@[simp] theorem beginRun_dir (text : Text) (s : State) : (beginRun text s).dir = s.dir := rfl
@[simp] theorem beginRun_nlayers (text : Text) (s : State) : (beginRun text s).nlayers = s.nlayers := rfl
@[simp] theorem beginRun_tlen (text : Text) (s : State) : (beginRun text s).tlen = s.tlen := rfl
@[simp] theorem beginRun_rlen (text : Text) (s : State) : (beginRun text s).rlen = s.rlen := rfl
@[simp] theorem beginRun_trlen (text : Text) (s : State) : (beginRun text s).trlen = s.trlen := rfl
@[simp] theorem beginRun_faultCause (text : Text) (s : State) : (beginRun text s).faultCause = 0#3 := rfl
@[simp] theorem beginRun_faultLayer (text : Text) (s : State) : (beginRun text s).faultLayer = 0 := rfl
@[simp] theorem beginRun_faultAlg (text : Text) (s : State) : (beginRun text s).faultAlg = 0#3 := rfl
@[simp] theorem beginRun_textIn (text : Text) (s : State) : (beginRun text s).textIn = s.textIn := rfl
@[simp] theorem beginRun_layers (text : Text) (s : State) : (beginRun text s).layers = s.layers := rfl
@[simp] theorem beginRun_result (text : Text) (s : State) : (beginRun text s).result = s.result := rfl
@[simp] theorem beginRun_traceBuf (text : Text) (s : State) : (beginRun text s).traceBuf = s.traceBuf := rfl
@[simp] theorem beginRun_w (text : Text) (s : State) : (beginRun text s).w = text := rfl
@[simp] theorem beginRun_lp (text : Text) (s : State) : (beginRun text s).lp = 0 := rfl
@[simp] theorem beginRun_traceAcc (text : Text) (s : State) : (beginRun text s).traceAcc = [] := rfl
@[simp] theorem beginRun_eng (text : Text) (s : State) : (beginRun text s).eng = s.eng := rfl
@[simp] theorem beginRun_sdes (text : Text) (s : State) : (beginRun text s).sdes = s.sdes := rfl
@[simp] theorem beginRun_bvu (text : Text) (s : State) : (beginRun text s).bvu = s.bvu := rfl
@[simp] theorem beginRun_issue (text : Text) (s : State) : (beginRun text s).issue = s.issue := rfl
@[simp] theorem beginRun_cfg (text : Text) (s : State) : (beginRun text s).cfg = s.cfg := rfl

/-! ### finishRun: the end of a run -/

@[simp] theorem finishRun_start (s : State) : (finishRun s).start = s.start := rfl
@[simp] theorem finishRun_status (s : State) : (finishRun s).status = .done := rfl
@[simp] theorem finishRun_dir (s : State) : (finishRun s).dir = s.dir := rfl
@[simp] theorem finishRun_nlayers (s : State) : (finishRun s).nlayers = s.nlayers := rfl
@[simp] theorem finishRun_tlen (s : State) : (finishRun s).tlen = s.tlen := rfl
@[simp] theorem finishRun_rlen (s : State) : (finishRun s).rlen = s.w.length := rfl
@[simp] theorem finishRun_trlen (s : State) : (finishRun s).trlen = (renderAll s.traceAcc).length := rfl
@[simp] theorem finishRun_faultCause (s : State) : (finishRun s).faultCause = s.faultCause := rfl
@[simp] theorem finishRun_faultLayer (s : State) : (finishRun s).faultLayer = s.faultLayer := rfl
@[simp] theorem finishRun_faultAlg (s : State) : (finishRun s).faultAlg = s.faultAlg := rfl
@[simp] theorem finishRun_textIn (s : State) : (finishRun s).textIn = s.textIn := rfl
@[simp] theorem finishRun_layers (s : State) : (finishRun s).layers = s.layers := rfl
@[simp] theorem finishRun_result (s : State) : (finishRun s).result = memOfText s.w := rfl
@[simp] theorem finishRun_traceBuf (s : State) : (finishRun s).traceBuf = memOfText (renderAll s.traceAcc) := rfl
@[simp] theorem finishRun_w (s : State) : (finishRun s).w = s.w := rfl
@[simp] theorem finishRun_lp (s : State) : (finishRun s).lp = s.lp := rfl
@[simp] theorem finishRun_traceAcc (s : State) : (finishRun s).traceAcc = s.traceAcc := rfl
@[simp] theorem finishRun_eng (s : State) : (finishRun s).eng = s.eng := rfl
@[simp] theorem finishRun_sdes (s : State) : (finishRun s).sdes = s.sdes := rfl
@[simp] theorem finishRun_bvu (s : State) : (finishRun s).bvu = s.bvu := rfl
@[simp] theorem finishRun_issue (s : State) : (finishRun s).issue = s.issue := rfl
@[simp] theorem finishRun_cfg (s : State) : (finishRun s).cfg = s.cfg := rfl

end Sys2Proof.Machine
end

