-- ==== Sys2Proof/Laws/Dispatch.lean ====
section
/-! SUPPORT. What an operation can do, said once: a Layer operation, an internal operation, a layer of a run, the loop of a
run, and a step. Later proofs cite these and do not unfold `exec`, `execRun` or `step`. -/

namespace Sys2Proof.Machine

/-- A stop that answers a next state has taken a fault. -/
theorem stopped_next {alg : Alg} {e : Stop} {s t : State} (h : stopped alg e s = .next t) :
    ∃ k, e = .raised k ∧ t = takeFault k alg s := by
  cases e with
  | raised k =>
    cases h
    exact ⟨k, rfl, rfl⟩
  | refused r => exact absurd h (by simp [stopped])

theorem stopped_not_fault {alg : Alg} {e : Stop} {s : State} {r : Fault} : stopped alg e s ≠ .fault r := by
  cases e <;> simp [stopped]

/-- The dispatch of the sequencer is `exec` on the layer's instruction. -/
theorem exec_ofLayer (alg : Alg) (key : Text) (s : State) : exec (Instr.ofLayer alg key) s = dispatchLayer alg key s := by
  cases alg <;> rfl

/-- A Layer instruction is the one its algorithm and key make. -/
theorem ofLayer_of_layer? {i : Instr} {alg : Alg} {key : Text} (h : i.layer? = some (alg, key)) :
    i = Instr.ofLayer alg key := by
  cases i <;> simp [Instr.layer?] at h <;> obtain ⟨rfl, rfl⟩ := h <;> rfl

/-- A Layer operation that answers completes its layer or takes a fault under its own algorithm. -/
theorem dispatchLayer_next {alg : Alg} {key : Text} {s t : State} (h : dispatchLayer alg key s = .next t) :
    (∃ out eng sdes tr, t = layerDone out { s with eng := eng, sdes := sdes, traceAcc := s.traceAcc ++ tr }) ∨
      ∃ k, t = takeFault k alg s := by
  have done : ∀ out eng sdes, (∃ out' eng' sdes' tr, layerDone out { s with eng := eng, sdes := sdes } =
      layerDone out' { s with eng := eng', sdes := sdes', traceAcc := s.traceAcc ++ tr }) :=
    fun out eng sdes => ⟨out, eng, sdes, [], by simp [layerDone]⟩
  cases alg with
  | skip =>
    cases h
    exact .inl (done s.w s.eng s.sdes)
  | caesar =>
    simp only [dispatchLayer, execCaesar] at h
    split at h
    · cases h
      exact .inl (done _ _ s.sdes)
    · obtain ⟨k, -, rfl⟩ := stopped_next h
      exact .inr ⟨k, rfl⟩
  | mono =>
    simp only [dispatchLayer, execMono] at h
    split at h
    · cases h
      exact .inl (done _ _ s.sdes)
    · obtain ⟨k, -, rfl⟩ := stopped_next h
      exact .inr ⟨k, rfl⟩
  | vigenere =>
    simp only [dispatchLayer, execVigenere] at h
    split at h
    · cases h
      exact .inl (done _ _ s.sdes)
    · obtain ⟨k, -, rfl⟩ := stopped_next h
      exact .inr ⟨k, rfl⟩
  | railfence =>
    simp only [dispatchLayer, execRailfence] at h
    split at h
    · cases h
      exact .inl (done _ _ s.sdes)
    · obtain ⟨k, -, rfl⟩ := stopped_next h
      exact .inr ⟨k, rfl⟩
  | rowcol =>
    simp only [dispatchLayer, execRowcol] at h
    split at h
    · cases h
      exact .inl (done _ _ s.sdes)
    · obtain ⟨k, -, rfl⟩ := stopped_next h
      exact .inr ⟨k, rfl⟩
  | des =>
    simp only [dispatchLayer, execDes] at h
    split at h
    · cases h
      exact .inl ⟨_, s.eng, _, _, rfl⟩
    · obtain ⟨k, -, rfl⟩ := stopped_next h
      exact .inr ⟨k, rfl⟩
  | playfair =>
    simp only [dispatchLayer, execPlayfair] at h
    split at h
    · cases h
      exact .inl (done _ _ s.sdes)
    · obtain ⟨k, -, rfl⟩ := stopped_next h
      exact .inr ⟨k, rfl⟩

/-- An internal operation that answers changes only the S-DES registers and the BVU's result port, or takes a fault of the
DES layer. -/
theorem exec_internal_next {i : Instr} {s t : State} (hl : i.layer? = none) (hr : i ≠ .run) (h : exec i s = .next t) :
    (∃ sdes out, t = { s with sdes := sdes, bvu := { s.bvu with out := out } }) ∨ ∃ k, t = takeFault k .des s := by
  have bvu : ∀ r, bvuResult s r = .next t →
      (∃ sdes out, t = { s with sdes := sdes, bvu := { s.bvu with out := out } }) ∨ ∃ k, t = takeFault k .des s := by
    intro r h
    unfold bvuResult at h
    split at h
    · cases h
      exact .inl ⟨s.sdes, _, rfl⟩
    · obtain ⟨k, -, rfl⟩ := stopped_next h
      exact .inr ⟨k, rfl⟩
  have sdes : ∀ r, sdesResult s r = .next t →
      (∃ sdes out, t = { s with sdes := sdes, bvu := { s.bvu with out := out } }) ∨ ∃ k, t = takeFault k .des s := by
    intro r h
    unfold sdesResult at h
    split at h
    · cases h
      exact .inl ⟨_, s.bvu.out, rfl⟩
    · obtain ⟨k, -, rfl⟩ := stopped_next h
      exact .inr ⟨k, rfl⟩
  cases i with
  | skip => simp [Instr.layer?] at hl
  | caesar _ => simp [Instr.layer?] at hl
  | mono _ => simp [Instr.layer?] at hl
  | vigenere _ => simp [Instr.layer?] at hl
  | railfence _ => simp [Instr.layer?] at hl
  | rowcol _ => simp [Instr.layer?] at hl
  | des _ => simp [Instr.layer?] at hl
  | playfair _ => simp [Instr.layer?] at hl
  | permute _ => exact bvu _ h
  | rotl => exact bvu _ h
  | xor => exact bvu _ h
  | sbox _ => exact bvu _ h
  | keysched => exact sdes _ h
  | fk _ => exact sdes _ h
  | block => exact sdes _ h
  | run => exact absurd rfl hr

/-- A layer of a run that answers completes or takes a fault of that layer. -/
theorem runLayer_next {s t : State} (h : runLayer s = .next t) :
    ∃ alg key, (fetchLayer s).bind layerOfWord = some (alg, key) ∧ dispatchLayer alg key s = .next t := by
  unfold runLayer at h
  split at h
  · exact ⟨_, _, ‹_›, h⟩
  · exact absurd h (by simp)

/-- A property that every layer of a run and the end of the run keep holds of the state the loop answers. -/
theorem continueRun_induct {P : State → Prop} (hlayer : ∀ s t, s.status = .busy → P s → runLayer s = .next t → P t)
    (hfinish : ∀ s, s.status = .busy → P s → P (finishRun s)) {fuel : Nat} {s t : State} (hs : P s)
    (h : continueRun fuel s = .next t) : P t := by
  induction fuel generalizing s with
  | zero =>
    cases h
    exact hs
  | succ n ih =>
    unfold continueRun at h
    split at h
    · next hb =>
      split at h
      · split at h
        · next u hu => exact ih (hlayer s u hb hs hu) h
        · exact absurd h (by simp)
        · exact absurd h (by simp)
      · cases h
        exact hfinish s hb hs
    · cases h
      exact hs

/-- RUN that answers is an ignored START or the loop from the start of the run. -/
theorem execRun_next {s t : State} (h : execRun s = .next t) :
    (s.status = .busy ∧ t = { s with start := false }) ∨
      (s.status ≠ .busy ∧ ∃ text, memReadText s.textIn s.tlen = some text ∧
        continueRun (s.nlayers + 1) (beginRun text s) = .next t) := by
  unfold execRun at h
  split at h
  · next hb =>
    cases h
    exact .inl ⟨hb, rfl⟩
  · next hb =>
    split at h
    · next hi =>
      simp only [inputsWritten, Bool.and_eq_true, Option.isSome_iff_exists] at hi
      obtain ⟨⟨text, ht⟩, -⟩ := hi
      exact .inr ⟨hb, text, ht, by simpa [ht] using h⟩
    · exact absurd h (by simp)

/-- What a step that answers did. -/
theorem step_next {s t : State} (h : step s = .next t) :
    (fetch s = .idle ∧ t = s) ∨ (fetch s = .endOfRun ∧ t = finishRun s) ∨
      ∃ w u i, fetch s = .word w u ∧ decode w = .ok i ∧ exec i u = .next t := by
  unfold step at h
  split at h
  · next hf =>
    cases h
    exact .inl ⟨hf, rfl⟩
  · next hf =>
    cases h
    exact .inr (.inl ⟨hf, rfl⟩)
  · exact absurd h (by simp)
  · next w u hf =>
    split at h
    · next i hi => exact .inr (.inr ⟨w, u, i, hf, hi, h⟩)
    · exact absurd h (by simp)

end Sys2Proof.Machine
end

