-- ==== Sys2Proof/Laws/Operands.lean ====
section
/-! SUPPORT. What the key decoders read (spec/30_encoding.md R94 to R96). -/

namespace Sys2Proof.Machine

/-- A shown bit vector reads back (R96). -/
theorem parseBits_showBits (v : Bits) : parseBits (showBits v) = some v := by
  induction v with
  | nil => rfl
  | cons b v ih => cases b <;> simp [showBits, parseBits, isSpace, bitNat] <;> simpa [showBits, bitNat] using ih

/-- `parseDigits` reads one or more digits and nothing else (R94). -/
theorem parseDigits_eq_some (d : Text) (n : Nat) : parseDigits d = some n ↔
    d ≠ [] ∧ (∀ c ∈ d, 0x30 ≤ c.toNat ∧ c.toNat ≤ 0x39) ∧ n = digitsValue d := by
  unfold parseDigits
  constructor
  · intro h
    split at h
    · next h' => exact ⟨h'.1, fun c hc => by simpa [isDigit] using List.all_eq_true.1 h'.2 c hc, by simpa using h.symm⟩
    · cases h
  · rintro ⟨h1, h2, rfl⟩
    rw [if_pos ⟨h1, List.all_eq_true.2 fun c hc => by simpa [isDigit] using h2 c hc⟩]

end Sys2Proof.Machine
end

