-- ==== Sys2Proof/Laws/Order.lean ====
section
/-! SUPPORT. Reading and writing a text in a visiting order that is a permutation of its positions: the two are inverse.
RAILFENCE and ROWCOL rest on these laws. -/

namespace Sys2Proof.Machine

@[simp] theorem gather_length (p : List Nat) (w : Text) : (gather p w).length = p.length := by simp [gather]

/-- The writes of `scatter` from any start keep the length. -/
theorem foldl_set_length (l : List (Nat × Chr)) (out : Text) :
    (l.foldl (fun out ic => out.set ic.1 ic.2) out).length = out.length := by
  induction l generalizing out with
  | nil => rfl
  | cons a l ih => simp [ih]

@[simp] theorem scatter_length (p : List Nat) (w : Text) : (scatter p w).length = w.length := by
  simp [scatter, foldl_set_length]

/-- An element no write reaches is as it was. -/
theorem foldl_set_get_other (l : List (Nat × Chr)) (out : Text) (i : Nat) (h : ∀ ic ∈ l, ic.1 ≠ i) :
    (l.foldl (fun out ic => out.set ic.1 ic.2) out)[i]? = out[i]? := by
  induction l generalizing out with
  | nil => rfl
  | cons a l ih =>
    rw [List.foldl_cons, ih _ fun ic hic => h ic (List.mem_cons_of_mem _ hic),
      List.getElem?_set_ne (h a List.mem_cons_self)]

/-- With distinct positions, position `p[j]` holds the `j`-th character written. -/
theorem foldl_set_get (p : List Nat) (w out : Text) (hp : p.Nodup) {j : Nat} {i : Nat} {c : Chr}
    (hi : p[j]? = some i) (hc : w[j]? = some c) (hb : i < out.length) :
    ((p.zip w).foldl (fun out ic => out.set ic.1 ic.2) out)[i]? = some c := by
  induction p generalizing w out j with
  | nil => simp at hi
  | cons a p ih =>
    cases w with
    | nil => simp at hc
    | cons x w =>
      rw [List.nodup_cons] at hp
      cases j with
      | zero =>
        obtain rfl : a = i := by simpa using hi
        obtain rfl : x = c := by simpa using hc
        rw [List.zip_cons_cons, List.foldl_cons, foldl_set_get_other, List.getElem?_set_self hb]
        intro ic hic h
        exact hp.1 (h ▸ (List.of_mem_zip hic).1)
      | succ j =>
        rw [List.zip_cons_cons, List.foldl_cons]
        exact ih w _ hp.2 (by simpa using hi) (by simpa using hc) (by simpa using hb)

theorem scatter_get {p : List Nat} {w : Text} (hp : p.Perm (List.range w.length)) {j i : Nat} {c : Chr}
    (hi : p[j]? = some i) (hc : w[j]? = some c) : (scatter p w)[i]? = some c := by
  refine foldl_set_get p w _ (hp.nodup_iff.2 List.nodup_range) hi hc ?_
  simpa using List.mem_range.1 (hp.mem_iff.1 (List.mem_of_getElem? hi))

/-- Reading in the order that was written gives the text back. -/
theorem gather_scatter {p : List Nat} {w : Text} (hp : p.Perm (List.range w.length)) : gather p (scatter p w) = w := by
  have hl : p.length = w.length := by simpa using hp.length_eq
  refine List.ext_getElem? fun j => ?_
  by_cases hj : j < w.length
  · have hi : p[j]? = some p[j] := List.getElem?_eq_getElem (hl ▸ hj)
    have hc : w[j]? = some w[j] := List.getElem?_eq_getElem hj
    simp only [gather, List.getElem?_map, hi, Option.map_some, hc, List.getD_eq_getElem?_getD, scatter_get hp hi hc,
      Option.getD_some]
  · rw [List.getElem?_eq_none (by simpa [hl] using hj), List.getElem?_eq_none (by omega)]

/-- Writing in the order that was read gives the text back. -/
theorem scatter_gather {p : List Nat} {w : Text} (hp : p.Perm (List.range w.length)) : scatter p (gather p w) = w := by
  have hl : p.length = w.length := by simpa using hp.length_eq
  have hp' : p.Perm (List.range (gather p w).length) := by simpa [hl] using hp
  refine List.ext_getElem? fun i => ?_
  by_cases hi : i < w.length
  · obtain ⟨j, hj⟩ := List.mem_iff_getElem?.1 (hp.mem_iff.2 (List.mem_range.2 hi))
    have hc : (gather p w)[j]? = some w[i] := by simp [gather, hj, hi]
    rw [scatter_get hp' hj hc, List.getElem?_eq_getElem hi]
  · rw [List.getElem?_eq_none (by simpa [hl] using hi), List.getElem?_eq_none (by omega)]

end Sys2Proof.Machine
end

