-- ==== Sys2Proof/Laws/PerInstr.lean ====
section
/-! SUPPORT. Laws made per instruction: the encoded word of an instruction has the width of its row of
spec/opcode_table.json, and the row's fixed bits. -/

namespace Sys2Proof.Laws

/-- The encoded word has its row's width and fixed bits (R90, R100 to R102; spec/opcode_table.json). -/
def TableBits.Statement (i : Instr) : Prop :=
  (encode i).tableBits.1 = (opcodeRow i).width ∧
    (encode i).tableBits.2 &&& (opcodeRow i).mask = (opcodeRow i).pattern

theorem TableBits.skip : TableBits.Statement .skip := ⟨rfl, rfl⟩

theorem TableBits.caesar (key : Text) : TableBits.Statement (.caesar key) :=
  ⟨rfl, show (headerOf .caesar).toNat &&& 0x07 = 0x01 by decide⟩

theorem TableBits.mono (key : Text) : TableBits.Statement (.mono key) :=
  ⟨rfl, show (headerOf .mono).toNat &&& 0x07 = 0x02 by decide⟩

theorem TableBits.vigenere (key : Text) : TableBits.Statement (.vigenere key) :=
  ⟨rfl, show (headerOf .vigenere).toNat &&& 0x07 = 0x03 by decide⟩

theorem TableBits.railfence (key : Text) : TableBits.Statement (.railfence key) :=
  ⟨rfl, show (headerOf .railfence).toNat &&& 0x07 = 0x04 by decide⟩

theorem TableBits.rowcol (key : Text) : TableBits.Statement (.rowcol key) :=
  ⟨rfl, show (headerOf .rowcol).toNat &&& 0x07 = 0x05 by decide⟩

theorem TableBits.des (key : Text) : TableBits.Statement (.des key) :=
  ⟨rfl, show (headerOf .des).toNat &&& 0x07 = 0x06 by decide⟩

theorem TableBits.playfair (key : Text) : TableBits.Statement (.playfair key) :=
  ⟨rfl, show (headerOf .playfair).toNat &&& 0x07 = 0x07 by decide⟩

theorem TableBits.permute (t : PermTable) : TableBits.Statement (.permute t) := by cases t <;> exact ⟨rfl, rfl⟩

theorem TableBits.rotl : TableBits.Statement .rotl := ⟨rfl, rfl⟩

theorem TableBits.xor : TableBits.Statement .xor := ⟨rfl, rfl⟩

theorem TableBits.sbox (b : SBoxId) : TableBits.Statement (.sbox b) := by cases b <;> exact ⟨rfl, rfl⟩

theorem TableBits.keysched : TableBits.Statement .keysched := ⟨rfl, rfl⟩

theorem TableBits.fk (k : Subkey) : TableBits.Statement (.fk k) := by cases k <;> exact ⟨rfl, rfl⟩

theorem TableBits.block : TableBits.Statement .block := ⟨rfl, rfl⟩

theorem TableBits.run : TableBits.Statement .run := ⟨rfl, rfl⟩

end Sys2Proof.Laws
end

