-- ==== Sys2Proof/Laws/Playfair.lean ====
section
/-! SUPPORT. How the two phases of the Playfair key square place their letters (spec/43_playfair.md R201). -/

namespace Sys2Proof.Machine

/-- Phase 1 of R201 places the letters the key contributes. -/
theorem foldl_placeKeyChar (keyJ : KeyJ) (key : Text) : ∀ sq,
    key.foldl (placeKeyChar keyJ) sq = (squareKeyLetters keyJ key).foldl placeLetter sq := by
  induction key with
  | nil => intro sq; rfl
  | cons c key ih =>
    intro sq
    rw [List.foldl_cons, ih]
    simp only [squareKeyLetters, List.map_cons, placeKeyChar, letterJ, letterI]
    by_cases h : isLower (lower c) = true
    · rw [List.filter_cons_of_pos h]
      by_cases hj : lower c = 0x6A#8
      · cases keyJ <;> simp [hj, isLower]
      · simp [h, hj]
    · rw [List.filter_cons_of_neg h]; simp [h]

/-- Letters placed one by one: each once, in the order of first occurrence. -/
theorem foldl_placeLetter (L : Text) : (∀ c, c ∈ L.foldl placeLetter [] ↔ c ∈ L) ∧
    (L.foldl placeLetter []).Pairwise fun a b => L.idxOf a < L.idxOf b := by
  induction L using List.reverseRecOn with
  | nil => simp
  | append_singleton L c ih =>
    obtain ⟨hm, hp⟩ := ih
    have hp' : (L.foldl placeLetter []).Pairwise fun a b => (L ++ [c]).idxOf a < (L ++ [c]).idxOf b := by
      refine hp.imp_of_mem ?_
      intro a b ha hb hab
      rwa [List.idxOf_append_of_mem ((hm a).1 ha), List.idxOf_append_of_mem ((hm b).1 hb)]
    rw [List.foldl_append, List.foldl_cons, List.foldl_nil, placeLetter]
    by_cases hc : c ∈ L.foldl placeLetter []
    · rw [if_pos hc]
      refine ⟨fun x => ?_, hp'⟩
      rw [hm, List.mem_append, List.mem_singleton]
      exact ⟨.inl, fun h => h.elim id fun e => e ▸ (hm c).1 hc⟩
    · rw [if_neg hc]
      refine ⟨fun x => by simp [hm], ?_⟩
      rw [List.pairwise_append]
      refine ⟨hp', List.pairwise_singleton _ _, ?_⟩
      intro a ha b hb
      obtain rfl := List.mem_singleton.1 hb
      have hb' : b ∉ L := fun h => hc ((hm b).2 h)
      rw [List.idxOf_append_of_mem ((hm a).1 ha), List.idxOf_append_of_notMem hb']
      have := List.idxOf_lt_length_of_mem ((hm a).1 ha)
      omega

/-- Phase 2 of R201 appends the letters not yet placed, in order. -/
theorem foldl_placeAlphabetChar (A : Text) (hA : A.Nodup) : ∀ sq,
    A.foldl placeAlphabetChar sq = sq ++ (A.filter fun c => c ≠ 0x6A#8 && c ∉ sq) := by
  induction A with
  | nil => simp
  | cons c A ih =>
    intro sq
    rw [List.nodup_cons] at hA
    rw [List.foldl_cons, ih hA.2]
    simp only [placeAlphabetChar, placeLetter, letterJ]
    by_cases hj : c = 0x6A#8
    · simp [hj]
    · by_cases hc : c ∈ sq
      · simp [hj, hc]
      · simp only [hj, hc, if_false]
        rw [List.filter_cons_of_pos (by simp [hj, hc]), List.append_assoc, List.singleton_append]
        congr 2
        apply List.filter_congr
        intro x hx
        have : x ≠ c := fun e => hA.1 (e ▸ hx)
        simp [this]

/-- ALPHABET is the lowercase letters. -/
theorem mem_alphabet : ∀ c : Chr, c ∈ alphabet ↔ isLower c = true := by decide +kernel
/-- ALPHABET is ascending. -/
theorem alphabet_sorted : alphabet.Pairwise fun a b => a.toNat < b.toNat := by decide +kernel

/-- The letters a key contributes are lowercase and not `j`. -/
theorem mem_squareKeyLetters {keyJ : KeyJ} {key : Text} {c : Chr} (h : c ∈ squareKeyLetters keyJ key) :
    isLower c = true ∧ c ≠ 0x6A#8 := by
  simp only [squareKeyLetters, List.mem_filterMap, List.mem_filter] at h
  obtain ⟨x, ⟨-, hx⟩, h⟩ := h
  split at h
  · cases keyJ <;> simp at h
    subst h; decide
  · next hj => cases h; exact ⟨hx, hj⟩

end Sys2Proof.Machine
end

