-- ==== Sys2Proof/Laws/Sdes.lean ====
section
/-! SUPPORT. What KEYSCHED, FK and BLOCK answer with well-formed tables (spec/44_sdes.md R233, R240, R245, R250), and what
they leave unchanged with any tables. -/

namespace Sys2Proof.Machine

/-- What a table shape says (R231). -/
theorem tableShape_spec {m n : Nat} {t : List Int} (h : tableShape m n t = true) :
    t.length = m ∧ ∀ e ∈ t, 1 ≤ e ∧ e ≤ (n : Int) := by
  simpa [tableShape] using h

/-- PERMUTE by a table of a shape that fits the vector. -/
theorem permute_select {t : List Int} {v : Bits} {m n : Nat} (h : tableShape m n t = true) (hv : v.length = n) :
    permute v t = .ok (selectBits t v) := permute_ok (by rw [hv]; exact (tableShape_spec h).2)

theorem select_length {t : List Int} {v : Bits} {m n : Nat} (h : tableShape m n t = true) : (selectBits t v).length = m := by
  simpa [selectBits] using (tableShape_spec h).1

theorem rotl_rotate {v : Bits} (h : v ≠ []) : rotl v = .ok (v.rotate 1) := by
  cases v with
  | nil => exact absurd rfl h
  | cons b t => simp [rotl]

theorem subkeys_length {c : Config} (hc : c.wellFormed) (k : Bits) :
    (subkeys c k).1.length = 8 ∧ (subkeys c k).2.length = 8 := by
  simp only [Config.wellFormed, Bool.and_eq_true] at hc
  obtain ⟨⟨⟨⟨⟨h10, h8⟩, hip⟩, hinv⟩, hep⟩, h4⟩ := hc
  exact ⟨select_length h8, select_length h8⟩

/-- KEYSCHED answers on a 10-bit key (R233, R240). -/
theorem keySchedule_ok {c : Config} {r : SdesRegs} (hc : c.wellFormed) (hk : r.keyv.length = 10) :
    keySchedule c r = .ok { r with
      pk := selectBits c.p10 r.keyv
      hl := ((selectBits c.p10 r.keyv).take 5).rotate 3, hr := ((selectBits c.p10 r.keyv).drop 5).rotate 3
      k1 := (subkeys c r.keyv).1, k2 := (subkeys c r.keyv).2
      trace := r.trace ++ keyRecords c r.keyv } := by
  simp only [Config.wellFormed, Bool.and_eq_true] at hc
  obtain ⟨⟨⟨⟨⟨h10, h8⟩, hip⟩, hinv⟩, hep⟩, h4⟩ := hc
  have hp := select_length (v := r.keyv) h10
  have hl : ((selectBits c.p10 r.keyv).take 5).length = 5 := by simp [hp]
  have hr : ((selectBits c.p10 r.keyv).drop 5).length = 5 := by simp [hp]
  have hr' : ((selectBits c.p10 r.keyv).drop 5).take 5 = (selectBits c.p10 r.keyv).drop 5 := by simp [hp]
  have ne : ∀ v : Bits, v.length = 5 → v ≠ [] := by rintro _ h rfl; simp at h
  have rot : ∀ (v : Bits) n, v.length = 5 → rotl (v.rotate n) = .ok (v.rotate (n + 1)) := by
    intro v n h
    rw [rotl_rotate (ne _ (by simpa using h)), List.rotate_rotate]
  simp only [keySchedule, permute_select h10 hk, hr', bind, Except.bind, pure, Except.pure]
  rw [rotl_rotate (ne _ hl), rotl_rotate (ne _ hr)]
  simp only [rot _ _ hl, rot _ _ hr]
  rw [permute_select h8 (by simp [hp]), permute_select h8 (by simp [hp])]
  rfl

/-- FK answers on a 4-bit half and an 8-bit subkey (R233, R245). -/
theorem roundFunction_ok {c : Config} {n : Subkey} {r : SdesRegs} (hc : c.wellFormed) (hr : r.r.length = 4)
    (hk : (subkeyReg r n).length = 8) :
    roundFunction c n r = .ok { r with
      epv := selectBits c.ep r.r, xv := roundXor c r.r (subkeyReg r n)
      sb := roundBox0 c r.r (subkeyReg r n) ++ roundBox1 c r.r (subkeyReg r n), fv := roundValue c r.r (subkeyReg r n)
      trace := r.trace ++ roundRecords c n r.r (subkeyReg r n) } := by
  simp only [Config.wellFormed, Bool.and_eq_true] at hc
  obtain ⟨⟨⟨⟨⟨h10, h8⟩, hip⟩, hinv⟩, hep⟩, h4⟩ := hc
  have he := select_length (v := r.r) hep
  have hx : (roundXor c r.r (subkeyReg r n)).length = 8 := by simp [roundXor, he, hk]
  have hd : ((roundXor c r.r (subkeyReg r n)).drop 4).take 4 = (roundXor c r.r (subkeyReg r n)).drop 4 := by simp [hx]
  simp only [roundFunction, permute_select hep hr, xorBits_ok (he.trans hk.symm), bind, Except.bind, pure, Except.pure]
  rw [show List.zipWith xor (selectBits c.ep r.r) (subkeyReg r n) = roundXor c r.r (subkeyReg r n) from rfl, hd]
  rw [sboxLookup_ok _ (by simp [hx]), sboxLookup_ok _ (by simp [hx])]
  simp only
  rw [permute_select h4 (by simp [bin2])]
  cases n <;> rfl

theorem roundValue_length {c : Config} {r k : Bits} (hc : c.wellFormed) : (roundValue c r k).length = 4 := by
  simp only [Config.wellFormed, Bool.and_eq_true] at hc
  exact select_length hc.2

/-- BLOCK answers on an 8-bit block and two 8-bit subkeys (R233, R250). -/
theorem processBlock_ok {c : Config} {r : SdesRegs} (hc : c.wellFormed) (hb : r.blk.length = 8)
    (h1 : r.k1.length = 8) (h2 : r.k2.length = 8) :
    processBlock c r = .ok { r with
      ipv := selectBits c.ip r.blk, l := (selectBits c.ip r.blk).drop 4, r := rightAfterRound1 c r.blk r.k1
      epv := selectBits c.ep (rightAfterRound1 c r.blk r.k1), xv := roundXor c (rightAfterRound1 c r.blk r.k1) r.k2
      sb := roundBox0 c (rightAfterRound1 c r.blk r.k1) r.k2 ++ roundBox1 c (rightAfterRound1 c r.blk r.k1) r.k2
      fv := roundValue c (rightAfterRound1 c r.blk r.k1) r.k2
      pre := preOutput c r.blk r.k1 r.k2, outv := blockValue c r.blk r.k1 r.k2
      trace := r.trace ++ blockRecords c r.blk r.k1 r.k2 } := by
  have hc' := hc
  simp only [Config.wellFormed, Bool.and_eq_true] at hc
  obtain ⟨⟨⟨⟨⟨h10, h8⟩, hip⟩, hinv⟩, hep⟩, h4⟩ := hc
  have hv := select_length (v := r.blk) hip
  have hd : ((selectBits c.ip r.blk).drop 4).take 4 = (selectBits c.ip r.blk).drop 4 := by simp [hv]
  simp only [processBlock, blockEntry, permute_select hip hb, bind, Except.bind, pure, Except.pure, hd]
  rw [roundFunction_ok hc' (by simp [hv]) (by simpa [subkeyReg] using h1)]
  simp only [blockSwitch, bind, Except.bind, pure, Except.pure]
  rw [xorBits_ok (by simp [hv, roundValue_length hc'])]
  simp only
  rw [roundFunction_ok hc' (by simp [hv, roundValue_length hc']) (by simpa [subkeyReg] using h2)]
  simp only [blockExit, bind, Except.bind, pure, Except.pure]
  rw [xorBits_ok (by simp [hv, roundValue_length hc'])]
  simp only
  rw [permute_select hinv (by simp [hv, roundValue_length hc'])]
  simp [subkeyReg, rightAfterRound1, preOutput, blockValue, blockRecords, roundRecords]

theorem bitsOfLength_ok {n : Nat} {k : Text} {v : Bits} (h : parseBits k = some v) (hl : v.length = n) :
    bitsOfLength n k = some v := by
  simp [bitsOfLength, h, hl]

/-- A selected bit. -/
theorem getD_select {t : List Int} {v : Bits} {i : Nat} (hi : i < t.length) :
    (selectBits t v).getD i false = v.getD (t.getD i 0 - 1).toNat false := by
  simp [selectBits, List.getD, hi]

/-- A computation that answers: its first part answers, and its second part on that. -/
theorem except_bind_ok {α β} {x : Except Stop α} {f : α → Except Stop β} {b : β} (h : x >>= f = .ok b) :
    ∃ a, x = .ok a ∧ f a = .ok b := by
  cases x with
  | error e => cases h
  | ok a => exact ⟨a, rfl, h⟩

/-- What KEYSCHED writes, whatever the tables. -/
theorem keySchedule_frame {c : Config} {r r' : SdesRegs} (h : keySchedule c r = .ok r') :
    ∃ pk hl hr k1 k2 tr, r' = { r with pk := pk, hl := hl, hr := hr, k1 := k1, k2 := k2, trace := r.trace ++ tr } ∧
      tr.length = 6 := by
  unfold keySchedule at h
  obtain ⟨_, _, h⟩ := except_bind_ok h; obtain ⟨_, _, h⟩ := except_bind_ok h; obtain ⟨_, _, h⟩ := except_bind_ok h
  obtain ⟨_, _, h⟩ := except_bind_ok h; obtain ⟨_, _, h⟩ := except_bind_ok h; obtain ⟨_, _, h⟩ := except_bind_ok h
  obtain ⟨_, _, h⟩ := except_bind_ok h; obtain ⟨_, _, h⟩ := except_bind_ok h; obtain ⟨_, _, h⟩ := except_bind_ok h
  cases h
  exact ⟨_, _, _, _, _, _, rfl, rfl⟩

/-- What FK writes, whatever the tables. -/
theorem roundFunction_frame {c : Config} {n : Subkey} {r r' : SdesRegs} (h : roundFunction c n r = .ok r') :
    ∃ a b d e tr, r' = { r with epv := a, xv := b, sb := d, fv := e, trace := r.trace ++ tr } ∧ tr.length = 4 := by
  unfold roundFunction at h
  obtain ⟨_, _, h⟩ := except_bind_ok h; obtain ⟨_, _, h⟩ := except_bind_ok h; obtain ⟨_, _, h⟩ := except_bind_ok h
  obtain ⟨_, _, h⟩ := except_bind_ok h; obtain ⟨_, _, h⟩ := except_bind_ok h
  cases h
  exact ⟨_, _, _, _, _, rfl, rfl⟩

/-- What BLOCK leaves unchanged, whatever the tables, and how many records it appends. -/
theorem processBlock_frame {c : Config} {r r' : SdesRegs} (h : processBlock c r = .ok r') :
    r'.keyv = r.keyv ∧ r'.blk = r.blk ∧ r'.k1 = r.k1 ∧ r'.k2 = r.k2 ∧ r'.trace.length = r.trace.length + 13 := by
  unfold processBlock at h
  obtain ⟨r1, h1, h⟩ := except_bind_ok h; obtain ⟨r2, h2, h⟩ := except_bind_ok h
  obtain ⟨r3, h3, h⟩ := except_bind_ok h
  obtain ⟨r4, h4, h5⟩ := except_bind_ok h
  unfold blockEntry at h1; obtain ⟨_, _, h1⟩ := except_bind_ok h1; cases h1
  obtain ⟨_, _, _, _, t1, rfl, l1⟩ := roundFunction_frame h2
  unfold blockSwitch at h3; obtain ⟨_, _, h3⟩ := except_bind_ok h3; cases h3
  obtain ⟨_, _, _, _, t2, rfl, l2⟩ := roundFunction_frame h4
  unfold blockExit at h5; obtain ⟨_, _, h5⟩ := except_bind_ok h5; obtain ⟨_, _, h5⟩ := except_bind_ok h5; cases h5
  simp [l1, l2]

/-- A DES layer that completes has 19 records (R262). -/
theorem desEngine_trace_length {c : Config} {key w : Text} {r r' : SdesRegs} (h : desEngine c key w r = .ok r') :
    r'.trace.length = 19 := by
  unfold desEngine at h
  split at h
  · cases h
  · split at h
    · cases h
    · obtain ⟨a, ha, h⟩ := except_bind_ok h
      obtain ⟨_, _, _, _, _, tr, rfl, hl⟩ := keySchedule_frame ha
      have := (processBlock_frame h).2.2.2.2
      simp [hl] at this
      omega

/-- The result and trace of a DES layer do not depend on what the unit held before (R29). -/
theorem desEngine_scratch (c : Config) (key w : Text) (r r' : SdesRegs) :
    (desEngine c key w r).map (fun x => (showBits x.outv, [x.trace])) =
      (desEngine c key w r').map (fun x => (showBits x.outv, [x.trace])) := by
  unfold desEngine
  cases bitsOfLength keyBits key with
  | none => rfl
  | some kv =>
    cases bitsOfLength blockBits w with
    | none => rfl
    | some bv =>
      simp only [keySchedule, processBlock, blockEntry, roundFunction, blockSwitch, blockExit, bind, Except.bind,
        pure, Except.pure, subkeyReg]
      cases permute kv c.p10 <;> simp only
      next pk =>
      cases rotl (pk.take 5) <;> simp only
      next a1 =>
      cases rotl ((pk.drop 5).take 5) <;> simp only
      next a2 =>
      cases permute (a1 ++ a2) c.p8 <;> simp only
      next k1 =>
      cases rotl a1 <;> simp only
      next a3 =>
      cases rotl a3 <;> simp only
      next a4 =>
      cases rotl a2 <;> simp only
      next a5 =>
      cases rotl a5 <;> simp only
      next a6 =>
      cases permute (a4 ++ a6) c.p8 <;> simp only
      next k2 =>
      cases permute bv c.ip <;> simp only
      next v =>
      cases permute ((v.drop 4).take 4) c.ep <;> simp only
      next e =>
      cases xorBits e k1 <;> simp only
      next x =>
      cases sboxLookup (x.take 4) c.s0 <;> simp only
      next b0 =>
      cases sboxLookup ((x.drop 4).take 4) c.s1 <;> simp only
      next b1 =>
      cases permute (b0 ++ b1) c.p4 <;> simp only
      next f1 =>
      cases xorBits (v.take 4) f1 <;> simp only
      next r1 =>
      cases permute r1 c.ep <;> simp only
      next e2 =>
      cases xorBits e2 k2 <;> simp only
      next x2 =>
      cases sboxLookup (x2.take 4) c.s0 <;> simp only
      next b2 =>
      cases sboxLookup ((x2.drop 4).take 4) c.s1 <;> simp only
      next b3 =>
      cases permute (b2 ++ b3) c.p4 <;> simp only

end Sys2Proof.Machine
end

