-- ==== Sys2Proof/Laws/Run.lean ====
section
/-! SUPPORT. What the sequencer does, said once: the descriptors it fetches, a layer as its engine's function, an induction over
a step, and the layers of a table. -/

namespace Sys2Proof.Machine

/-- A BVU word decodes to an internal operation. -/
theorem decode_bvu_kind {w : BitVec 5} {i : Instr} (h : decode (.bvu w) = .ok i) : i.layer? = none ∧ i ≠ .run := by
  have : ∀ w : BitVec 5, (match decode (.bvu w) with
      | .ok i => decide (i.layer? = none ∧ i ≠ .run)
      | .error _ => true) = true := by decide
  have := this w; rw [h] at this; simpa using this

/-- An SDESQ word decodes to an internal operation. -/
theorem decode_sdesq_kind {w : BitVec 3} {i : Instr} (h : decode (.sdesq w) = .ok i) : i.layer? = none ∧ i ≠ .run := by
  have : ∀ w : BitVec 3, (match decode (.sdesq w) with
      | .ok i => decide (i.layer? = none ∧ i ≠ .run)
      | .error _ => true) = true := by decide
  have := this w; rw [h] at this; simpa using this

/-- Where a fetched word comes from. -/
theorem fetch_word {s : State} {w : Word} {u : State} (h : fetch s = .word w u) :
    (∃ b, s.issue = some (.bvu b) ∧ w = .bvu b ∧ u = { s with issue := none }) ∨
    (∃ b, s.issue = some (.sdesq b) ∧ w = .sdesq b ∧ u = { s with issue := none }) ∨
    (s.issue = none ∧ s.status = .busy ∧ s.lp < s.nlayers ∧ fetchLayer s = some w ∧ u = s) ∨
    (s.issue = none ∧ s.status ≠ .busy ∧ s.start = true ∧ w = .cmd 1#1 ∧ u = s) := by
  unfold fetch at h
  split at h
  · next b hb => cases h; exact .inl ⟨b, hb, rfl, rfl⟩
  · next b hb => cases h; exact .inr (.inl ⟨b, hb, rfl, rfl⟩)
  · next hn =>
    split at h
    · next hb =>
      split at h
      · next hl =>
        split at h
        · next w hw => cases h; exact .inr (.inr (.inl ⟨hn, hb, hl, hw, rfl⟩))
        · cases h
      · cases h
    · next hb =>
      split at h
      · next hs => cases h; exact .inr (.inr (.inr ⟨hn, hb, hs, rfl, rfl⟩))
      · cases h

/-- A fetched descriptor decodes to the operation of its ALG field with its own key (R98, R282). -/
theorem readDescriptor_decode {t : Cells LayerEntry} {i : Nat} {w : Word} (h : readDescriptor t i = some w) :
    ∃ alg key, decode w = .ok (Instr.ofLayer alg key) ∧ layerOfWord w = some (alg, key) ∧
      ∃ h n k, w = .layer h n k ∧ algCode alg = algField h ∧ (alg = .skip → key = []) ∧
        (alg ≠ .skip → key = k.take n) := by
  obtain ⟨hd, n, key, rfl, hn⟩ := readDescriptor_some h
  have hcode : ∀ c : BitVec 3, algCode (algOfCode c) = c := by decide
  by_cases hs : algOfCode (algField hd) = .skip
  · have hd' : decode (.layer hd n key) = .ok .skip := by rw [decodeLayer_ok hn, hs]; rfl
    exact ⟨.skip, [], hd', by simp [layerOfWord, hd', Instr.layer?], hd, n, key, rfl,
      by rw [← hs, hcode], fun _ => rfl, fun h => absurd rfl h⟩
  · refine ⟨_, _, decodeLayer_ok hn, ?_, hd, n, key, rfl, hcode _, fun h => absurd h hs, fun _ => rfl⟩
    rw [layerOfWord, decodeLayer_ok hn]
    simp only
    revert hs
    cases algOfCode (algField hd) <;> simp [Instr.ofLayer, Instr.layer?]

/-- Everything a step can do. -/
theorem step_cases {s t : State} (h : step s = .next t) :
    t = s ∨ (s.issue = none ∧ s.status = .busy ∧ s.nlayers ≤ s.lp ∧ t = finishRun s) ∨
    (∃ i, i.layer? = none ∧ i ≠ .run ∧ exec i { s with issue := none } = .next t) ∨
    (∃ alg key, s.issue = none ∧ s.status = .busy ∧ s.lp < s.nlayers ∧ dispatchLayer alg key s = .next t) ∨
    (s.issue = none ∧ s.status ≠ .busy ∧ s.start = true ∧ execRun s = .next t) := by
  rcases step_next h with ⟨_, rfl⟩ | ⟨hf, rfl⟩ | ⟨w, u, i, hf, hd, he⟩
  · exact .inl rfl
  · right; left
    unfold fetch at hf
    split at hf <;> try cases hf
    next hn =>
    split at hf
    · next hb =>
      split at hf
      · split at hf <;> cases hf
      · exact ⟨hn, hb, by omega, rfl⟩
    · split at hf <;> cases hf
  · right; right
    rcases fetch_word hf with ⟨b, hb, rfl, rfl⟩ | ⟨b, hb, rfl, rfl⟩ | ⟨hn, hb, hl, hw, rfl⟩ | ⟨hn, hb, hs, rfl, rfl⟩
    · exact .inl ⟨i, (decode_bvu_kind hd).1, (decode_bvu_kind hd).2, he⟩
    · exact .inl ⟨i, (decode_sdesq_kind hd).1, (decode_sdesq_kind hd).2, he⟩
    · obtain ⟨alg, key, hd', -⟩ := readDescriptor_decode hw
      rw [hd] at hd'; cases hd'
      rw [exec_ofLayer] at he
      exact .inr (.inl ⟨alg, key, hn, hb, hl, he⟩)
    · have : decode (.cmd 1#1) = .ok .run := rfl
      rw [this] at hd; cases hd
      exact .inr (.inr ⟨hn, hb, hs, he⟩)

/-- A property kept by the start of a run, by a layer, by an internal operation and by the end of a run is kept by a step. -/
theorem step_induct {P : State → Prop}
    (hissue : ∀ s, P s → P { s with issue := none })
    (hstart : ∀ s text, P s → s.status ≠ .busy → memReadText s.textIn s.tlen = some text → P (beginRun text s))
    (hdone : ∀ alg key s t, P s → s.status = .busy → s.lp < s.nlayers → dispatchLayer alg key s = .next t → P t)
    (hint : ∀ i s t, P s → i.layer? = none → i ≠ .run → exec i s = .next t → P t)
    (hfin : ∀ s, P s → s.status = .busy → s.nlayers ≤ s.lp → P (finishRun s))
    {s t : State} (hs : P s) (h : step s = .next t) : P t := by
  have hrun : ∀ fuel s t, P s → continueRun fuel s = .next t → P t := by
    intro fuel
    induction fuel with
    | zero => intro s t hs h; cases h; exact hs
    | succ n ih =>
      intro s t hs h
      unfold continueRun at h
      split at h
      · next hb =>
        split at h
        · next hl =>
          split at h
          · next u hu =>
            obtain ⟨alg, key, -, hd⟩ := runLayer_next hu
            exact ih u t (hdone alg key s u hs hb hl hd) h
          · cases h
          · cases h
        · next hl =>
          cases h; exact hfin s hs hb (by omega)
      · cases h; exact hs
  rcases step_cases h with rfl | ⟨_, hb, hl, rfl⟩ | ⟨i, h1, h2, h3⟩ | ⟨alg, key, _, hb, hl, hd⟩ | ⟨_, hb, hs', hr⟩
  · exact hs
  · exact hfin s hs hb hl
  · exact hint i _ t (hissue s hs) h1 h2 h3
  · exact hdone alg key s t hs hb hl hd
  · rcases execRun_next hr with ⟨hb', _⟩ | ⟨_, text, ht, hc⟩
    · exact absurd hb' hb
    · exact hrun _ _ _ (hstart s text hs hb ht) hc

/-- A Layer operation that answers: only DES touches the S-DES registers and TRACE_ACC, and it leaves the engines' scratch. -/
theorem dispatchLayer_frame {alg : Alg} {key : Text} {s t : State} (h : dispatchLayer alg key s = .next t) :
    (∃ out eng sdes tr, t = layerDone out { s with eng := eng, sdes := sdes, traceAcc := s.traceAcc ++ tr } ∧
      (alg ≠ .des → sdes = s.sdes ∧ tr = []) ∧ (alg = .des → eng = s.eng)) ∨
      ∃ k, t = takeFault k alg s := by
  have done : ∀ out eng, layerDone out { s with eng := eng } =
      layerDone out { s with eng := eng, sdes := s.sdes, traceAcc := s.traceAcc ++ [] } := by
    intro out eng; simp [layerDone]
  cases alg with
  | skip => cases h; exact .inl ⟨s.w, s.eng, s.sdes, [], by simp [layerDone], fun _ => ⟨rfl, rfl⟩, fun h => by cases h⟩
  | caesar =>
    simp only [dispatchLayer, execCaesar] at h
    split at h
    · cases h; exact .inl ⟨_, _, s.sdes, [], done _ _, fun _ => ⟨rfl, rfl⟩, fun h => by cases h⟩
    · obtain ⟨k, -, rfl⟩ := stopped_next h; exact .inr ⟨k, rfl⟩
  | mono =>
    simp only [dispatchLayer, execMono] at h
    split at h
    · cases h; exact .inl ⟨_, _, s.sdes, [], done _ _, fun _ => ⟨rfl, rfl⟩, fun h => by cases h⟩
    · obtain ⟨k, -, rfl⟩ := stopped_next h; exact .inr ⟨k, rfl⟩
  | vigenere =>
    simp only [dispatchLayer, execVigenere] at h
    split at h
    · cases h; exact .inl ⟨_, _, s.sdes, [], done _ _, fun _ => ⟨rfl, rfl⟩, fun h => by cases h⟩
    · obtain ⟨k, -, rfl⟩ := stopped_next h; exact .inr ⟨k, rfl⟩
  | railfence =>
    simp only [dispatchLayer, execRailfence] at h
    split at h
    · cases h; exact .inl ⟨_, _, s.sdes, [], done _ _, fun _ => ⟨rfl, rfl⟩, fun h => by cases h⟩
    · obtain ⟨k, -, rfl⟩ := stopped_next h; exact .inr ⟨k, rfl⟩
  | rowcol =>
    simp only [dispatchLayer, execRowcol] at h
    split at h
    · cases h; exact .inl ⟨_, _, s.sdes, [], done _ _, fun _ => ⟨rfl, rfl⟩, fun h => by cases h⟩
    · obtain ⟨k, -, rfl⟩ := stopped_next h; exact .inr ⟨k, rfl⟩
  | des =>
    simp only [dispatchLayer, execDes] at h
    split at h
    · cases h; exact .inl ⟨_, s.eng, _, _, rfl, fun h => absurd rfl h, fun _ => rfl⟩
    · obtain ⟨k, -, rfl⟩ := stopped_next h; exact .inr ⟨k, rfl⟩
  | playfair =>
    simp only [dispatchLayer, execPlayfair] at h
    split at h
    · cases h; exact .inl ⟨_, _, s.sdes, [], done _ _, fun _ => ⟨rfl, rfl⟩, fun h => by cases h⟩
    · obtain ⟨k, -, rfl⟩ := stopped_next h; exact .inr ⟨k, rfl⟩

/-- A Layer operation is its engine as a function of W, the key and DIR (R282). -/
theorem dispatchLayer_engineText (alg : Alg) (key : Text) (s : State) :
    match engineText s.cfg alg key s.dir s.w with
    | .ok r => ∃ eng sdes, dispatchLayer alg key s =
        .next (layerDone r.1 { s with eng := eng, sdes := sdes, traceAcc := s.traceAcc ++ r.2 })
    | .error e => dispatchLayer alg key s = stopped alg e s := by
  have done : ∀ out eng, layerDone out { s with eng := eng } =
      layerDone out { s with eng := eng, sdes := s.sdes, traceAcc := s.traceAcc ++ [] } := by
    intro out eng; simp [layerDone]
  cases alg with
  | skip => exact ⟨s.eng, s.sdes, by simp [dispatchLayer, execSkip, layerDone]⟩
  | caesar =>
    simp only [engineText, dispatchLayer, execCaesar]
    cases caesarEngine key s.dir s.w with
    | error e => rfl
    | ok r => exact ⟨_, _, congrArg _ (done _ _)⟩
  | mono =>
    simp only [engineText, dispatchLayer, execMono]
    cases monoEngine s.cfg.monoDupWinner key s.dir s.w with
    | error e => rfl
    | ok r => exact ⟨_, _, congrArg _ (done _ _)⟩
  | vigenere =>
    simp only [engineText, dispatchLayer, execVigenere]
    cases vigenereEngine key s.dir s.w with
    | error e => rfl
    | ok r => exact ⟨_, _, congrArg _ (done _ _)⟩
  | railfence =>
    simp only [engineText, dispatchLayer, execRailfence]
    unfold railfenceEngine
    cases parseInt key with
    | none => rfl
    | some n =>
      by_cases hn : n ≤ 1
      · simp only [if_pos hn]; exact ⟨_, _, congrArg _ (done _ _)⟩
      · simp only [if_neg hn]; exact ⟨_, _, congrArg _ (done _ _)⟩
  | rowcol =>
    simp only [engineText, dispatchLayer, execRowcol]
    unfold rowcolEngine
    by_cases hk : key = []
    · simp only [if_pos hk]; rfl
    · simp only [if_neg hk]; exact ⟨_, _, congrArg _ (done _ _)⟩
  | des =>
    simp only [engineText, dispatchLayer, execDes]
    rw [desEngine_scratch s.cfg key s.w SdesRegs.reset s.sdes]
    cases desEngine s.cfg key s.w s.sdes with
    | error e => rfl
    | ok r => exact ⟨_, _, rfl⟩
  | playfair =>
    simp only [engineText, dispatchLayer, execPlayfair]
    cases playfairEngine s.cfg.playfairKeyJ key s.dir s.w with
    | error e => rfl
    | ok r => exact ⟨_, _, congrArg _ (done _ _)⟩

theorem mapM_option_some {α β : Type} {f : α → Option β} {l : List α} {r : List β} (h : l.mapM f = some r) :
    r.length = l.length ∧ ∀ (i : Nat) (x : α), l[i]? = some x → f x = r[i]? := by
  induction l generalizing r with
  | nil => simp at h; subst h; simp
  | cons a l ih =>
    rw [List.mapM_cons] at h
    simp only [bind, Option.bind_eq_some_iff, pure, Option.some.injEq] at h
    obtain ⟨b, hb, rs, hrs, rfl⟩ := h
    have := ih hrs
    refine ⟨by simp [this.1], ?_⟩
    intro i x hx
    cases i with
    | zero => simp at hx; subst hx; simpa using hb
    | succ i => simpa using this.2 i x (by simpa using hx)

/-- The layers of a table, index by index. -/
theorem tableLayers_get {s : State} {ls : List Layer} (h : tableLayers s = some ls) : ls.length = s.nlayers ∧
    ∀ i, i < s.nlayers → (readDescriptor s.layers i).bind layerOfWord = ls[i]? := by
  have := mapM_option_some h
  simp only [List.length_range] at this
  refine ⟨this.1, fun i hi => this.2 i i (by simp [hi])⟩

/-- A text and a table that can be read were written (R38). -/
theorem inputsWritten_of_read {s : State} {text : Text} {ls : List Layer} (ht : memReadText s.textIn s.tlen = some text)
    (h : tableLayers s = some ls) : inputsWritten s = true := by
  simp only [inputsWritten, ht, Option.isSome_some, Bool.true_and, List.all_eq_true, List.mem_range]
  intro i hi
  have := (tableLayers_get h).2 i hi
  cases hr : readDescriptor s.layers i with
  | none =>
    rw [hr] at this
    simp [List.getElem?_eq_getElem (show i < ls.length by have := (tableLayers_get h).1; omega)] at this
  | some w => rfl

/-- The layer at a position of the processing order (R22, R281). -/
theorem processingOrder_get (d : Dir) (ls : List Layer) (n : Nat) (hn : n < ls.length) :
    (processingOrder d ls)[n]? = some (match d with
      | .encrypt => (n, ls[n])
      | .decrypt => (ls.length - 1 - n, ls[ls.length - 1 - n])) := by
  cases d with
  | encrypt => simp [processingOrder, hn]
  | decrypt =>
    simp only [processingOrder]
    rw [List.getElem?_reverse (by simpa using hn)]
    have : ls.length - 1 - n < ls.length := by omega
    simp [this]

theorem processingOrder_length (d : Dir) (ls : List Layer) : (processingOrder d ls).length = ls.length := by
  cases d <;> simp [processingOrder]

/-- An engine other than DES appends no trace; DES appends one of 19 records (R284). -/
theorem engineText_trace {c : Config} {alg : Alg} {key : Text} {d : Dir} {w : Text} {r}
    (h : engineText c alg key d w = .ok r) :
    (alg ≠ .des → r.2 = []) ∧ (alg = .des → ∃ t, r.2 = [t] ∧ t.length = 19) := by
  cases alg <;> simp only [engineText] at h
  case des =>
    cases hd : desEngine c key w SdesRegs.reset with
    | error e => rw [hd] at h; cases h
    | ok x => rw [hd] at h; cases h; exact ⟨fun h => absurd rfl h, fun _ => ⟨_, rfl, desEngine_trace_length hd⟩⟩
  case skip => cases h; exact ⟨fun _ => rfl, fun h => by cases h⟩
  all_goals
    refine ⟨fun _ => ?_, fun h => by cases h⟩
    first
    | (cases he : caesarEngine key d w <;> rw [he] at h <;> cases h; rfl)
    | (cases he : monoEngine c.monoDupWinner key d w <;> rw [he] at h <;> cases h; rfl)
    | (cases he : vigenereEngine key d w <;> rw [he] at h <;> cases h; rfl)
    | (cases he : railfenceEngine key d w EngineRegs.reset <;> rw [he] at h <;> cases h; rfl)
    | (cases he : rowcolEngine key d w EngineRegs.reset <;> rw [he] at h <;> cases h; rfl)
    | (cases he : playfairEngine c.playfairKeyJ key d w <;> rw [he] at h <;> cases h; rfl)

end Sys2Proof.Machine
end

