-- ==== Sys2Proof/Laws/Substitution.lean ====
section
/-! SUPPORT. Laws of the substitution engines: the letter shifts, MAP in both directions (spec/41_substitution.md R146,
R147), and the Vigenere walk (R152). -/

namespace Sys2Proof.Machine

theorem shiftPos_nat (p k : Nat) : shiftPos p k = (p + k) % 26 := by simp only [shiftPos]; omega

theorem caesarShift_cast (n : Int) (d : Dir) : 
    (caesarShift n d : Int) = (match d with | .encrypt => n % 26 | .decrypt => -n % 26) := by
  cases d <;> simp only [caesarShift] <;> omega

/-- Opposite shifts undo each other on every character. -/
theorem caesarChar_inverse : ∀ c : BitVec 8, ∀ k : Fin 26,
    caesarChar ((26 - k.val) % 26) (caesarChar k.val c) = c := by decide +kernel

/-- A lookup after a write. -/
theorem mapGet_put (m : List (Chr × Chr)) (k v c : Chr) :
    mapGet (mapPut m k v) c = if c = k then some v else mapGet m c := by
  induction m with
  | nil => by_cases h : c = k <;> simp [mapGet, mapPut, List.lookup, h, beq_iff_eq]
  | cons e m ih =>
    unfold mapPut
    split
    · next he =>
      by_cases h : c = k
      · simp [mapGet, List.lookup, h]
      · have : c ≠ e.1 := by rw [he]; exact h
        simp [mapGet, List.lookup, h, beq_false_of_ne this, beq_false_of_ne h]
    · next he =>
      simp only [mapGet, List.lookup] at ih ⊢
      by_cases h : c = e.1
      · have : e.1 ≠ k := he
        simp [h, this]
      · simp only [beq_false_of_ne h, ih]

/-- MAP while encrypting: the first `n` letters, each to its key character (R146). -/
theorem monoMap_encrypt (w : DupWinner) (key : Text) (n : Nat) (hn : n ≤ 26) (c : Chr) :
    mapGet ((List.range n).foldl (monoMapStep w key .encrypt) []) c =
      if isLower c ∧ c.toNat - 0x61 < n then some (key.getD ((c.toNat - 0x61) % key.length) 0) else none := by
  induction n with
  | zero => simp [mapGet]
  | succ n ih =>
    rw [List.range_succ, List.foldl_append]
    simp only [List.foldl_cons, List.foldl_nil, monoMapStep, mapGet_put]
    rw [ih (by omega)]
    have hL : (chrL n).toNat = 0x61 + n := by simp only [chrL, BitVec.toNat_ofNat]; omega
    by_cases hc : c = chrL n
    · subst hc
      have : isLower (chrL n) = true := by simp only [isLower, hL]; simp; omega
      simp [this, hL]
    · rw [if_neg hc]
      have hne : c.toNat ≠ 0x61 + n := fun h => hc (BitVec.eq_of_toNat_eq (by rw [h, hL]))
      have : isLower c → 0x61 ≤ c.toNat := by simp [isLower]; omega
      by_cases hl : isLower c
      · have := this hl
        simp only [hl, true_and]
        split <;> split <;> first | rfl | omega
      · simp [hl]

/-- MAP while decrypting: a character no letter is paired with is absent; another holds the winner (R146, R147). -/
theorem monoMap_decrypt (w : DupWinner) (key : Text) (n : Nat) (c : Chr) :
    (mapGet ((List.range n).foldl (monoMapStep w key .decrypt) []) c = none ∧ ∀ k < n, key.getD (k % key.length) 0 ≠ c) ∨
    ∃ k < n, key.getD (k % key.length) 0 = c ∧
      mapGet ((List.range n).foldl (monoMapStep w key .decrypt) []) c = some (chrL k) ∧
      ∀ j < n, key.getD (j % key.length) 0 = c → match w with | .last => j ≤ k | .first => k ≤ j := by
  induction n with
  | zero => left; simp [mapGet]
  | succ n ih =>
    rw [List.range_succ, List.foldl_append]
    simp only [List.foldl_cons, List.foldl_nil, monoMapStep]
    generalize hm : (List.range n).foldl (monoMapStep w key .decrypt) [] = m at ih ⊢
    by_cases hc : c = key.getD (n % key.length) 0
    · subst hc
      rcases ih with ⟨h1, h2⟩ | ⟨k, hk, h1, h2, h3⟩
      · right
        refine ⟨n, by omega, rfl, ?_, ?_⟩
        · rw [if_pos (Or.inr h1), mapGet_put, if_pos rfl]
        · intro j hj e
          have : j = n := by
            by_contra hne
            exact h2 j (by omega) e
          cases w <;> simp <;> omega
      · right
        cases w with
        | last =>
          refine ⟨n, by omega, rfl, by simp [mapGet_put], ?_⟩
          intro j hj _; simp; omega
        | first =>
          refine ⟨k, by omega, h1, by rw [if_neg (by rw [h2]; simp), h2], ?_⟩
          intro j hj e
          by_cases hjn : j = n
          · simp; omega
          · exact h3 j (by omega) e
    · have e : mapGet (if w = .last ∨ mapGet m (key.getD (n % key.length) 0) = none then
          mapPut m (key.getD (n % key.length) 0) (chrL n) else m) c = mapGet m c := by
        split
        · rw [mapGet_put, if_neg hc]
        · rfl
      rw [e]
      rcases ih with ⟨h1, h2⟩ | ⟨k, hk, h1, h2, h3⟩
      · left
        refine ⟨h1, fun k hk => ?_⟩
        by_cases hkn : k = n
        · subst hkn; exact fun h => hc h.symm
        · exact h2 k (by omega)
      · right
        refine ⟨k, by omega, h1, h2, fun j hj e' => ?_⟩
        by_cases hjn : j = n
        · subst hjn; exact absurd e'.symm hc
        · exact h3 j (by omega) e'

theorem lower_isLower {c : Chr} (h : isLower c = true) : lower c = c := by
  have : isUpper c = false := by simp [isLower] at h; simp [isUpper]; omega
  simp [lower, this]

theorem lower_idem : ∀ c : BitVec 8, lower (lower c) = lower c := by decide

theorem isLower_lower : ∀ c : BitVec 8, isLower (lower c) = isAlpha c := by decide

theorem isLower_chrL : ∀ c : BitVec 8, isLower c = true → ∃ i : Fin 26, c = chrL i.val := by decide

theorem vigenereText_length (ks : List Nat) (d : Dir) (kp : Nat) (t : Text) :
    (vigenereText ks d kp t).length = t.length := by
  induction t generalizing kp with
  | nil => rfl
  | cons c t ih => unfold vigenereText; split <;> simp [ih]

/-- The character at a position uses the key letter at the number of letters before it (R152). -/
theorem vigenereText_get (ks : List Nat) (d : Dir) (kp : Nat) (t : Text) (i : Nat) (c : Chr) (h : t[i]? = some c) :
    (vigenereText ks d kp t)[i]? = some (
      if isLower c then vigenereChar d (ks.getD ((kp + (t.take i).countP isLower) % ks.length) 0) c
      else c) := by
  induction t generalizing kp i with
  | nil => simp at h
  | cons x t ih =>
    cases i with
    | zero =>
      obtain rfl : x = c := by simpa using h
      unfold vigenereText; split <;> simp [*]
    | succ i =>
      have h' : t[i]? = some c := by simpa using h
      unfold vigenereText
      split
      · next hx =>
        rw [List.getElem?_cons_succ, ih _ _ h']
        simp only [List.take_succ_cons, List.countP_cons, hx, if_true]
        rw [show kp + 1 + (t.take i).countP isLower = kp + ((t.take i).countP isLower + 1) by omega]
      · next hx =>
        rw [List.getElem?_cons_succ, ih _ _ h']
        simp [hx]

theorem countP_lowerText (t : Text) : (lowerText t).countP isLower = t.countP isAlpha := by
  rw [lowerText, List.countP_map]
  congr 1; funext c; exact isLower_lower c

end Sys2Proof.Machine
end

