-- ==== Sys2Proof/Machine/Assembler.lean ====
section
/-! DEFINITION. The assembler syntax of spec/30_encoding.md R103 (decision D34): a program's text to its direction, its
Layer descriptors and the text operand written after `on`. -/

namespace Sys2Proof.Machine

/-- A token of the grammar of R103. -/
inductive Token where
  | word (t : Text)
  | int (t : Text)
  | str (t : Text)
  | punct (c : Chr)
  deriving DecidableEq, Repr

/-- Why a program text is refused. -/
inductive AsmError where
  /-- The text does not match the grammar of R103. -/
  | grammar
  /-- A layer name that is none of the seven of R103 (R98, U13). -/
  | unknownName
  deriving DecidableEq, Repr

/-- What the tokenizer is inside of. -/
inductive Lexing where
  | between
  | inWord (t : Text)
  | inInt (t : Text)
  | inStr (t : Text)
  deriving DecidableEq, Repr

/-- The token a lexing state closes at a delimiter; an open string closes to nothing. -/
def closeToken (l : Lexing) : List Token :=
  match l with
  | .between => []
  | .inWord t => [.word t]
  | .inInt t => [.int t]
  | .inStr _ => []

/-- A character of the text outside a string: a letter or digit continues or begins a word, a digit or `-` begins an
integer, a quote begins a string, whitespace separates, anything else is punctuation (log entry 21). -/
def lexOutside (l : Lexing) (c : Chr) : List Token × Lexing :=
  if c = 0x22#8 then (closeToken l, .inStr [])
  else if isSpace c then (closeToken l, .between)
  else
    match l with
    | .inWord t => if isAlpha c then ([], .inWord (t ++ [c])) else
        if isDigit c || c == 0x2D#8 then ([.word t], .inInt [c]) else ([.word t, .punct c], .between)
    | .inInt t => if isDigit c then ([], .inInt (t ++ [c])) else
        if isAlpha c then ([.int t], .inWord [c]) else ([.int t, .punct c], .between)
    | _ => if isAlpha c then ([], .inWord [c]) else
        if isDigit c || c == 0x2D#8 then ([], .inInt [c]) else ([.punct c], .between)

/-- The tokens of a text; `none` when a string is not closed. -/
def tokens (l : Lexing) (s : Text) : Option (List Token) :=
  match s with
  | [] =>
    match l with
    | .inStr _ => none
    | l => some (closeToken l)
  | c :: s =>
    match l with
    | .inStr t =>
      if c = 0x22#8 then (tokens .between s).map (.str t :: ·) else tokens (.inStr (t ++ [c])) s
    | l => (tokens (lexOutside l c).2 s).map ((lexOutside l c).1 ++ ·)

/-- The decimal string of a natural number, shortest form (R103). -/
def decimalNat (n : Nat) : Text := (Nat.toDigits 10 n).map fun c => BitVec.ofNat 8 c.toNat

/-- The shortest decimal string of an integer, a leading `-` when negative (R103). -/
def decimalInt (n : Int) : Text := if n < 0 then 0x2D#8 :: decimalNat n.natAbs else decimalNat n.natAbs

/-- The algorithm of a layer name of R103. -/
def algOfName (name : Text) : Except AsmError Alg :=
  if name = ascii "Caesar" then .ok .caesar
  else if name = ascii "Monoalphabetic" then .ok .mono
  else if name = ascii "Vigenere" then .ok .vigenere
  else if name = ascii "RailFence" then .ok .railfence
  else if name = ascii "RowColumn" then .ok .rowcol
  else if name = ascii "Des" then .ok .des
  else if name = ascii "Playfair" then .ok .playfair
  else .error .unknownName

/-- The key characters a `keyval` assembles to (R103). -/
def keyOfToken (t : Token) : Except AsmError Text :=
  match t with
  | .str k => .ok k
  | .int d =>
    match parseInt d with
    | some n => .ok (decimalInt n)
    | none => .error .grammar
  | _ => .error .grammar

/-- The `(key=...)` part of a layer, and the tokens after it (R103). -/
def asmKey (ts : List Token) : Except AsmError (Text × List Token) :=
  match ts with
  | .punct o :: .word k :: .punct e :: v :: .punct c :: ts =>
    if o = 0x28#8 ∧ k = ascii "key" ∧ e = 0x3D#8 ∧ c = 0x29#8 then (keyOfToken v).map fun key => (key, ts)
    else .error .grammar
  | _ => .error .grammar

/-- One layer of R103: `Skip`, or a name with its key. -/
def asmLayer (ts : List Token) : Except AsmError ((BitVec 8 × Text) × List Token) :=
  match ts with
  | .word name :: ts =>
    if name = ascii "Skip" then .ok ((headerOf .skip, []), ts)
    else do
      let alg ← algOfName name
      let (key, ts) ← asmKey ts
      return ((headerOf alg, key), ts)
  | _ => .error .grammar

/-- The layers after the first, each after a comma, up to `]` (R103). -/
def asmLayers (fuel : Nat) (ts : List Token) : Except AsmError (List (BitVec 8 × Text) × List Token) :=
  match fuel with
  | 0 => .error .grammar
  | fuel + 1 => do
    let (d, ts) ← asmLayer ts
    match ts with
    | .punct p :: ts =>
      if p = 0x5D#8 then return ([d], ts)
      else if p = 0x2C#8 then do
        let (ds, ts) ← asmLayers fuel ts
        return (d :: ds, ts)
      else .error .grammar
    | _ => .error .grammar

/-- A bracketed layer list (R103). -/
def asmList (ts : List Token) : Except AsmError (List (BitVec 8 × Text) × List Token) :=
  match ts with
  | .punct o :: .punct c :: rest =>
    if o = 0x5B#8 ∧ c = 0x5D#8 then .ok ([], rest) else .error .grammar
  | .punct o :: rest => if o = 0x5B#8 then asmLayers (rest.length + 1) rest else .error .grammar
  | _ => .error .grammar

/-- A program with its text operand: `direction [layers] on "text"` (R103). -/
structure Program where
  dir : Dir
  layers : List (BitVec 8 × Text)
  text : Text
  deriving DecidableEq, Repr

/-- The direction word of R103. -/
def asmDir (t : Text) : Except AsmError Dir :=
  if t = ascii "encrypt" then .ok .encrypt else if t = ascii "decrypt" then .ok .decrypt else .error .grammar

/-- The assembler of R103. -/
def assemble (s : Text) : Except AsmError Program :=
  match tokens .between s with
  | some (.word d :: ts) => do
    let dir ← asmDir d
    let (ds, ts) ← asmList ts
    match ts with
    | [.word o, .str t] => if o = ascii "on" then return ⟨dir, ds, t⟩ else .error .grammar
    | _ => .error .grammar
  | _ => .error .grammar

end Sys2Proof.Machine
end

