-- ==== Sys2Proof/Tests/Slice0.lean ====
section
/-! SUPPORT. Tests with results taken from spec/95_test_vectors.md (cited by their id) or worked out by hand from the rule
cited; ill-formed terms for each check of WellFormed; and for every statement with hypotheses a witness that meets them. -/

namespace Sys2Proof.Tests

open Sys2Proof.Machine

/-! Tests are checked one after another: checked side by side, each keeps a thread and its stack waiting. -/

set_option Elab.async false

/-! ### Helpers -/

/-- A state after reset with the working text and the direction given. -/
def textState (d : Dir) (w : String) : State := { State.reset with w := ascii w, dir := d }

/-- A bit vector written as a string of bits. -/
def bits (s : String) : Bits := (parseBits (ascii s)).getD []

/-- A state after reset with the operand ports of the BVU given. -/
def bvuState (a b : String) : State := { State.reset with bvu := ⟨bits a, bits b, []⟩ }

/-- A state after reset with the S-DES operands given. -/
def sdesState (key block k1 k2 : String) : State :=
  { State.reset with sdes := { SdesRegs.reset with keyv := bits key, blk := bits block, k1 := bits k1, k2 := bits k2 } }

/-- The working text an operation leaves. -/
def outText (o : Host.Outcome State Fault Refusal) : Option Text := (nextState? o).map fun s => s.w

/-- The result port an operation leaves. -/
def outBits (o : Host.Outcome State Fault Refusal) : Option Bits := (nextState? o).map fun s => s.bvu.out

/-- The host's set-up for a run from reset. -/
def runState (d : Dir) (ds : List (BitVec 8 × String)) (t : String) : State :=
  loadRun d (ds.map fun l => (l.1, ascii l.2)) (ascii t) State.reset

/-- What the host receives from RUN. -/
def runOf (s : State) : Option RunOutcome := (nextState? (exec .run s)).bind runOutcome

/-! ### Decoding: words written from R90, R92, R100 to R102 -/

theorem test_decode_layers :
    decode (.layer 0b00000000#8 0 []) = .ok .skip ∧
    decode (.layer 0b00000001#8 1 (ascii "3")) = .ok (.caesar (ascii "3")) ∧
    decode (.layer 0b00000010#8 2 (ascii "qw")) = .ok (.mono (ascii "qw")) ∧
    decode (.layer 0b00000011#8 3 (ascii "key")) = .ok (.vigenere (ascii "key")) ∧
    decode (.layer 0b00000100#8 1 (ascii "3")) = .ok (.railfence (ascii "3")) ∧
    decode (.layer 0b00000101#8 3 (ascii "BAA")) = .ok (.rowcol (ascii "BAA")) ∧
    decode (.layer 0b00000110#8 10 (ascii "1010000010")) = .ok (.des (ascii "1010000010")) ∧
    decode (.layer 0b00000111#8 1 (ascii "k")) = .ok (.playfair (ascii "k")) := by decide

theorem test_decode_permute :
    decode (.bvu 0b00000#5) = .ok (.permute .p10) ∧ decode (.bvu 0b00001#5) = .ok (.permute .p8) ∧
    decode (.bvu 0b00010#5) = .ok (.permute .p4) ∧ decode (.bvu 0b00011#5) = .ok (.permute .ip) ∧
    decode (.bvu 0b00100#5) = .ok (.permute .ipinv) ∧ decode (.bvu 0b00101#5) = .ok (.permute .ep) := by decide

theorem test_decode_bvu :
    decode (.bvu 0b01000#5) = .ok .rotl ∧ decode (.bvu 0b10000#5) = .ok .xor ∧
    decode (.bvu 0b11000#5) = .ok (.sbox .s0) ∧ decode (.bvu 0b11001#5) = .ok (.sbox .s1) := by decide

theorem test_decode_sdesq :
    decode (.sdesq 0b000#3) = .ok .keysched ∧ decode (.sdesq 0b010#3) = .ok (.fk .k1) ∧
    decode (.sdesq 0b011#3) = .ok (.fk .k2) ∧ decode (.sdesq 0b100#3) = .ok .block ∧ decode (.cmd 1#1) = .ok .run := by
  decide

/-- Words R100 to R102 reserve or do not list are refused by name. -/
theorem test_decode_refuses :
    decode (.bvu 0b00110#5) = .error .reservedTable ∧ decode (.bvu 0b00111#5) = .error .reservedTable ∧
    decode (.bvu 0b01001#5) = .error .reservedTsel ∧ decode (.bvu 0b10111#5) = .error .reservedTsel ∧
    decode (.bvu 0b11010#5) = .error .reservedTable ∧ decode (.sdesq 0b001#3) = .error .reservedKsel ∧
    decode (.sdesq 0b101#3) = .error .reservedKsel ∧ decode (.sdesq 0b110#3) = .error .reservedSop ∧
    decode (.sdesq 0b111#3) = .error .reservedSop ∧ decode (.cmd 0#1) = .error .notStart ∧
    decode (.layer 0x01#8 2 (ascii "3")) = .error .keyTruncated := by decide

/-- R98: header bits 7..3 are ignored. V-F16: a skip layer's key is not looked at. -/
theorem test_decode_reserved_bits :
    decode (.layer 0b11111001#8 1 (ascii "3")) = .ok (.caesar (ascii "3")) ∧
    decode (.layer 0b10101000#8 3 (ascii "???")) = .ok .skip := by decide

/-- The words of the opcode table, and the width that is no format. -/
theorem test_table_words :
    decodeTableWord 8 0x06 = some (.des []) ∧ decodeTableWord 5 0x10 = some .xor ∧
    decodeTableWord 3 0x4 = some .block ∧ decodeTableWord 1 1 = some .run ∧ decodeTableWord 16 1 = none := by decide

/-- A placed word is what the next step runs: a DES layer with an empty key takes the fault of V-F9, cause 1 and
algorithm 6. -/
theorem test_place_word :
    (nextState? (step (State.reset.withFetchWord 8 0x00))).map (fun s => s.lp) = some 1 ∧
    (nextState? (step (State.reset.withFetchWord 8 0x06))).bind runOutcome = some (.fault 1#3 0 6#3) ∧
    (nextState? (step (State.reset.withFetchWord 3 0x0))).map (fun s => s.sdes.trace.length) = some 6 ∧
    (nextState? (step (State.reset.withFetchWord 1 1))).bind runOutcome = some (.done [] []) := by decide +kernel

/-- U9: ROTL of the empty vector, the issue of R100 placed after reset. -/
theorem test_place_rotl : step (State.reset.withFetchWord 5 0x08) = .refused .rotlEmpty := rfl

/-! ### Operand forms -/

/-- R94 and V-F3: the integer grammar. -/
theorem test_parse_int :
    parseInt (ascii "-29") = some (-29) ∧ parseInt (ascii "+3") = some 3 ∧ parseInt (ascii "007") = some 7 ∧
    parseInt (ascii "") = none ∧ parseInt (ascii " 3") = none ∧ parseInt (ascii "3.0") = none ∧
    parseInt (ascii "3abc") = none ∧ parseInt (ascii "+") = none ∧ parseInt (ascii "1e2") = none := by decide

/-- R95, R96 and V-S9: whitespace is dropped, any other character is not a bit. -/
theorem test_parse_bits :
    parseBits (ascii " 10 1\n") = some [true, false, true] ∧ parseBits (ascii "102") = none ∧
    showBits [true, false] = ascii "10" := by decide

/-- R10: index 0 is the most significant bit. -/
theorem test_packed : packed (bits "0001") = 1 ∧ packed (bits "1000") = 8 := by decide

/-! ### Bit-vector unit -/

/-- V-B2, V-B3, V-B4 and V-B5. -/
theorem test_permute :
    outBits (exec (.permute .p10) (bvuState "1010000010" "")) = some (bits "1000001100") ∧
    outBits (exec (.permute .ep) (bvuState "0011" "")) = some (bits "10010110") ∧
    outBits (exec (.permute .p8) (bvuState "1111100000" "")) = some (bits "01010100") ∧
    outBits (exec (.permute .ipinv) (bvuState "10010011" "")) = some (bits "11001010") := by decide

/-- V-B1 and V-B6 to V-B9. -/
theorem test_permute_faults :
    permute (bits "10110") [5, 4, 3, 2, 1] = .ok (bits "01101") ∧ permute (bits "1010") [] = .ok [] ∧
    permute (bits "1010") [1, 5] = .error (.raised (.indexOutOfRange 1 5)) ∧
    permute (bits "1010") [0] = .error (.raised (.indexOutOfRange 0 0)) ∧
    permute [] [1] = .error (.raised (.indexOutOfRange 0 1)) := by decide

/-- V-B10. -/
theorem test_rotl :
    outBits (exec .rotl (bvuState "10000" "")) = some (bits "00001") ∧
    outBits (exec .rotl (bvuState "01100" "")) = some (bits "11000") ∧
    outBits (exec .rotl (bvuState "1" "")) = some (bits "1") := by decide

/-- V-B12 and V-B13. -/
theorem test_xor :
    outBits (exec .xor (bvuState "1100" "1010")) = some (bits "0110") ∧ outBits (exec .xor (bvuState "" "")) = some [] ∧
    xorBits (bits "101") (bits "10") = .error (.raised (.lengthMismatch 3 2)) := by decide

/-- V-B14, V-B15 and V-B16. -/
theorem test_sbox :
    outBits (exec (.sbox .s0) (bvuState "1001" "")) = some (bits "11") ∧
    outBits (exec (.sbox .s0) (bvuState "0110" "")) = some (bits "10") ∧
    outBits (exec (.sbox .s1) (bvuState "0110" "")) = some (bits "11") ∧
    (nextState? (exec (.sbox .s0) (bvuState "101" ""))).map (fun s => s.faultCause) = some 2#3 := by decide

/-! ### Substitution engines -/

/-- V-A1, V-C1 and V-C3. -/
theorem test_caesar_encrypt :
    outText (exec (.caesar (ascii "3")) (textState .encrypt "HELLO")) = some (ascii "KHOOR") ∧
    outText (exec (.caesar (ascii "-29")) (textState .encrypt "Hello, World!")) = some (ascii "Ebiil, Tloia!") ∧
    outText (exec (.caesar (ascii "3")) (textState .encrypt "xyz XYZ")) = some (ascii "abc ABC") := by decide +kernel

/-- V-C2 and V-F1. -/
theorem test_caesar_decrypt :
    outText (exec (.caesar (ascii "-29")) (textState .decrypt "Ebiil, Tloia!")) = some (ascii "Hello, World!") ∧
    runOf (runState .encrypt [(1#8, "abc")] "x") = some (.fault 1#3 0 1#3) := by decide +kernel

/-- V-M1 and V-M6. -/
theorem test_mono_encrypt :
    outText (exec (.mono (ascii "qwertyuiopasdfghjklzxcvbnm")) (textState .encrypt "Hello, World!")) =
      some (ascii "itssg, vgksr!") ∧
    outText (exec (.mono (ascii "QWE")) (textState .encrypt "abc")) = some (ascii "QWE") := by decide +kernel

/-- V-M4, for both values of MONO_DUP_WINNER. -/
theorem test_mono_decrypt :
    outText (exec (.mono (ascii "bca")) (textState .decrypt "bca")) = some (ascii "yzx") ∧
    outText (exec (.mono (ascii "bca"))
      { textState .decrypt "bca" with cfg := { defaultConfig with monoDupWinner := .first } }) =
      some (ascii "abc") := by decide +kernel

/-- V-G1 and V-G3: the key pointer does not advance on other characters. -/
theorem test_vigenere_encrypt :
    outText (exec (.vigenere (ascii "lemon")) (textState .encrypt "attackatdawn")) = some (ascii "lxfopvefrnhr") ∧
    outText (exec (.vigenere (ascii "key")) (textState .encrypt "Hello, World!")) = some (ascii "rijvs, uyvjn!") := by
  decide +kernel

/-- V-G4 and V-F5. -/
theorem test_vigenere_decrypt :
    outText (exec (.vigenere (ascii "key")) (textState .decrypt "rijvs, uyvjn!")) = some (ascii "hello, world!") ∧
    runOf (runState .encrypt [(3#8, "k3y")] "abc") = some (.fault 1#3 0 3#3) := by decide +kernel

/-! ### Transposition engines -/

/-- V-A2 and V-R3. -/
theorem test_railfence_encrypt :
    outText (exec (.railfence (ascii "3")) (textState .encrypt "WEAREDISCOVEREDFLEEATONCE")) =
      some (ascii "WECRLTEERDSOEEFEAOCAIVDEN") ∧
    outText (exec (.railfence (ascii "2")) (textState .encrypt "HELLO WORLD")) = some (ascii "HLOWRDEL OL") := by
  decide +kernel

/-- V-R4 and V-R6. -/
theorem test_railfence_decrypt :
    outText (exec (.railfence (ascii "4")) (textState .decrypt "agbfhced")) = some (ascii "abcdefgh") ∧
    outText (exec (.railfence (ascii "-3")) (textState .encrypt "abc")) = some (ascii "abc") := by decide +kernel

/-- V-T2 and V-T6. -/
theorem test_rowcol_encrypt :
    outText (exec (.rowcol (ascii "ZEBRAS")) (textState .encrypt "WEAREDISCOVEREDFLEEATONCE")) =
      some (ascii "EVLNACDTESEAROFODEECWIREE") ∧
    outText (exec (.rowcol (ascii "longerkey")) (textState .encrypt "abc")) = some (ascii "acb") := by decide +kernel

/-- V-T5, and V-T1's duplicate characters. -/
theorem test_rowcol_decrypt :
    outText (exec (.rowcol (ascii "BAA")) (textState .decrypt "BECFADG")) = some (ascii "ABCDEFG") ∧
    columnOrder (ascii "BAA") = [1, 2, 0] ∧ columnOrder (ascii "Key") = [0, 1, 2] := by decide +kernel

/-! ### Playfair engine -/

/-- V-Y8, V-Y10 and V-Y13. -/
theorem test_playfair_encrypt :
    outText (exec (.playfair (ascii "monarchy")) (textState .encrypt "balloon")) = some (ascii "ibsupmna") ∧
    outText (exec (.playfair (ascii "monarchy")) (textState .encrypt "ar")) = some (ascii "rm") ∧
    outText (exec (.playfair (ascii "a")) (textState .encrypt "jazz")) = some (ascii "fdvyvy") := by decide +kernel

/-- V-Y11's decryption, and V-Y3 for both values of PLAYFAIR_KEY_J. -/
theorem test_playfair_decrypt :
    outText (exec (.playfair (ascii "monarchy")) (textState .decrypt "mu")) = some (ascii "ul") ∧
    buildSquare .toI (ascii "jazz") = ascii "iazbcdefghklmnopqrstuvwxy" ∧
    buildSquare .skip (ascii "jazz") = ascii "azbcdefghiklmnopqrstuvwxy" := by decide +kernel

/-! ### S-DES unit -/

/-- V-S1: PK, the rotated halves and both subkeys. -/
theorem test_keysched :
    (nextState? (exec .keysched (sdesState "1010000010" "" "" ""))).map
      (fun s => [s.sdes.pk, s.sdes.hl, s.sdes.hr, s.sdes.k1, s.sdes.k2]) =
      some [bits "1000001100", bits "00100", bits "00011", bits "10100100", bits "01000011"] := by decide +kernel

/-- V-S1: both rounds. -/
theorem test_fk :
    (nextState? (exec (.fk .k1) { State.reset with sdes :=
      { SdesRegs.reset with r := bits "0100", k1 := bits "10100100" } })).map
      (fun s => [s.sdes.epv, s.sdes.xv, s.sdes.sb, s.sdes.fv]) =
      some [bits "00101000", bits "10001100", bits "0001", bits "0100"] ∧
    (nextState? (exec (.fk .k2) { State.reset with sdes :=
      { SdesRegs.reset with r := bits "0011", k2 := bits "01000011" } })).map
      (fun s => [s.sdes.epv, s.sdes.xv, s.sdes.sb, s.sdes.fv]) =
      some [bits "10010110", bits "11010101", bits "1101", bits "1101"] := by decide +kernel

/-- V-S1, and check (a) of the derived laws: the subkeys exchanged undo it. -/
theorem test_block :
    (nextState? (exec .block (sdesState "" "10100101" "10100100" "01000011"))).map
      (fun s => [s.sdes.ipv, s.sdes.pre, s.sdes.outv]) =
      some [bits "01110100", bits "10010011", bits "11001010"] ∧
    (nextState? (exec .block (sdesState "" "11001010" "01000011" "10100100"))).map (fun s => s.sdes.outv) =
      some (bits "10100101") := by decide +kernel

/-- V-S9 and V-S10. -/
theorem test_des :
    outText (exec (.des (ascii "10100 00010")) (textState .encrypt " 1010 0101\n")) = some (ascii "11001010") ∧
    outText (exec (.des (ascii "1010000010")) (textState .decrypt "10100101")) = some (ascii "11001010") := by
  decide +kernel

/-- V-S2 and the trace of V-S1: its first two lines, its last line, and its 333 characters. -/
theorem test_des_trace :
    outText (exec (.des (ascii "1010000010")) (textState .encrypt "11001010")) = some (ascii "10110001") ∧
    (nextState? (exec (.des (ascii "1010000010")) (textState .encrypt "10100101"))).map
      (fun s => ((renderAll s.traceAcc).length, (renderAll s.traceAcc).take 42, (renderAll s.traceAcc).drop 318)) =
      some (333, ascii "Key P10: 1000001100\nKey split: 10000 01100", ascii "\nIP-1: 11001010") := by decide +kernel

/-! ### Sequencer -/

/-- R283: nothing but the advance of LP. -/
theorem test_skip :
    (nextState? (exec .skip (textState .encrypt "abc"))).map (fun s => (s.lp, s.w)) = some (1, ascii "abc") := by decide

/-- V-P1, both directions. -/
theorem test_run :
    runOf (runState .encrypt [(1#8, "1"), (3#8, "key")] "abc") = some (.done (ascii "lgb") []) ∧
    runOf (runState .decrypt [(1#8, "1"), (3#8, "key")] "lgb") = some (.done (ascii "abc") []) := by decide +kernel

/-- V-F6: the first fault in processing order, with its table index; V-F15; V-P5: START directly after reset. -/
theorem test_run_faults :
    runOf (runState .encrypt [(1#8, "x"), (4#8, "y")] "abc") = some (.fault 1#3 0 1#3) ∧
    runOf (runState .decrypt [(1#8, "x"), (4#8, "y")] "abc") = some (.fault 1#3 1 4#3) ∧
    runOf (runState .encrypt [(7#8, "k"), (6#8, "1010000010")] "10100101") = some (.fault 4#3 1 6#3) ∧
    runOf State.reset = some (.done [] []) := by decide +kernel

/-- V-P4: the encrypt run, and the decrypt run that reverses the layers. -/
theorem test_run_reverses :
    runOf (runState .encrypt [(7#8, "monarchy"), (1#8, "13")] "instruments") = some (.done (ascii "tngyzmpyedkn") []) ∧
    runOf (runState .decrypt [(7#8, "monarchy"), (1#8, "13")] "tngyzmpyedkn") = some (.done (ascii "instrumentsx") []) := by
  decide +kernel

/-- V-P4's false variant (R292): the decrypt directions in table order give another text. -/
theorem test_false_variant :
    decryptInTableOrder defaultConfig [(.playfair, ascii "monarchy"), (.caesar, ascii "13")] (ascii "tngyzmpyedkn") =
      .ok (ascii "delaheduxpte", []) := by decide +kernel

/-- U20: P10 with an entry 11. -/
theorem test_malformed_table :
    runOf { runState .encrypt [(6#8, "1010000010")] "10100101" with
      cfg := { defaultConfig with p10 := [3, 5, 2, 7, 4, 11, 1, 9, 8, 6] } } = some (.fault 3#3 0 6#3) := by decide +kernel

/-- R103, with V-P2's program. -/
theorem test_assemble :
    assemble (ascii "encrypt [RailFence(key=3), Skip, Des(key=\"10\")] on \"Attack\"") =
      .ok ⟨.encrypt, [(4#8, ascii "3"), (0#8, []), (6#8, ascii "10")], ascii "Attack"⟩ ∧
    assemble (ascii "decrypt [Rot(key=3)] on \"a\"") = .error .unknownName := by decide +kernel

/-! ### Ill-formed terms, one for each check of WellFormed -/

theorem test_illformed_keys :
    (Instr.caesar (ascii "3x")).wellFormed = false ∧ (Instr.mono (ascii "abc")).wellFormed = false ∧
    (Instr.mono (ascii "0bcdefghijklmnopqrstuvwxyz")).wellFormed = false ∧ (Instr.vigenere []).wellFormed = false ∧
    (Instr.vigenere (ascii "k3y")).wellFormed = false ∧ (Instr.railfence (ascii "1")).wellFormed = false ∧
    (Instr.railfence (ascii "x")).wellFormed = false ∧ (Instr.rowcol []).wellFormed = false ∧
    (Instr.des (ascii "101")).wellFormed = false ∧ (Instr.des (ascii "101000001x")).wellFormed = false ∧
    (Instr.playfair []).wellFormed = false := by decide +kernel

/-- R344's list: a repeated letter, a letter outside a..z, a key that is not of 26 letters, and a `j` of either case. -/
theorem test_illformed_keys_undetected :
    (Instr.mono (ascii "aacdefghijklmnopqrstuvwxyz")).wellFormed = false ∧
    (Instr.mono (ascii "Abcdefghijklmnopqrstuvwxyz")).wellFormed = false ∧
    (Instr.mono (ascii "abcdefghijklmnopqrstuvwxyz0")).wellFormed = false ∧
    (Instr.playfair (ascii "jazz")).wellFormed = false ∧ (Instr.playfair (ascii "Jazz")).wellFormed = false := by
  decide +kernel

theorem test_wellformed_keys :
    (Instr.caesar (ascii "-3")).wellFormed = true ∧ (Instr.mono alphabet).wellFormed = true ∧
    (Instr.vigenere (ascii "Key")).wellFormed = true ∧ (Instr.railfence (ascii "2")).wellFormed = true ∧
    (Instr.rowcol (ascii "k")).wellFormed = true ∧ (Instr.des (ascii "10100 00010")).wellFormed = true ∧
    (Instr.playfair (ascii "1")).wellFormed = true := by decide +kernel

theorem test_illformed_tables :
    Config.wellFormed { defaultConfig with p10 := [3, 5, 2, 7, 4, 11, 1, 9, 8, 6] } = false ∧
    Config.wellFormed { defaultConfig with p8 := [6, 3, 7, 4, 8, 5, 10] } = false ∧
    Config.wellFormed { defaultConfig with ip := [2, 6, 3, 1, 4, 8, 5, 0] } = false ∧
    Config.wellFormed { defaultConfig with ipinv := [4, 1, 3, 5, 7, 2, 8, 9] } = false ∧
    Config.wellFormed { defaultConfig with ep := [4, 1, 2, 3, 2, 3, 4, 5] } = false ∧
    Config.wellFormed { defaultConfig with p4 := [2, 4, 3, 1, 1] } = false ∧
    Config.ipInverse { defaultConfig with ipinv := [1, 4, 3, 5, 7, 2, 8, 6] } = false := by decide

/-! ### Witnesses: for each statement with hypotheses, states and operands that meet them, each clause at its boundaries -/

/-- An outcome that is a next state meeting a check. -/
theorem next_of_any {o : Host.Outcome State Fault Refusal} {p : State → Bool} (h : (nextState? o).any p = true) :
    ∃ t, o = .next t ∧ p t = true := by
  cases o with
  | next t => exact ⟨t, rfl, by simpa [nextState?] using h⟩
  | fault r => simp [nextState?] at h
  | refused r => simp [nextState?] at h

theorem witness_EncodeRecoversDecodedWord :
    decode (.layer 0xF8#8 3 (ascii "???")) = .ok .skip ∧ decode (.layer 0xF9#8 1 (ascii "3xy")) = .ok (.caesar (ascii "3")) ∧
    decode (.bvu 0b11001#5) = .ok (.sbox .s1) ∧ decode (.sdesq 0b100#3) = .ok .block ∧ decode (.cmd 1#1) = .ok .run := by
  decide

theorem witness_DecodableWords :
    1 ≤ (ascii "3").length ∧ 0 ≤ (ascii "").length ∧ algField 0x01#8 = algField 0xF9#8 := by decide

/-- PERMUTE: entries at both ends of the range; an entry 0, an entry past the end, and no earlier bad entry. -/
theorem witness_PermuteResult :
    (∀ e ∈ permTable State.reset.cfg .p4, 1 ≤ e ∧ e ≤ ((bvuState "0011" "").bvu.a.length : Int)) ∧
    (permTable State.reset.cfg .ip)[1]? = some 6 ∧ ((bvuState "10100" "").bvu.a.length : Int) < 6 ∧
    (∀ j < 1, ∀ e', (permTable State.reset.cfg .ip)[j]? = some e' →
      1 ≤ e' ∧ e' ≤ ((bvuState "10100" "").bvu.a.length : Int)) ∧
    (permTable { defaultConfig with p4 := [0, 1] } .p4)[0]? = some 0 := by
  refine ⟨by decide, by decide, by decide, fun j hj e' he => ?_, by decide⟩
  obtain rfl : j = 0 := by omega
  obtain rfl : 2 = e' := by simpa [permTable, State.reset, defaultConfig] using he
  decide

theorem witness_RotlResult :
    (bvuState "1" "").bvu.a ≠ [] ∧ (bvuState "10000" "").bvu.a ≠ [] ∧ (bvuState "" "").bvu.a = [] := by decide

theorem witness_XorResult :
    (bvuState "" "").bvu.a.length = (bvuState "" "").bvu.b.length ∧
    (bvuState "1100" "1010").bvu.a.length = (bvuState "1100" "1010").bvu.b.length ∧
    (bvuState "101" "10").bvu.a.length ≠ (bvuState "101" "10").bvu.b.length := by decide

theorem witness_SboxResult :
    (bvuState "1001" "").bvu.a = [true, false, false, true] ∧ (bvuState "101" "").bvu.a.length ≠ 4 ∧
    (bvuState "10110" "").bvu.a.length ≠ 4 := by decide

theorem witness_KeyScheduleResult : State.reset.cfg.wellFormed ∧ State.reset.sdes.keyv.length = 10 := by decide

theorem witness_RoundFunctionResult :
    State.reset.cfg.wellFormed ∧ State.reset.sdes.r.length = 4 ∧ (subkeyReg State.reset.sdes .k1).length = 8 ∧
    (subkeyReg State.reset.sdes .k2).length = 8 := by decide

theorem witness_BlockResult :
    State.reset.cfg.wellFormed ∧ State.reset.cfg.ipInverse ∧ State.reset.sdes.blk.length = 8 ∧
    State.reset.sdes.k1.length = 8 ∧ State.reset.sdes.k2.length = 8 := by decide

theorem witness_BlockUndoneBySwappedSubkeys :
    (sdesState "1010000010" "10100101" "10100100" "01000011").cfg.ipInverse ∧
    (sdesState "1010000010" "10100101" "10100100" "01000011").cfg.wellFormed ∧
    (sdesState "1010000010" "10100101" "10100100" "01000011").sdes.blk.length = 8 ∧
    (sdesState "1010000010" "10100101" "10100100" "01000011").sdes.k1.length = 8 ∧
    (sdesState "1010000010" "10100101" "10100100" "01000011").sdes.k2.length = 8 := by decide

theorem witness_DesResult :
    (textState .encrypt " 1010 0101").cfg.wellFormed ∧ parseBits (ascii "10100 00010") = some (bits "1010000010") ∧
    (bits "1010000010").length = 10 ∧ parseBits (textState .encrypt " 1010 0101").w = some (bits "10100101") ∧
    (bits "10100101").length = 8 := by decide

theorem witness_DesIgnoresDirection :
    ∃ t, exec (.des (ascii "1010000010")) { textState .encrypt "10100101" with dir := .encrypt } = .next t ∧
      t.status ≠ .fault := by
  obtain ⟨t, h, h'⟩ := next_of_any (o := exec (.des (ascii "1010000010"))
    { textState .encrypt "10100101" with dir := .encrypt }) (p := fun t => t.status != .fault) (by decide +kernel)
  exact ⟨t, h, by simpa using h'⟩

theorem witness_CaesarResult :
    parseInt (ascii "-29") = some (-29) ∧ parseInt (ascii "0") = some 0 ∧ parseInt (ascii "26") = some 26 := by decide

theorem witness_CaesarRoundTrip : parseInt (ascii "-1") = some (-1) := by decide

theorem witness_CaesarKeyModulo26 :
    parseInt (ascii "3") = some 3 ∧ parseInt (ascii "29") = some 29 ∧ (3 : Int) % 26 = 29 % 26 ∧
    parseInt (ascii "-3") = some (-3) ∧ (-3 : Int) = -3 := by decide

/-- MONO: a non-empty key; a key character standing for several letters, with its last and its first; a character of no key
position. -/
theorem witness_MonoResult :
    ascii "bca" ≠ [] ∧ (∀ j < 26, (ascii "bca")[j % 3]? = some 0x62#8 → j ≤ 24) ∧ (ascii "bca")[24 % 3]? = some 0x62#8 ∧
    (∀ j < 26, (ascii "bca")[j % 3]? = some 0x62#8 → 0 ≤ j) ∧ (ascii "bca")[0 % 3]? = some 0x62#8 ∧
    ∀ k < 26, (ascii "bca")[k % 3]? ≠ some 0x7A#8 := by decide

theorem witness_MonoRoundTrip : ((ascii "qwertyuiopasdfghjklzxcvbnm0").take 26).Perm alphabet := by decide +kernel

theorem witness_VigenereResult : ascii "KeY" ≠ [] ∧ ∀ c ∈ ascii "KeY", isAlpha c := by decide

theorem witness_VigenereRoundTrip : ascii "a" ≠ [] ∧ ∀ c ∈ ascii "a", isAlpha c := by decide

theorem witness_RailfenceResult :
    parseInt (ascii "1") = some 1 ∧ (1 : Int) ≤ 1 ∧ parseInt (ascii "2") = some 2 ∧ (2 : Int) ≤ 2 := by decide

theorem witness_RailfenceMarkHoldsOutput :
    parseInt (ascii "4") = some 4 ∧ (2 : Int) ≤ 4 ∧ (textState .decrypt "agbfhced").dir = .decrypt ∧
    ∃ t, exec (.railfence (ascii "4")) (textState .decrypt "agbfhced") = .next t := by
  obtain ⟨t, h, _⟩ := next_of_any (o := exec (.railfence (ascii "4")) (textState .decrypt "agbfhced"))
    (p := fun _ => true) (by decide +kernel)
  exact ⟨by decide, by decide, by decide, t, h⟩

theorem witness_RailfenceRoundTrip :
    parseInt (ascii "-7") = some (-7) ∧ parseInt (ascii "3") = some 3 := by decide

theorem witness_RowcolResult : ascii "BAA" ≠ [] ∧ ascii "k" ≠ [] := by decide

theorem witness_RowcolRoundTrip : ascii "ZEBRAS" ≠ [] := by decide

/-- PLAYFAIR: a key, and digraphs in one row, in one column and in neither. -/
theorem witness_PlayfairResult :
    ascii "monarchy" ≠ [] ∧ (digraphs (ascii "armuhi"))[0]? = some (0x61#8, 0x72#8) ∧
    (digraphs (ascii "armuhi"))[1]? = some (0x6D#8, 0x75#8) ∧
    (digraphs (ascii "armuhi"))[2]? = some (0x68#8, 0x69#8) := by decide

theorem witness_PlayfairOutputLetters :
    ∃ t, exec (.playfair (ascii "monarchy")) (textState .encrypt "balloon") = .next t ∧ t.status ≠ .fault := by
  obtain ⟨t, h, h'⟩ := next_of_any (o := exec (.playfair (ascii "monarchy")) (textState .encrypt "balloon"))
    (p := fun t => t.status != .fault) (by decide +kernel)
  exact ⟨t, h, by simpa using h'⟩

/-- V-Y9's text meets the conditions of R207; so does one whose repeated letters stand across a pair boundary. -/
theorem witness_PlayfairRoundTrip :
    ascii "monarchy" ≠ [] ∧ (normalise (ascii "ab, BA")).length % 2 = 0 ∧
    ∀ (m : Nat) (a b : Chr), (normalise (ascii "ab, BA"))[2 * m]? = some a →
      (normalise (ascii "ab, BA"))[2 * m + 1]? = some b → a ≠ b := by
  have hn : normalise (ascii "ab, BA") = [0x61#8, 0x62#8, 0x62#8, 0x61#8] := by decide
  refine ⟨by decide, by decide, fun m a b ha hb => ?_⟩
  rw [hn] at ha hb
  match m with
  | 0 => simp at ha hb; subst ha hb; decide
  | 1 => simp at ha hb; subst ha hb; decide
  | m + 2 => simp [Nat.mul_add] at ha

theorem witness_SkipResult :
    algField 0xF8#8 = 0#3 ∧ (runState .encrypt [(0#8, ""), (0#8, "")] "abc").status ≠ .busy ∧
    memReadText (runState .encrypt [(0#8, ""), (0#8, "")] "abc").textIn
      (runState .encrypt [(0#8, ""), (0#8, "")] "abc").tlen = some (ascii "abc") ∧
    tableLayers (runState .encrypt [(0#8, ""), (0#8, "")] "abc") = some [(.skip, []), (.skip, [])] ∧
    ∀ l ∈ [((.skip, []) : Layer), (.skip, [])], l.1 = .skip := by decide

/-- One state for each clause of StepRunsDecodedInstruction, the layer clause at the last layer. -/
theorem witness_StepRunsDecodedInstruction :
    (State.reset.withFetchWord 5 0x10).issue = some (.bvu 0b10000#5) ∧ decode (.bvu 0b10000#5) = .ok .xor ∧
    (State.reset.withFetchWord 3 0x4).issue = some (.sdesq 0b100#3) ∧ decode (.sdesq 0b100#3) = .ok .block ∧
    ((State.reset.withFetchWord 8 0x05).issue = none ∧ (State.reset.withFetchWord 8 0x05).status = .busy ∧
      (State.reset.withFetchWord 8 0x05).lp < (State.reset.withFetchWord 8 0x05).nlayers ∧
      fetchLayer (State.reset.withFetchWord 8 0x05) = some (.layer 0x05#8 0 []) ∧
      decode (.layer 0x05#8 0 []) = .ok (.rowcol [])) ∧
    ((State.reset.withFetchWord 1 1).issue = none ∧ (State.reset.withFetchWord 1 1).status ≠ .busy ∧
      (State.reset.withFetchWord 1 1).start = true) ∧
    ((beginRun [] State.reset).issue = none ∧ (beginRun [] State.reset).status = .busy ∧
      (beginRun [] State.reset).nlayers ≤ (beginRun [] State.reset).lp) ∧
    State.reset.issue = none ∧ State.reset.status ≠ .busy ∧ State.reset.start = false := by decide

theorem witness_FetchedLayerDispatch :
    fetchLayer (runState .decrypt [(0#8, ""), (0xF9#8, "1")] "abc") = some (.layer 0xF9#8 1 (ascii "1")) ∧
    fetchLayer (runState .encrypt [(0#8, ""), (0xF9#8, "1")] "abc") = some (.layer 0#8 0 []) := by decide

/-- RunIsPipeline: the case of DONE, the case of a raised fault, and the refused case, which an empty P10 gives. -/
theorem witness_RunIsPipeline :
    (runState .encrypt [(1#8, "1")] "abc").status ≠ .busy ∧
    memReadText (runState .encrypt [(1#8, "1")] "abc").textIn 3 = some (ascii "abc") ∧
    tableLayers (runState .encrypt [(1#8, "1")] "abc") = some [(.caesar, ascii "1")] ∧
    pipeline defaultConfig .encrypt (processingOrder .encrypt [(.caesar, ascii "1")]) (ascii "abc") [] =
      .ok (ascii "bcd", []) ∧
    pipeline defaultConfig .encrypt (processingOrder .encrypt [(.caesar, ascii "x")]) (ascii "abc") [] =
      .error ⟨.raised .invalidKeyFormat, 0, .caesar⟩ ∧
    pipeline { defaultConfig with p10 := [] } .encrypt (processingOrder .encrypt [(.des, ascii "1010000010")])
      (ascii "10100101") [] = .error ⟨.refused .rotlEmpty, 0, .des⟩ := by decide +kernel

theorem witness_RunEndsInDoneOrFault :
    (runState .encrypt [(1#8, "x")] "").status ≠ .busy ∧ inputsWritten (runState .encrypt [(1#8, "x")] "") ∧
    (runState .encrypt [(1#8, "x")] "").cfg.wellFormed ∧ State.reset.status ≠ .busy ∧ inputsWritten State.reset := by decide

theorem witness_RunNotStarted :
    (beginRun [] State.reset).status = .busy ∧ ({ State.reset with tlen := 1 } : State).status ≠ .busy ∧
    inputsWritten { State.reset with tlen := 1 } = false ∧ inputsWritten { State.reset with nlayers := 1 } = false := by
  decide

theorem witness_StepsComputeRun :
    (runState .encrypt [(1#8, "1"), (0#8, "")] "abc").status ≠ .busy ∧
    (runState .encrypt [(1#8, "1"), (0#8, "")] "abc").issue = none ∧
    inputsWritten (runState .encrypt [(1#8, "1"), (0#8, "")] "abc") ∧
    memReadText (runState .encrypt [(1#8, "1"), (0#8, "")] "abc").textIn
      (runState .encrypt [(1#8, "1"), (0#8, "")] "abc").tlen = some (ascii "abc") := by decide

/-- Two states that read the same inputs and differ past TLEN, NLAYERS and KLEN, in a SKIP layer's key, and in W, LP, scratch,
status and outputs; and two whose text was not all written. -/
theorem witness_RunDependsOnInputsOnly :
    (let s := runState .encrypt [(1#8, "1"), (0#8, "")] "abc"
     let t : State := { runState .encrypt [(1#8, "1xy"), (0xF8#8, "???"), (2#8, "q")] "abcdef" with
       tlen := 3, nlayers := 2, start := false, status := .fault, faultCause := 1#3, w := ascii "x", lp := 3, rlen := 2
       layers := cellsWrite (runState .encrypt [(1#8, "1xy"), (0xF8#8, "???"), (2#8, "q")] "").layers 0
         ⟨some 1#8, some 1, memOfText (ascii "1xy")⟩ }
     s ≠ t ∧ memReadText s.textIn s.tlen = memReadText t.textIn t.tlen ∧ tableLayers s = tableLayers t ∧
       tableLayers s = some [(.caesar, ascii "1"), (.skip, [])] ∧ s.dir = t.dir ∧ s.cfg = t.cfg ∧
       s.status ≠ .busy ∧ t.status ≠ .busy) ∧
    memReadText State.reset.textIn 1 = none := by decide +kernel

/-- V-P1's first layer and a skip: each undone by its decrypt direction. -/
theorem witness_RoundTripContract :
    (runState .encrypt [(1#8, "1"), (0#8, "")] "abc").status ≠ .busy ∧
    (runState .encrypt [(1#8, "1"), (0#8, "")] "abc").dir = .encrypt ∧
    memReadText (runState .encrypt [(1#8, "1"), (0#8, "")] "abc").textIn 3 = some (ascii "abc") ∧
    tableLayers (runState .encrypt [(1#8, "1"), (0#8, "")] "abc") = some [(.caesar, ascii "1"), (.skip, [])] ∧
    undoneLayerByLayer defaultConfig [(.caesar, ascii "1"), (.skip, [])] (ascii "abc") :=
  ⟨by decide, by decide, by decide, by decide, ascii "bcd", by decide +kernel, by decide +kernel,
    ascii "bcd", by decide, by decide, trivial⟩

/-- TraceEmptyWithoutDes: a completed run without a DES layer and one with it. -/
theorem witness_TraceEmptyWithoutDes :
    tableLayers (runState .encrypt [(1#8, "3")] "10100101") = some [(.caesar, ascii "3")] ∧
    (∃ t, exec .run (runState .encrypt [(1#8, "3")] "10100101") = .next t ∧ (t.status == .done && t.trlen == 0) = true) ∧
    tableLayers (runState .encrypt [(6#8, "1010000010")] "10100101") = some [(.des, ascii "1010000010")] ∧
    ∃ t, exec .run (runState .encrypt [(6#8, "1010000010")] "10100101") = .next t ∧
      (t.status == .done && t.trlen == 333) = true :=
  ⟨by decide, next_of_any (by decide +kernel), by decide, next_of_any (by decide +kernel)⟩

/-- RunFrame: a run that ends in DONE, one that faults, and a START that is ignored. -/
theorem witness_RunFrame :
    (∃ t, exec .run State.reset = .next t ∧ (t.status == .done) = true) ∧
    (∃ t, exec .run (runState .encrypt [(1#8, "x")] "") = .next t ∧ (t.status == .fault) = true) ∧
    ∃ t, exec .run (beginRun [] State.reset) = .next t ∧ (t.status == .busy) = true :=
  ⟨next_of_any (by decide +kernel), next_of_any (by decide +kernel), next_of_any (by decide +kernel)⟩

/-- A key for each clause of MalformedLayersTakeTheirFault, and a block of seven and of nine bits. -/
theorem witness_MalformedLayersTakeTheirFault :
    parseInt (ascii "3.0") = none ∧ (∃ c ∈ ascii "k3y", isAlpha c = false) ∧ isBitString 10 (ascii "101000001") = false ∧
    isBitString 10 (ascii "10100000102") = false ∧ isBitString 10 (ascii "1010000010") = true ∧
    isBitString 8 (textState .encrypt "1010010").w = false ∧
    isBitString 8 (textState .encrypt "101001011").w = false := by decide

theorem witness_LayersAlwaysAnswer : (textState .encrypt "abc").cfg.wellFormed := by decide

/-- LayerFrame: a layer that completes and one that faults, without and with DES. -/
theorem witness_LayerFrame :
    (∃ t, exec (Instr.ofLayer .caesar (ascii "3")) (textState .encrypt "abc") = .next t ∧ (t.lp == 1) = true) ∧
    (∃ t, exec (Instr.ofLayer .mono []) (textState .encrypt "abc") = .next t ∧ (t.status == .fault) = true) ∧
    ∃ t, exec (Instr.ofLayer .des (ascii "1010000010")) (textState .encrypt "10100101") = .next t ∧ (t.lp == 1) = true :=
  ⟨next_of_any (by decide +kernel), next_of_any (by decide +kernel), next_of_any (by decide +kernel)⟩

/-- InternalOperationFrame: a BVU operation, one that faults, and the S-DES operations. -/
theorem witness_InternalOperationFrame :
    (Instr.xor).layer? = none ∧ Instr.xor ≠ .run ∧ (Instr.block).layer? = none ∧ Instr.block ≠ .run ∧
    (∃ t, exec .xor (bvuState "1100" "1010") = .next t ∧ (t.status == .idle) = true) ∧
    (∃ t, exec .xor (bvuState "101" "10") = .next t ∧ (t.status == .fault) = true) ∧
    (∃ t, exec .keysched State.reset = .next t ∧ (t.status == .idle) = true) ∧
    ∃ t, exec (.fk .k1) State.reset = .next t ∧ (t.status == .idle) = true :=
  ⟨by decide, by decide, by decide, by decide, next_of_any (by decide +kernel), next_of_any (by decide +kernel),
    next_of_any (by decide +kernel), next_of_any (by decide +kernel)⟩

/-- The invariants at a state in the middle of a run, from which a step gives a next state. -/
theorem witness_StepInvariants :
    (beginRun (ascii "abc") (runState .encrypt [(1#8, "1"), (0#8, "")] "abc")).memoryWf ∧
    (beginRun (ascii "abc") (runState .encrypt [(1#8, "1"), (0#8, "")] "abc")).faultRegsOk ∧
    (beginRun (ascii "abc") (runState .encrypt [(1#8, "1"), (0#8, "")] "abc")).cfg.wellFormed ∧
    (beginRun (ascii "abc") (runState .encrypt [(1#8, "1"), (0#8, "")] "abc")).sdes.widths ∧
    (beginRun (ascii "abc") (runState .encrypt [(1#8, "1"), (0#8, "")] "abc")).pointerOk ∧
    (beginRun (ascii "abc") (runState .encrypt [(1#8, "1"), (0#8, "")] "abc")).outputsOk ∧
    (beginRun (ascii "abc") (runState .encrypt [(1#8, "1"), (0#8, "")] "abc")).tracesOk ∧
    ∃ t, step (beginRun (ascii "abc") (runState .encrypt [(1#8, "1"), (0#8, "")] "abc")) = .next t ∧
      (t.lp == 1) = true := by
  refine ⟨?_, ?_, by decide, ?_, ?_, ?_, ?_, next_of_any (by decide +kernel)⟩
  · unfold State.memoryWf; decide
  · unfold State.faultRegsOk; decide
  · unfold SdesRegs.widths; decide
  · unfold State.pointerOk; decide
  · unfold State.outputsOk; decide
  · unfold State.tracesOk; decide

/-- HostRegisterAccess: no run in each of the states IDLE, DONE and FAULT, both directions, a read-only register at each end
of its range, and the first number past the registers. -/
theorem witness_HostRegisterAccess :
    (runInProgress State.reset = false ∧ State.reset.status = .idle ∧ State.reset.dir = .encrypt ∧
      State.reset.status ≠ .done ∧ State.reset.status ≠ .fault) ∧
    (runInProgress (finishRun State.reset) = false ∧ (finishRun State.reset).status = .done) ∧
    (runInProgress (takeFault .invalidKeyFormat .caesar State.reset) = false ∧
      (takeFault .invalidKeyFormat .caesar State.reset).status = .fault) ∧
    (runInProgress { State.reset with dir := .decrypt } = false ∧ ({ State.reset with dir := .decrypt } : State).dir = .decrypt) ∧
    ((1 : Nat) = 1 ∨ 5 ≤ 1 ∧ 1 ≤ 9) ∧ ((5 : Nat) = 1 ∨ 5 ≤ 5 ∧ 5 ≤ 9) ∧ ((9 : Nat) = 1 ∨ 5 ≤ 9 ∧ 9 ≤ 9) ∧ 10 ≤ 10 := by
  decide

theorem witness_InputsFrozenDuringRun :
    runInProgress { State.reset with start := true } = true ∧ runInProgress (beginRun [] State.reset) = true ∧ 9 ≤ 9 := by
  decide

/-- HostBufferWrites: a written table, the entry and key element written and others beside them. -/
theorem witness_HostBufferWrites :
    runInProgress { runState .encrypt [(1#8, "1"), (3#8, "key")] "abc" with start := false } = false ∧
    { runState .encrypt [(1#8, "1"), (3#8, "key")] "abc" with start := false }.memoryWf ∧ (0 : Nat) ≠ 1 ∧ (2 : Nat) ≠ 1 := by
  unfold State.memoryWf; decide

end Sys2Proof.Tests
end

section
/-! PROOF. When a Layer operation gives no value (spec/00_scope.md R14, spec/44_sdes.md R233, spec/60_exceptions.md R311,
R314). -/

namespace Sys2Proof.Machine

/-- A mapped computation gives no value exactly when the computation gives none. -/
theorem except_map_error {ε α β : Type} {f : α → β} {x : Except ε α} {e : ε} (h : x.map f = .error e) : x = .error e := by
  cases x <;> cases h
  rfl

/-- An engine other than DES stops on its key format only, whatever the configuration (R311). -/
theorem engineText_error {c : Config} {alg : Alg} {key : Text} {d : Dir} {w : Text} {e : Stop} (hd : alg ≠ .des)
    (h : engineText c alg key d w = .error e) : e = .raised .invalidKeyFormat := by
  cases alg with
  | skip => cases h
  | caesar =>
    have h := except_map_error h
    unfold caesarEngine at h
    split at h <;> cases h
    rfl
  | mono =>
    have h := except_map_error h
    unfold monoEngine at h
    split at h <;> cases h
    rfl
  | vigenere =>
    have h := except_map_error h
    unfold vigenereEngine at h
    split at h <;> cases h
    rfl
  | railfence =>
    have h := except_map_error h
    unfold railfenceEngine at h
    split at h
    · cases h
      rfl
    · split at h <;> cases h
  | rowcol =>
    have h := except_map_error h
    unfold rowcolEngine at h
    split at h <;> cases h
    rfl
  | des => exact absurd rfl hd
  | playfair =>
    have h := except_map_error h
    unfold playfairEngine at h
    split at h <;> cases h
    rfl

/-- A bit string of a length has that length. -/
theorem bitsOfLength_length {n : Nat} {t : Text} {v : Bits} (h : bitsOfLength n t = some v) : v.length = n := by
  unfold bitsOfLength at h
  split at h
  · split at h
    · cases h
      assumption
    · cases h
  · cases h

/-- With well-formed tables a DES layer stops on the format of its key or of its block only: KEYSCHED and BLOCK answer
(R233, R311, R314). -/
theorem desEngine_error {c : Config} {key w : Text} {r : SdesRegs} {e : Stop} (hc : c.wellFormed)
    (h : desEngine c key w r = .error e) : e = .raised .invalidKeyFormat ∨ e = .raised .invalidBlockFormat := by
  unfold desEngine at h
  split at h
  · cases h
    exact .inl rfl
  · next kv hkv =>
    split at h
    · cases h
      exact .inr rfl
    · next bv hbv =>
      have hkey : kv.length = 10 := bitsOfLength_length hkv
      have hblk : bv.length = 8 := bitsOfLength_length hbv
      obtain ⟨hk1, hk2⟩ := subkeys_length hc kv
      rw [keySchedule_ok hc hkey] at h
      simp only [bind, Except.bind] at h
      rw [processBlock_ok hc hblk hk1 hk2] at h
      cases h

/-- With well-formed tables an engine that gives no value has raised one of the two format faults. -/
theorem engineText_error_of_wf {c : Config} {alg : Alg} {key : Text} {d : Dir} {w : Text} {e : Stop} (hc : c.wellFormed)
    (h : engineText c alg key d w = .error e) : e = .raised .invalidKeyFormat ∨ e = .raised .invalidBlockFormat := by
  by_cases hd : alg = .des
  · subst hd
    exact desEngine_error hc (except_map_error h)
  · exact .inl (engineText_error hd h)

/-- Settles O48: a Layer operation is its engine's function, which stops on the two format faults only. -/
theorem layersAlwaysAnswer : Obligations.LayersAlwaysAnswer := by
  unfold Obligations.LayersAlwaysAnswer
  intro alg key s hc
  have hd := dispatchLayer_engineText alg key s
  rw [exec_ofLayer]
  cases he : engineText s.cfg alg key s.dir s.w with
  | ok r =>
    rw [he] at hd
    obtain ⟨eng, sdes, hd⟩ := hd
    exact ⟨_, hd, fun hf => .inl hf⟩
  | error e =>
    rw [he] at hd
    rcases engineText_error_of_wf hc he with rfl | rfl
    · exact ⟨_, hd, fun _ => .inr (.inl rfl)⟩
    · exact ⟨_, hd, fun _ => .inr (.inr rfl)⟩

end Sys2Proof.Machine
end

section
/-! PROOF. The loop of a run is the pipeline of spec/45_pipeline.md R281 and R282 over the layers of the table: said once, for
every state of a run and every outcome of the pipeline. -/

namespace Sys2Proof.Machine

/-! ### What a run reads -/

/-- A computation over a list answers when it answers on every element. -/
theorem mapM_isSome {α β : Type} {f : α → Option β} {l : List α} (h : ∀ a ∈ l, (f a).isSome) : (l.mapM f).isSome := by
  induction l with
  | nil => rfl
  | cons a l ih =>
    obtain ⟨b, hb⟩ := Option.isSome_iff_exists.1 (h a List.mem_cons_self)
    obtain ⟨r, hr⟩ := Option.isSome_iff_exists.1 (ih fun x hx => h x (List.mem_cons_of_mem _ hx))
    simp [List.mapM_cons, hb, hr]

/-- The inputs of a run are written exactly when the text and the table can be read (R38). -/
theorem inputsWritten_iff {s : State} : inputsWritten s = true ↔
    ∃ text ls, memReadText s.textIn s.tlen = some text ∧ tableLayers s = some ls := by
  constructor
  · intro h
    simp only [inputsWritten, Bool.and_eq_true, List.all_eq_true] at h
    obtain ⟨htext, htable⟩ := h
    obtain ⟨text, htext⟩ := Option.isSome_iff_exists.1 htext
    have hls : (tableLayers s).isSome := mapM_isSome fun i hi => by
      obtain ⟨w, hw⟩ := Option.isSome_iff_exists.1 (htable i hi)
      obtain ⟨alg, key, -, hl, -⟩ := readDescriptor_decode hw
      simp [hw, hl]
    obtain ⟨ls, hls⟩ := Option.isSome_iff_exists.1 hls
    exact ⟨text, ls, htext, hls⟩
  · rintro ⟨text, ls, htext, hls⟩
    exact inputsWritten_of_read htext hls

/-- The command START leaves is the whole run (R102, R280). -/
theorem exec_run (s : State) : exec .run s = execRun s := rfl

/-- RUN on a text and a table that can be read is the loop from the start of the run (R280). -/
theorem execRun_of_read {s : State} {text : Text} {ls : List Layer} (hb : s.status ≠ .busy)
    (ht : memReadText s.textIn s.tlen = some text) (hls : tableLayers s = some ls) :
    execRun s = continueRun (s.nlayers + 1) (beginRun text s) := by
  rw [execRun, if_neg hb, if_pos (inputsWritten_of_read ht hls), ht, Option.getD_some]

/-- RUN on inputs that were not all written is refused (R38). -/
theorem execRun_unwritten {s : State} (hb : s.status ≠ .busy) (hi : inputsWritten s = false) :
    execRun s = .refused .inputNotWritten := by
  rw [execRun, if_neg hb, if_neg (by simp [hi])]

/-- The layer a run dispatches at LP is the one at that position of the processing order (R22, R281). -/
theorem runLayer_of_table {s : State} {ls : List Layer} (hls : tableLayers s = some ls) (hlp : s.lp < s.nlayers) :
    ∃ l, (processingOrder s.dir ls)[s.lp]? = some (layerIndex s, l) ∧ runLayer s = dispatchLayer l.1 l.2 s := by
  obtain ⟨hlen, hget⟩ := tableLayers_get hls
  have hidx : layerIndex s < ls.length := by
    unfold layerIndex
    split <;> omega
  refine ⟨ls[layerIndex s], ?_, ?_⟩
  · cases hd : s.dir with
    | encrypt =>
      have hi : layerIndex s = s.lp := by simp [layerIndex, hd]
      simp only [processingOrder_get .encrypt ls s.lp (by omega), hi]
    | decrypt =>
      have hi : layerIndex s = ls.length - 1 - s.lp := by simp [layerIndex, hd, hlen]
      simp only [processingOrder_get .decrypt ls s.lp (by omega), hi]
  · have hfetch : (fetchLayer s).bind layerOfWord = some ls[layerIndex s] := by
      rw [fetchLayer, hget _ (by omega), List.getElem?_eq_getElem hidx]
    rw [runLayer, hfetch]

/-! ### How a run ends -/

/-- A state that differs from `s` in what completed layers write only: W, LP, TRACE_ACC and the scratch (R61). -/
inductive LayersOnly (s : State) : State → Prop where
  | mk (w : Text) (lp : Nat) (acc : List Trace) (eng : EngineRegs) (sdes : SdesRegs) :
      LayersOnly s { s with w := w, lp := lp, traceAcc := acc, eng := eng, sdes := sdes }

theorem LayersOnly.refl (s : State) : LayersOnly s s := .mk s.w s.lp s.traceAcc s.eng s.sdes

theorem LayersOnly.trans {s t u : State} (hst : LayersOnly s t) (htu : LayersOnly t u) : LayersOnly s u := by
  cases hst
  cases htu
  exact .mk ..

/-- A run in progress at `s` answers `o` where the pipeline over the layers left answers `p`: DONE with the pipeline's text
and traces (R287), the fault of the layer that raised (R315), or the refusal of the operation that has no value (R14). -/
inductive RunEnds (s : State) : Except PipelineStop (Text × List Trace) → Host.Outcome State Fault Refusal → Prop where
  | done {u : State} {out : Text} {acc : List Trace} (hu : LayersOnly s u) (hw : u.w = out) (hacc : u.traceAcc = acc)
      (hlp : u.lp = s.nlayers) : RunEnds s (.ok (out, acc)) (.next (finishRun u))
  | fault {u : State} {k : FaultKind} {i : Nat} {alg : Alg} (hu : LayersOnly s u) (hi : layerIndex u = i) :
      RunEnds s (.error ⟨.raised k, i, alg⟩) (.next (takeFault k alg u))
  | refused (r : Refusal) (i : Nat) (alg : Alg) : RunEnds s (.error ⟨.refused r, i, alg⟩) (.refused r)

/-- How a run ends after a layer is how it ends before it. -/
theorem RunEnds.of_layersOnly {s t : State} {p : Except PipelineStop (Text × List Trace)}
    {o : Host.Outcome State Fault Refusal} (hst : LayersOnly s t) (h : RunEnds t p o) : RunEnds s p o := by
  cases h with
  | done hu hw hacc hlp => exact .done (hst.trans hu) hw hacc (by cases hst; exact hlp)
  | fault hu hi => exact .fault (hst.trans hu) hi
  | refused r i alg => exact .refused r i alg

/-- The loop from a state of a run ends as the pipeline over the layers from LP on does, `n` layers being left. -/
theorem continueRun_pipeline {ls : List Layer} (n : Nat) {s : State} (hls : tableLayers s = some ls)
    (hb : s.status = .busy) (hlp : s.lp + n = s.nlayers) :
    RunEnds s (pipeline s.cfg s.dir ((processingOrder s.dir ls).drop s.lp) s.w s.traceAcc) (continueRun (n + 1) s) := by
  have hlen : (processingOrder s.dir ls).length = s.nlayers := by
    rw [processingOrder_length, (tableLayers_get hls).1]
  induction n generalizing s with
  | zero =>
    have hend : (processingOrder s.dir ls).drop s.lp = [] := by rw [List.drop_eq_nil_iff]; omega
    rw [hend, pipeline, continueRun, if_pos hb, if_neg (by omega)]
    exact .done (.refl s) rfl rfl (by omega)
  | succ n ih =>
    have hlt : s.lp < s.nlayers := by omega
    obtain ⟨l, hl, hrun⟩ := runLayer_of_table hls hlt
    obtain ⟨hlt', hl⟩ := List.getElem?_eq_some_iff.1 hl
    rw [List.drop_eq_getElem_cons hlt', hl, pipeline, continueRun, if_pos hb, if_pos hlt, hrun]
    have hd := dispatchLayer_engineText l.1 l.2 s
    cases he : engineText s.cfg l.1 l.2 s.dir s.w with
    | ok r =>
      rw [he] at hd
      obtain ⟨eng, sdes, hd⟩ := hd
      rw [hd]
      refine .of_layersOnly (.mk r.1 (s.lp + 1) (s.traceAcc ++ r.2) eng sdes) (ih hls hb ?_ hlen)
      change s.lp + 1 + n = s.nlayers
      omega
    | error e =>
      rw [he] at hd
      simp only at hd
      rw [hd]
      cases e with
      | raised k => exact .fault (.refl s) rfl
      | refused r => exact .refused r _ _

/-- RUN on a text and a table that can be read ends as the pipeline does, in processing order (R281, R282). -/
theorem execRun_pipeline {s : State} {text : Text} {ls : List Layer} (hb : s.status ≠ .busy)
    (ht : memReadText s.textIn s.tlen = some text) (hls : tableLayers s = some ls) :
    RunEnds (beginRun text s) (pipeline s.cfg s.dir (processingOrder s.dir ls) text []) (execRun s) := by
  rw [execRun_of_read hb ht hls]
  exact continueRun_pipeline s.nlayers (s := beginRun text s) hls rfl (Nat.zero_add _)

/-! ### What the host receives -/

/-- A run that ended in DONE gives its text and the rendered traces (R285, R287). -/
@[simp] theorem runOutcome_finishRun (s : State) : runOutcome (finishRun s) = some (.done s.w (renderAll s.traceAcc)) := by
  simp [runOutcome]

/-- A run that ended in FAULT gives the fault registers (R315). -/
@[simp] theorem runOutcome_takeFault (k : FaultKind) (alg : Alg) (s : State) :
    runOutcome (takeFault k alg s) = some (.fault (causeCode k) (layerIndex s) (algCode alg)) := rfl

/-- With well-formed tables the pipeline is never stopped by a refusal (R14, R233). -/
theorem pipeline_not_refused {c : Config} {d : Dir} (hc : c.wellFormed) (order : List (Nat × Layer)) (w : Text)
    (acc : List Trace) (r : Refusal) (i : Nat) (alg : Alg) : pipeline c d order w acc ≠ .error ⟨.refused r, i, alg⟩ := by
  induction order generalizing w acc with
  | nil => simp [pipeline]
  | cons l order ih =>
    rw [pipeline]
    cases he : engineText c l.2.1 l.2.2 d w with
    | ok out => exact ih _ _
    | error e => rcases engineText_error_of_wf hc he with rfl | rfl <;> simp

/-- Settles O39: a run ends as its pipeline does, and well-formed tables leave the pipeline no refusal. -/
theorem runEndsInDoneOrFault : Obligations.RunEndsInDoneOrFault := by
  unfold Obligations.RunEndsInDoneOrFault
  intro s hb hi hc
  obtain ⟨text, ls, ht, hls⟩ := inputsWritten_iff.1 hi
  rw [exec_run]
  have hend := execRun_pipeline hb ht hls
  generalize hp : pipeline s.cfg s.dir (processingOrder s.dir ls) text [] = p at hend
  generalize execRun s = o at hend ⊢
  cases hend with
  | done hu => exact ⟨_, rfl, by cases hu; rfl, .inl rfl⟩
  | fault hu => exact ⟨_, rfl, by cases hu; rfl, .inr rfl⟩
  | refused r i alg => exact absurd hp (pipeline_not_refused hc _ _ _ r i alg)

/-- Two runs on the same pipeline come to the same for the host, whatever the states they began in. -/
theorem RunEnds.same_outcome {s t : State} {p : Except PipelineStop (Text × List Trace)}
    {o o' : Host.Outcome State Fault Refusal} (hs : RunEnds s p o) (ht : RunEnds t p o') :
    (∃ s' t', o = .next s' ∧ o' = .next t' ∧ s'.status = t'.status ∧ runOutcome s' = runOutcome t') ∨
      ∃ r, o = .refused r ∧ o' = .refused r := by
  cases hs with
  | done _ hw hacc _ =>
    cases ht with
    | done _ hw' hacc' _ => exact .inl ⟨_, _, rfl, rfl, rfl, by simp [hw, hacc, hw', hacc']⟩
  | fault _ hi =>
    cases ht with
    | fault _ hi' => exact .inl ⟨_, _, rfl, rfl, rfl, by simp [hi, hi']⟩
  | refused r =>
    cases ht
    exact .inr ⟨r, rfl, rfl⟩

/-- Settles O42: two states with the same inputs run the same pipeline, or are both refused. -/
theorem runDependsOnInputsOnly : Obligations.RunDependsOnInputsOnly := by
  unfold Obligations.RunDependsOnInputsOnly
  intro s t htext htable hdir hcfg hs ht
  rw [exec_run, exec_run]
  have hiff : inputsWritten s = true ↔ inputsWritten t = true := by
    rw [inputsWritten_iff, inputsWritten_iff, htext, htable]
  by_cases hi : inputsWritten s = true
  · obtain ⟨text, ls, hrs, hls⟩ := inputsWritten_iff.1 hi
    have hends := execRun_pipeline hs hrs hls
    rw [hdir, hcfg] at hends
    exact hends.same_outcome (execRun_pipeline ht (htext ▸ hrs) (htable ▸ hls))
  · exact .inr ⟨_, execRun_unwritten hs (by simpa using hi), execRun_unwritten ht (by simpa using mt hiff.2 hi)⟩

end Sys2Proof.Machine
end

section
/-! PROOF. What every step keeps (spec/10_state.md R20, R22, R23, R25, R27, R29, spec/20_memory.md R73): each statement is an
induction over a step (`step_induct`), from what a layer, an internal operation and the two ends of a run keep. -/

namespace Sys2Proof.Machine

/-! ### Inputs and fault registers -/

/-- Settles O52: each part of a step writes outside the inputs and the configuration, and so does every layer of a whole
run. -/
theorem stepKeepsInputs : Obligations.StepKeepsInputs := by
  unfold Obligations.StepKeepsInputs
  intro s t h
  have hsame : sameInputs s s := ⟨rfl, rfl, rfl, rfl, rfl, rfl⟩
  refine step_induct (P := (sameInputs · s)) ?issue ?start ?layer ?internal ?finish hsame h
  case issue => exact fun _ hu => hu
  case start => exact fun _ _ hu _ _ => hu
  case layer =>
    intro alg key u v hu _ _ hd
    rcases dispatchLayer_next hd with ⟨out, eng, sdes, tr, rfl⟩ | ⟨k, rfl⟩
    · exact hu
    · exact hu
  case internal =>
    intro i u v hu hl hr he
    rcases exec_internal_next hl hr he with ⟨sdes, out, rfl⟩ | ⟨k, rfl⟩
    · exact hu
    · exact hu
  case finish => exact fun _ hu _ _ => hu

/-- The cause codes are 1 to 4 (R310). -/
theorem causeCode_range (k : FaultKind) : 1 ≤ (causeCode k).toNat ∧ (causeCode k).toNat ≤ 4 := by
  cases k <;> simp [causeCode]

/-- Fault entry leaves the fault registers at a cause, whatever they held (R315). -/
theorem takeFault_faultRegsOk (k : FaultKind) (alg : Alg) (s : State) : (takeFault k alg s).faultRegsOk :=
  ⟨fun h => absurd rfl h, fun _ => causeCode_range k⟩

/-- Settles O53: only fault entry and the start of a run write the fault registers, and the end of a run is not in FAULT. -/
theorem stepKeepsFaultRegisters : Obligations.StepKeepsFaultRegisters := by
  unfold Obligations.StepKeepsFaultRegisters
  intro s t hs h
  refine step_induct (P := State.faultRegsOk) ?issue ?start ?layer ?internal ?finish hs h
  case issue => exact fun _ hu => hu
  case start => exact fun _ _ _ _ _ => ⟨fun _ => ⟨rfl, rfl, rfl⟩, fun hf => by simp at hf⟩
  case layer =>
    intro alg key u v hu _ _ hd
    rcases dispatchLayer_next hd with ⟨out, eng, sdes, tr, rfl⟩ | ⟨k, rfl⟩
    · exact hu
    · exact takeFault_faultRegsOk k alg u
  case internal =>
    intro i u v hu hl hr he
    rcases exec_internal_next hl hr he with ⟨sdes, out, rfl⟩ | ⟨k, rfl⟩
    · exact hu
    · exact takeFault_faultRegsOk k .des u
  case finish =>
    intro u hu hbusy _
    exact ⟨fun _ => hu.1 (by simp [hbusy]), fun hf => by simp at hf⟩

/-! ### The widths of the S-DES registers -/

/-- The numbers of bits the tables of R231 select. -/
theorem select_length_of_wellFormed {c : Config} (hc : c.wellFormed) (v : Bits) :
    (selectBits c.p10 v).length = 10 ∧ (selectBits c.ip v).length = 8 ∧ (selectBits c.ipinv v).length = 8 ∧
      (selectBits c.ep v).length = 8 := by
  simp only [Config.wellFormed, Bool.and_eq_true] at hc
  obtain ⟨⟨⟨⟨⟨h10, -⟩, hip⟩, hinv⟩, hep⟩, -⟩ := hc
  exact ⟨select_length h10, select_length hip, select_length hinv, select_length hep⟩

theorem roundXor_length {c : Config} (hc : c.wellFormed) (r : Bits) {k : Bits} (hk : k.length = 8) :
    (roundXor c r k).length = 8 := by
  obtain ⟨-, -, -, hep⟩ := select_length_of_wellFormed hc r
  simp [roundXor, hep, hk]

/-- The two boxes give two bits each (R124). -/
theorem roundBoxes_length (c : Config) (r k : Bits) : (roundBox0 c r k ++ roundBox1 c r k).length = 4 := rfl

theorem rightAfterRound1_length {c : Config} (hc : c.wellFormed) (b k1 : Bits) :
    (rightAfterRound1 c b k1).length = 4 := by
  obtain ⟨-, hip, -, -⟩ := select_length_of_wellFormed hc b
  simp [rightAfterRound1, hip, roundValue_length hc]

theorem preOutput_length {c : Config} (hc : c.wellFormed) (b k1 k2 : Bits) : (preOutput c b k1 k2).length = 8 := by
  obtain ⟨-, hip, -, -⟩ := select_length_of_wellFormed hc b
  simp [preOutput, hip, roundValue_length hc, rightAfterRound1_length hc]

/-- KEYSCHED keeps the widths (R29, R240). -/
theorem keySchedule_widths {c : Config} {r r' : SdesRegs} (hc : c.wellFormed) (hr : r.widths)
    (h : keySchedule c r = .ok r') : r'.widths := by
  obtain ⟨hkeyv, -, -, -, -, -, hrest⟩ := hr
  rw [keySchedule_ok hc hkeyv] at h
  cases h
  obtain ⟨hpk, -, -, -⟩ := select_length_of_wellFormed hc r.keyv
  obtain ⟨hk1, hk2⟩ := subkeys_length hc r.keyv
  exact ⟨hkeyv, hpk, by simp [hpk], by simp [hpk], hk1, hk2, hrest⟩

/-- The selected subkey register has 8 bits (R29). -/
theorem subkeyReg_length {r : SdesRegs} (hr : r.widths) (n : Subkey) : (subkeyReg r n).length = 8 := by
  obtain ⟨-, -, -, -, hk1, hk2, -⟩ := hr
  cases n
  · exact hk1
  · exact hk2

/-- FK keeps the widths (R29, R245). -/
theorem roundFunction_widths {c : Config} {n : Subkey} {r r' : SdesRegs} (hc : c.wellFormed) (hr : r.widths)
    (h : roundFunction c n r = .ok r') : r'.widths := by
  have hk := subkeyReg_length hr n
  obtain ⟨hkeyv, hpk, hhl, hhr, hk1, hk2, hblk, hipv, hl, hright, -, -, -, -, hpre, houtv⟩ := hr
  rw [roundFunction_ok hc hright hk] at h
  cases h
  obtain ⟨-, -, -, hepv⟩ := select_length_of_wellFormed hc r.r
  exact ⟨hkeyv, hpk, hhl, hhr, hk1, hk2, hblk, hipv, hl, hright, hepv, roundXor_length hc _ hk,
    roundBoxes_length .., roundValue_length hc, hpre, houtv⟩

/-- BLOCK keeps the widths (R29, R250). -/
theorem processBlock_widths {c : Config} {r r' : SdesRegs} (hc : c.wellFormed) (hr : r.widths)
    (h : processBlock c r = .ok r') : r'.widths := by
  obtain ⟨hkeyv, hpk, hhl, hhr, hk1, hk2, hblk, -⟩ := hr
  rw [processBlock_ok hc hblk hk1 hk2] at h
  cases h
  obtain ⟨-, hipv, -, -⟩ := select_length_of_wellFormed hc r.blk
  obtain ⟨-, -, -, hepv⟩ := select_length_of_wellFormed hc (rightAfterRound1 c r.blk r.k1)
  obtain ⟨-, -, houtv, -⟩ := select_length_of_wellFormed hc (preOutput c r.blk r.k1 r.k2)
  exact ⟨hkeyv, hpk, hhl, hhr, hk1, hk2, hblk, hipv, by simp [hipv], rightAfterRound1_length hc _ _, hepv,
    roundXor_length hc _ hk2, roundBoxes_length .., roundValue_length hc, preOutput_length hc _ _ _, houtv⟩

/-- DES keeps the widths: its key and its block are read at theirs (R29, R255). -/
theorem desEngine_widths {c : Config} {key w : Text} {r r' : SdesRegs} (hc : c.wellFormed) (hr : r.widths)
    (h : desEngine c key w r = .ok r') : r'.widths := by
  unfold desEngine at h
  split at h
  · cases h
  · next kv hkv =>
    split at h
    · cases h
    · next bv hbv =>
      obtain ⟨r1, hsched, hblock⟩ := except_bind_ok h
      obtain ⟨-, hpk, hhl, hhr, hk1, hk2, -, hrest⟩ := hr
      have hloaded : SdesRegs.widths { r with keyv := kv, blk := bv, trace := [] } :=
        ⟨bitsOfLength_length hkv, hpk, hhl, hhr, hk1, hk2, bitsOfLength_length hbv, hrest⟩
      exact processBlock_widths hc (keySchedule_widths hc hloaded hsched) hblock

/-- What a Layer operation does to the S-DES registers and to TRACE_ACC: nothing, or what the DES engine gives (R255,
R284). -/
theorem dispatchLayer_sdes {alg : Alg} {key : Text} {s t : State} (h : dispatchLayer alg key s = .next t) :
    (t.sdes = s.sdes ∧ t.traceAcc = s.traceAcc) ∨
      (desEngine s.cfg key s.w s.sdes = .ok t.sdes ∧ t.traceAcc = s.traceAcc ++ [t.sdes.trace]) := by
  by_cases hdes : alg = .des
  · subst hdes
    simp only [dispatchLayer, execDes] at h
    split at h
    · next r hr =>
      cases h
      exact .inr ⟨hr, rfl⟩
    · obtain ⟨k, -, rfl⟩ := stopped_next h
      exact .inl ⟨rfl, rfl⟩
  · rcases dispatchLayer_frame h with ⟨out, eng, sdes, tr, rfl, hother, -⟩ | ⟨k, rfl⟩
    · obtain ⟨rfl, rfl⟩ := hother hdes
      exact .inl ⟨rfl, List.append_nil _⟩
    · exact .inl ⟨rfl, rfl⟩

/-- An S-DES operation that answers leaves the unit's registers at what it computed or, on a fault, as they were. -/
theorem sdesResult_sdes {s t : State} {r : Except Stop SdesRegs} (h : sdesResult s r = .next t) :
    t.sdes = s.sdes ∨ r = .ok t.sdes := by
  unfold sdesResult at h
  split at h
  · cases h
    exact .inr rfl
  · obtain ⟨k, -, rfl⟩ := stopped_next h
    exact .inl rfl

/-- A BVU operation leaves the S-DES registers as they were. -/
theorem bvuResult_sdes {s t : State} {r : Except Stop Bits} (h : bvuResult s r = .next t) : t.sdes = s.sdes := by
  unfold bvuResult at h
  split at h
  · cases h
    rfl
  · obtain ⟨k, -, rfl⟩ := stopped_next h
    rfl

/-- An internal operation keeps the widths (R29). -/
theorem exec_internal_widths {i : Instr} {s t : State} (hc : s.cfg.wellFormed) (hw : s.sdes.widths)
    (hl : i.layer? = none) (hr : i ≠ .run) (h : exec i s = .next t) : t.sdes.widths := by
  have bvu : ∀ r, bvuResult s r = .next t → t.sdes.widths := fun r h => by rwa [bvuResult_sdes h]
  have sdes : ∀ r, (∀ r', r = .ok r' → r'.widths) → sdesResult s r = .next t → t.sdes.widths := by
    intro r hr h
    rcases sdesResult_sdes h with hsame | hok
    · rwa [hsame]
    · exact hr _ hok
  cases i with
  | skip | caesar | mono | vigenere | railfence | rowcol | des | playfair => simp [Instr.layer?] at hl
  | permute | rotl | xor | sbox => exact bvu _ h
  | keysched => exact sdes _ (fun _ => keySchedule_widths hc hw) h
  | fk => exact sdes _ (fun _ => roundFunction_widths hc hw) h
  | block => exact sdes _ (fun _ => processBlock_widths hc hw) h
  | run => exact absurd rfl hr

/-- Settles O54: the tables stay well formed along a step, and with them every operation of the unit keeps the widths. -/
theorem stepKeepsSdesWidths : Obligations.StepKeepsSdesWidths := by
  unfold Obligations.StepKeepsSdesWidths
  intro s t hc hw h
  refine (step_induct (P := fun u => u.cfg = s.cfg ∧ u.sdes.widths) ?issue ?start ?layer ?internal ?finish
    ⟨rfl, hw⟩ h).2
  case issue => exact fun _ hu => hu
  case start => exact fun _ _ hu _ _ => hu
  case layer =>
    rintro alg key u v ⟨hcfg, hu⟩ _ _ hd
    have hcfg' : v.cfg = u.cfg := by
      rcases dispatchLayer_next hd with ⟨out, eng, sdes, tr, rfl⟩ | ⟨k, rfl⟩ <;> rfl
    refine ⟨hcfg'.trans hcfg, ?_⟩
    rcases dispatchLayer_sdes hd with ⟨hsame, -⟩ | ⟨hdes, -⟩
    · rwa [hsame]
    · exact desEngine_widths (hcfg ▸ hc) hu hdes
  case internal =>
    rintro i u v ⟨hcfg, hu⟩ hl hr he
    have hcfg' : v.cfg = u.cfg := by
      rcases exec_internal_next hl hr he with ⟨sdes, out, rfl⟩ | ⟨k, rfl⟩ <;> rfl
    exact ⟨hcfg'.trans hcfg, exec_internal_widths (hcfg ▸ hc) hu hl hr he⟩
  case finish => exact fun _ hu _ _ => hu

/-! ### LP, the outputs and the traces -/

/-- A step keeps LP at most NLAYERS during a run: a layer runs only while LP is below it (R22). -/
theorem step_pointerOk {s t : State} (hs : s.pointerOk) (h : step s = .next t) : t.pointerOk := by
  refine step_induct (P := State.pointerOk) ?issue ?start ?layer ?internal ?finish hs h
  case issue => exact fun _ hu => hu
  case start => exact fun u _ _ _ _ _ => Nat.zero_le u.nlayers
  case layer =>
    intro alg key u v _ _ hlt hd
    rcases dispatchLayer_next hd with ⟨out, eng, sdes, tr, rfl⟩ | ⟨k, rfl⟩
    · exact fun _ => Nat.succ_le_of_lt hlt
    · exact fun hb => by simp at hb
  case internal =>
    intro i u v hu hl hr he
    rcases exec_internal_next hl hr he with ⟨sdes, out, rfl⟩ | ⟨k, rfl⟩
    · exact hu
    · exact fun hb => by simp at hb
  case finish => exact fun _ _ _ _ hb => by simp at hb

/-- The end of a run leaves RESULT and TRACE readable over RLEN and TRLEN (R25, R287). -/
theorem finishRun_outputsOk (s : State) : (finishRun s).outputsOk := fun _ => by simp

/-- A step keeps the outputs readable in DONE: only the end of a run enters DONE, and only it writes the outputs (R25). -/
theorem step_outputsOk {s t : State} (hs : s.outputsOk) (h : step s = .next t) : t.outputsOk := by
  refine step_induct (P := State.outputsOk) ?issue ?start ?layer ?internal ?finish hs h
  case issue => exact fun _ hu => hu
  case start => exact fun _ _ _ _ _ hd => by simp at hd
  case layer =>
    intro alg key u v hu _ _ hd
    rcases dispatchLayer_next hd with ⟨out, eng, sdes, tr, rfl⟩ | ⟨k, rfl⟩
    · exact hu
    · exact fun hd => by simp at hd
  case internal =>
    intro i u v hu hl hr he
    rcases exec_internal_next hl hr he with ⟨sdes, out, rfl⟩ | ⟨k, rfl⟩
    · exact hu
    · exact fun hd => by simp at hd
  case finish => exact fun u _ _ _ => finishRun_outputsOk u

/-- A step keeps every accumulated trace at 19 records: only a DES layer adds one, of 19 (R262, R284). -/
theorem step_tracesOk {s t : State} (hs : s.tracesOk) (h : step s = .next t) : t.tracesOk := by
  refine step_induct (P := State.tracesOk) ?issue ?start ?layer ?internal ?finish hs h
  case issue => exact fun _ hu => hu
  case start => exact fun _ _ _ _ _ _ hmem => by simp at hmem
  case layer =>
    intro alg key u v hu _ _ hd tr hmem
    rcases dispatchLayer_sdes hd with ⟨-, hacc⟩ | ⟨hdes, hacc⟩
    · exact hu tr (hacc ▸ hmem)
    · rw [hacc, List.mem_append, List.mem_singleton] at hmem
      rcases hmem with hmem | rfl
      · exact hu tr hmem
      · exact desEngine_trace_length hdes
  case internal =>
    intro i u v hu hl hr he
    rcases exec_internal_next hl hr he with ⟨sdes, out, rfl⟩ | ⟨k, rfl⟩
    · exact hu
    · exact hu
  case finish => exact fun _ hu _ _ => hu

/-- Settles O55: each of the three holds of the next state by itself. -/
theorem stepKeepsRunState : Obligations.StepKeepsRunState := by
  unfold Obligations.StepKeepsRunState
  intro s t hlp hout htr h
  exact ⟨step_pointerOk hlp h, step_outputsOk hout h, step_tracesOk htr h⟩

/-! ### Reset -/

/-- The widths of the S-DES registers at reset (R29; log entry 7). -/
theorem reset_widths : State.reset.sdes.widths := by
  unfold SdesRegs.widths
  decide

/-- Settles O56: no buffer holds a cell, the state is IDLE, TRACE_ACC is empty, and the tables are the defaults. -/
theorem resetMeetsInvariants : Obligations.ResetMeetsInvariants := by
  unfold Obligations.ResetMeetsInvariants
  have hmemory : State.reset.memoryWf := ⟨rfl, rfl, rfl, rfl, fun _ he => absurd he List.not_mem_nil⟩
  have hfault : State.reset.faultRegsOk := ⟨fun _ => ⟨rfl, rfl, rfl⟩, fun h => by cases h⟩
  have hpointer : State.reset.pointerOk := fun h => by cases h
  have houtputs : State.reset.outputsOk := fun h => by cases h
  have htraces : State.reset.tracesOk := fun _ ht => absurd ht List.not_mem_nil
  exact ⟨hmemory, hfault, by decide, by decide, reset_widths, hpointer, houtputs, htraces⟩

end Sys2Proof.Machine
end

section
/-! PROOF. The host's register accesses outside a run (spec/10_state.md R25, R26, R38, spec/30_encoding.md R102), and what the
host reads after reset (R37, spec/70_reset_and_hazards.md R340). -/

namespace Sys2Proof.Machine

/-! ### No run in progress -/

/-- With no run in progress or commanded the host reads STATUS as it is (R26). -/
theorem visibleStatus_of_no_run {s : State} (h : runInProgress s = false) : visibleStatus s = s.status := by
  simp [visibleStatus, h]

/-- With no run in progress or commanded a host write is accepted (R71). -/
theorem hostWrite_of_no_run {s : State} (f : State → State) (h : runInProgress s = false) : hostWrite f s = f s := by
  simp [hostWrite, h]

/-! ### Register by register -/

/-- A write to STATUS or to a register above TLEN is ignored (R25). -/
theorem regWrite_readOnly {n : Nat} (h : n = 1 ∨ 5 ≤ n ∧ n ≤ 9) (v : Nat) (s : State) : regWrite n v s = .next s := by
  rcases h with rfl | ⟨h5, h9⟩
  · rfl
  · interval_cases n <;> rfl

/-- Numbers above 9 name no register (R25). -/
theorem regAccess_noSuchRegister {n : Nat} (h : 10 ≤ n) (v : Nat) (s : State) :
    regWrite n v s = .fault (.noSuchRegister n) ∧ regRead n s = .fault (.noSuchRegister n) := by
  obtain ⟨m, rfl⟩ := Nat.exists_eq_add_of_le' h
  exact ⟨rfl, rfl⟩

theorem regRead_status (s : State) : regRead 1 s = .next (statusCode (visibleStatus s)) := rfl

/-- RLEN and TRLEN hold their values in DONE (R25). -/
theorem regRead_lengths_of_done {s : State} (h : visibleStatus s = .done) :
    regRead 5 s = .next s.rlen ∧ regRead 6 s = .next s.trlen := by
  simp [regRead, h]

/-- RLEN and TRLEN hold no value outside DONE (R38). -/
theorem regRead_lengths_of_not_done {s : State} (h : visibleStatus s ≠ .done) :
    regRead 5 s = .refused .outputHoldsNoValue ∧ regRead 6 s = .refused .outputHoldsNoValue := by
  simp [regRead, h]

/-- The fault registers hold their values in FAULT (R25). -/
theorem regRead_faultRegs_of_fault {s : State} (h : visibleStatus s = .fault) :
    regRead 7 s = .next s.faultCause.toNat ∧ regRead 8 s = .next s.faultLayer ∧ regRead 9 s = .next s.faultAlg.toNat := by
  simp [regRead, h]

/-- Outside FAULT the cause reads 0 and the other two fault registers hold no value (R38). -/
theorem regRead_faultRegs_of_not_fault {s : State} (h : visibleStatus s ≠ .fault) :
    regRead 7 s = .next 0 ∧ regRead 8 s = .refused .outputHoldsNoValue ∧ regRead 9 s = .refused .outputHoldsNoValue := by
  simp [regRead, h]

/-- Outside DONE no element of an output buffer is read (R38). -/
theorem outputRead_of_not_done {s : State} (h : visibleStatus s ≠ .done) (m : Memory) (i : Nat) :
    outputRead m i s = .refused .outputHoldsNoValue := by
  simp [outputRead, h]

/-- Settles O58: with no run in progress each access is its register's own rule on STATUS as it is. -/
theorem hostRegisterAccess : Obligations.HostRegisterAccess := by
  unfold Obligations.HostRegisterAccess
  intro n v s hrun
  have hv := visibleStatus_of_no_run hrun
  have hstatus : ∀ r, s.status = r → regRead 1 s = .next (statusCode r) := by
    rintro r rfl
    rw [regRead_status, hv]
  have hdir : ∀ d, s.dir = d → regRead 2 s = .next (dirBit d) := by
    rintro d rfl
    rfl
  refine ⟨?_, ?_, ?_, ?_, rfl, fun hn => regWrite_readOnly hn v s, fun hn => regAccess_noSuchRegister hn v s,
    hstatus .idle, hstatus .done, hstatus .fault, hdir .encrypt, hdir .decrypt, rfl, rfl, ?_, ?_, ?_, ?_⟩
  · exact congrArg _ (hostWrite_of_no_run _ hrun)
  · exact congrArg _ (hostWrite_of_no_run _ hrun)
  · exact congrArg _ (hostWrite_of_no_run _ hrun)
  · rw [regWrite, hostWrite_of_no_run _ hrun]
  · exact fun h => regRead_lengths_of_done (hv.trans h)
  · exact fun h => regRead_faultRegs_of_fault (hv.trans h)
  · exact fun h => regRead_lengths_of_not_done (hv ▸ h)
  · exact fun h => regRead_faultRegs_of_not_fault (hv ▸ h)

/-- After reset STATUS reads IDLE (R37). -/
theorem visibleStatus_platformReset (s : State) : visibleStatus (platformReset s) = .idle := rfl

/-- Settles O57: the host's reads of a state in IDLE, and the fields of the reset state. -/
theorem resetValues : Obligations.ResetValues := by
  unfold Obligations.ResetValues
  intro s r
  have hidle : visibleStatus r = .idle := visibleStatus_platformReset s
  have hdone : visibleStatus r ≠ .done := by simp [hidle]
  have hfault : visibleStatus r ≠ .fault := by simp [hidle]
  obtain ⟨hrlen, htrlen⟩ := regRead_lengths_of_not_done hdone
  obtain ⟨hcause, hlayer, halg⟩ := regRead_faultRegs_of_not_fault hfault
  exact ⟨rfl, rfl, by rw [regRead_status, hidle]; rfl, rfl, rfl, rfl, hrlen, htrlen, hcause, hlayer, halg,
    rfl, rfl, rfl, rfl, rfl, rfl, rfl, rfl, rfl, rfl, rfl, rfl,
    fun a => ⟨rfl, rfl, outputRead_of_not_done hdone _ a, outputRead_of_not_done hdone _ a⟩⟩

end Sys2Proof.Machine
end

section
/-! PROOF. Who writes the inputs, the outputs and the Layer table (spec/20_memory.md R60, R61, R64, R71, R73): the frames of a
step, a run and a layer, the dispatch of a fetched descriptor, and the host's buffer writes. -/

namespace Sys2Proof.Machine

/-! ### Canonical buffers -/

/-- The end of a run leaves every buffer canonical: it replaces RESULT and TRACE whole (R287; log entry 17). -/
theorem finishRun_memoryWf {s : State} (hs : s.memoryWf) : (finishRun s).memoryWf := by
  obtain ⟨htext, -, -, hlayers, hkeys⟩ := hs
  exact ⟨htext, memOfText_wf _, memOfText_wf _, hlayers, hkeys⟩

/-- Settles O51: only the end of a run writes a buffer. -/
theorem stepKeepsCanonicalBuffers : Obligations.StepKeepsCanonicalBuffers := by
  unfold Obligations.StepKeepsCanonicalBuffers
  intro s t hs h
  refine step_induct (P := State.memoryWf) ?issue ?start ?layer ?internal ?finish hs h
  case issue => exact fun _ hu => hu
  case start => exact fun _ _ hu _ _ => hu
  case layer =>
    intro alg key u v hu _ _ hd
    rcases dispatchLayer_next hd with ⟨out, eng, sdes, tr, rfl⟩ | ⟨k, rfl⟩
    · exact hu
    · exact hu
  case internal =>
    intro i u v hu hl hr he
    rcases exec_internal_next hl hr he with ⟨sdes, out, rfl⟩ | ⟨k, rfl⟩
    · exact hu
    · exact hu
  case finish => exact fun _ hu _ _ => finishRun_memoryWf hu

/-! ### The dispatch of a fetched descriptor -/

/-- The sequencer runs `exec` of the operation its fetched descriptor names (R282). -/
theorem runLayer_of_fetch {s : State} {w : Word} {alg : Alg} {key : Text} (hw : fetchLayer s = some w)
    (hl : layerOfWord w = some (alg, key)) : runLayer s = exec (Instr.ofLayer alg key) s := by
  rw [runLayer, hw, Option.bind_some, hl, exec_ofLayer]

/-- Settles O37: a fetched descriptor is one of the Layer table, which decodes to the operation of its ALG field. -/
theorem fetchedLayerDispatch : Obligations.FetchedLayerDispatch := by
  unfold Obligations.FetchedLayerDispatch
  intro s w hw
  obtain ⟨alg, key, hdecode, hlayer, hd, n, k, hword, hcode, -, hkey⟩ := readDescriptor_decode hw
  exact ⟨alg, key, hdecode, runLayer_of_fetch hw hlayer, hd, n, k, hword, hcode, hkey⟩

/-! ### The frames of a run and of a layer -/

/-- A run that answers, and was not in progress, had its inputs written (R38). -/
theorem inputsWritten_of_execRun {s t : State} (hb : s.status ≠ .busy) (h : execRun s = .next t) :
    inputsWritten s = true := by
  by_contra hi
  rw [execRun_unwritten hb (by simpa using hi)] at h
  cases h

/-- Settles O45: a run ends as `RunEnds` says, in a state that differs from its start in what layers write and in what its
end writes. -/
theorem runFrame : Obligations.RunFrame := by
  unfold Obligations.RunFrame
  intro s t h
  rw [exec_run] at h
  rcases execRun_next h with ⟨-, rfl⟩ | ⟨hb, -⟩
  · exact ⟨rfl, rfl, rfl, rfl, rfl, rfl, rfl, rfl, fun _ => rfl, fun _ => ⟨rfl, rfl, fun _ => ⟨rfl, rfl⟩⟩⟩
  · obtain ⟨text, ls, ht, hls⟩ := inputsWritten_iff.1 (inputsWritten_of_execRun hb h)
    have hend := execRun_pipeline hb ht hls
    rw [h] at hend
    generalize pipeline s.cfg s.dir (processingOrder s.dir ls) text [] = p at hend
    cases hend with
    | done hu =>
      cases hu
      exact ⟨rfl, rfl, rfl, rfl, rfl, rfl, rfl, rfl, fun _ => rfl, fun hd => absurd rfl hd⟩
    | fault hu =>
      cases hu
      exact ⟨rfl, rfl, rfl, rfl, rfl, rfl, rfl, rfl, fun _ => rfl, fun _ => ⟨rfl, rfl, fun _ => ⟨rfl, rfl⟩⟩⟩

/-- Settles O49: a layer that completes and one that faults each write their own fields. -/
theorem layerFrame : Obligations.LayerFrame := by
  unfold Obligations.LayerFrame
  intro alg key s t h
  rw [exec_ofLayer] at h
  rcases dispatchLayer_frame h with ⟨out, eng, sdes, tr, rfl, hother, hdes⟩ | ⟨k, rfl⟩
  · refine ⟨rfl, rfl, rfl, rfl, rfl, rfl, rfl, rfl, rfl, rfl, fun _ => ⟨rfl, rfl, rfl⟩, ?_, hdes,
      .inl ⟨rfl, rfl, rfl, rfl, rfl⟩⟩
    intro hne
    obtain ⟨hsdes, rfl⟩ := hother hne
    exact ⟨hsdes, List.append_nil _⟩
  · exact ⟨rfl, rfl, rfl, rfl, rfl, rfl, rfl, rfl, rfl, rfl, fun _ => ⟨rfl, rfl, rfl⟩, fun _ => ⟨rfl, rfl⟩,
      fun _ => rfl, .inr ⟨rfl, rfl, rfl, rfl, rfl, rfl⟩⟩

/-! ### Host accesses during a run -/

/-- While a run is in progress or commanded the host reads BUSY (log entry 18). -/
theorem visibleStatus_of_run {s : State} (h : runInProgress s = true) : visibleStatus s = .busy := by
  simp [visibleStatus, h]

/-- While a run is in progress or commanded a host write is ignored (R71). -/
theorem hostWrite_of_run (f : State → State) {s : State} (h : runInProgress s = true) : hostWrite f s = s := by
  simp [hostWrite, h]

/-- While a run is in progress or commanded no register is written (R71). -/
theorem regWrite_of_run {n : Nat} (hn : n ≤ 9) (v : Nat) {s : State} (h : runInProgress s = true) :
    regWrite n v s = .next s := by
  obtain rfl | rfl | rfl | rfl | hread : n = 0 ∨ n = 2 ∨ n = 3 ∨ n = 4 ∨ n = 1 ∨ 5 ≤ n ∧ n ≤ 9 := by omega
  · rw [regWrite, hostWrite_of_run _ h, ite_self]
  · exact congrArg _ (hostWrite_of_run _ h)
  · exact congrArg _ (hostWrite_of_run _ h)
  · exact congrArg _ (hostWrite_of_run _ h)
  · exact regWrite_readOnly hread v s

/-- Settles O59: every host write is guarded, and STATUS reads BUSY, which is neither DONE nor FAULT. -/
theorem inputsFrozenDuringRun : Obligations.InputsFrozenDuringRun := by
  unfold Obligations.InputsFrozenDuringRun
  intro n v i j c s hrun
  have hbusy : visibleStatus s = .busy := visibleStatus_of_run hrun
  have hdone : visibleStatus s ≠ .done := by simp [hbusy]
  have hfault : visibleStatus s ≠ .fault := by simp [hbusy]
  obtain ⟨hrlen, htrlen⟩ := regRead_lengths_of_not_done hdone
  obtain ⟨hcause, hlayer, halg⟩ := regRead_faultRegs_of_not_fault hfault
  exact ⟨fun hn => regWrite_of_run hn v hrun, hostWrite_of_run _ hrun, hostWrite_of_run _ hrun, hostWrite_of_run _ hrun,
    hostWrite_of_run _ hrun, by rw [regRead_status, hbusy]; rfl, hrlen, htrlen, hcause, hlayer, halg,
    outputRead_of_not_done hdone _ i, outputRead_of_not_done hdone _ i⟩

/-! ### Host buffer writes -/

@[simp] theorem memRead_write_same (m : Memory) (i : Nat) (c : Chr) : memRead (memWrite m i c) i = some c :=
  cellsRead_write_same m i c

theorem memRead_write_other (m : Memory) {i a : Nat} (c : Chr) (h : a ≠ i) : memRead (memWrite m i c) a = memRead m a :=
  cellsRead_write_other m c h.symm

@[simp] theorem layerEntry_write_same (t : Cells LayerEntry) (i : Nat) (e : LayerEntry) :
    layerEntry (cellsWrite t i e) i = e := by
  rw [layerEntry, cellsRead_write_same, Option.getD_some]

theorem layerEntry_write_other (t : Cells LayerEntry) {i a : Nat} (e : LayerEntry) (h : a ≠ i) :
    layerEntry (cellsWrite t i e) a = layerEntry t a := by
  rw [layerEntry, cellsRead_write_other t e h.symm, layerEntry]

/-- An element a buffer holds stands in one of its cells. -/
theorem mem_of_cellsRead {α : Type} {m : Cells α} {i : Nat} {v : α} (h : cellsRead m i = some v) : (i, v) ∈ m := by
  induction m with
  | nil => cases h
  | cons c m ih =>
    rw [cellsRead] at h
    split at h
    · next hi =>
      cases h
      exact hi ▸ List.mem_cons_self
    · exact List.mem_cons_of_mem _ (ih h)

/-- The key of a descriptor is canonical when the keys of the table are; one never written is empty. -/
theorem layerEntry_key_wf {t : Cells LayerEntry} (ht : ∀ e ∈ t, Memory.wf e.2.key) (i : Nat) :
    Memory.wf (layerEntry t i).key := by
  unfold layerEntry
  cases he : cellsRead t i with
  | none => rfl
  | some e => exact ht _ (mem_of_cellsRead he)

/-- A character written to TEXT_IN keeps the buffers canonical. -/
theorem memoryWf_writeText {s : State} (hs : s.memoryWf) (i : Nat) (c : Chr) :
    State.memoryWf { s with textIn := memWrite s.textIn i c } := by
  obtain ⟨htext, hrest⟩ := hs
  exact ⟨memWrite_wf i c htext, hrest⟩

/-- A descriptor with a canonical key written to the Layer table keeps the buffers canonical. -/
theorem memoryWf_writeLayer {s : State} (hs : s.memoryWf) (i : Nat) {e : LayerEntry} (he : Memory.wf e.key) :
    State.memoryWf { s with layers := cellsWrite s.layers i e } := by
  obtain ⟨htext, hresult, htrace, hlayers, hkeys⟩ := hs
  refine ⟨htext, hresult, htrace, cellsRising_write e hlayers (Nat.zero_le i), fun x hx => ?_⟩
  rcases mem_cellsWrite hx with rfl | hx
  · exact he
  · exact hkeys x hx

/-- With no run in progress or commanded a host write of TEXT_IN writes its element (R60, R71). -/
theorem textWrite_of_no_run {s : State} (h : runInProgress s = false) (i : Nat) (c : Chr) :
    textWrite i c s = { s with textIn := memWrite s.textIn i c } := hostWrite_of_no_run _ h

/-- With no run in progress or commanded a host write of a header writes that field of LAYER[i] (R60, R66). -/
theorem headerWrite_of_no_run {s : State} (h : runInProgress s = false) (i : Nat) (hd : BitVec 8) :
    headerWrite i hd s =
      { s with layers := cellsWrite s.layers i { layerEntry s.layers i with header := some hd } } :=
  hostWrite_of_no_run _ h

/-- With no run in progress or commanded a host write of KLEN writes that field of LAYER[i] (R60, R66). -/
theorem klenWrite_of_no_run {s : State} (h : runInProgress s = false) (i n : Nat) :
    klenWrite i n s = { s with layers := cellsWrite s.layers i { layerEntry s.layers i with klen := some n } } :=
  hostWrite_of_no_run _ h

/-- With no run in progress or commanded a host write of a key element writes that element of LAYER[i].KEY (R60, R66). -/
theorem keyWrite_of_no_run {s : State} (h : runInProgress s = false) (i j : Nat) (c : Chr) :
    keyWrite i j c s = { s with
      layers := cellsWrite s.layers i
        { layerEntry s.layers i with key := memWrite (layerEntry s.layers i).key j c } } :=
  hostWrite_of_no_run _ h

/-- Settles O60: with no run in progress each write is accepted, and is one write of a cell. -/
theorem hostBufferWrites : Obligations.HostBufferWrites := by
  unfold Obligations.HostBufferWrites
  intro i j n c s hrun e
  rw [textWrite_of_no_run hrun, headerWrite_of_no_run hrun, klenWrite_of_no_run hrun, keyWrite_of_no_run hrun]
  refine ⟨⟨memRead_write_same .., fun _ => memRead_write_other _ c, rfl⟩,
    ⟨layerEntry_write_same .., fun _ => layerEntry_write_other _ _, rfl⟩,
    ⟨layerEntry_write_same .., fun _ => layerEntry_write_other _ _, rfl⟩,
    ⟨memWrite e.key j c, layerEntry_write_same .., memRead_write_same .., fun _ => memRead_write_other _ c,
      fun _ => layerEntry_write_other _ _, rfl⟩, fun hs => ?_⟩
  have ⟨_, _, _, _, hkeys⟩ := hs
  have hkey : Memory.wf e.key := layerEntry_key_wf hkeys i
  exact ⟨memoryWf_writeText hs i c, memoryWf_writeLayer hs i hkey, memoryWf_writeLayer hs i hkey,
    memoryWf_writeLayer hs i (memWrite_wf j c hkey)⟩

end Sys2Proof.Machine
end

section
/-! PROOF. The round trip of encoder and decoder, the words that decode, and the grammars of the key decoders
(spec/30_encoding.md R90 to R102, R283). -/

namespace Sys2Proof.Machine

/-! ### Layer words -/

/-- The codes of R92 name eight different algorithms. -/
@[simp] theorem algOfCode_algCode (a : Alg) : algOfCode (algCode a) = a := by cases a <;> rfl

/-- Every ALG code is the code of its algorithm (R92, R98). -/
@[simp] theorem algCode_algOfCode : ∀ c : BitVec 3, algCode (algOfCode c) = c := by decide

/-- A header written with its reserved bits 0 carries the algorithm's code in ALG (R90). -/
@[simp] theorem algField_headerOf (a : Alg) : algField (headerOf a) = algCode a := by cases a <;> rfl

/-- ALG 000 is SKIP and no other code is (R92). -/
theorem algOfCode_eq_skip : ∀ c : BitVec 3, algOfCode c = .skip ↔ c = 0#3 := by decide

/-- A Layer descriptor of an algorithm with its whole key decodes to the algorithm's operation (R90, R92). -/
theorem decode_layer_headerOf (a : Alg) (key : Text) :
    decode (.layer (headerOf a) key.length key) = .ok (Instr.ofLayer a key) := by
  simp [decodeLayer_ok (le_refl key.length)]

/-- The encoding of a Layer operation other than SKIP is its header with its whole key (R90). -/
theorem encode_ofLayer {a : Alg} (ha : a ≠ .skip) (key : Text) :
    encode (Instr.ofLayer a key) = .layer (headerOf a) key.length key := by
  cases a with
  | skip => exact absurd rfl ha
  | caesar | mono | vigenere | railfence | rowcol | des | playfair => rfl

/-- A Layer word decodes to SKIP on ALG 000, and otherwise, with its whole key, to the operation of its ALG field (R90,
R98, R283). -/
theorem decode_layer_cases {h : BitVec 8} {n : Nat} {key : Text} {i : Instr} (hd : decode (.layer h n key) = .ok i) :
    (algField h = 0#3 ∧ i = .skip) ∨
    (algField h ≠ 0#3 ∧ n ≤ key.length ∧ i = Instr.ofLayer (algOfCode (algField h)) (key.take n)) := by
  simp only [decode, decodeLayer, algOfCode_eq_skip] at hd
  split at hd
  · next hs => cases hd; exact .inl ⟨hs, rfl⟩
  · next hs =>
    split at hd
    · next hn => cases hd; exact .inr ⟨hs, hn, rfl⟩
    · cases hd

/-! ### Words of the other formats -/

/-- A BVU word that decodes is the encoding of its operation, by a look at each of the 32 words (R100). -/
theorem encode_of_decode_bvu : ∀ w : BitVec 5, ∀ i ∈ (decode (.bvu w)).toOption, encode i = .bvu w := by decide

/-- An SDESQ word that decodes is the encoding of its operation, by a look at each of the 8 words (R101). -/
theorem encode_of_decode_sdesq : ∀ w : BitVec 3, ∀ i ∈ (decode (.sdesq w)).toOption, encode i = .sdesq w := by decide

/-- A command that decodes is the encoding of RUN (R102). -/
theorem encode_of_decode_cmd : ∀ w : BitVec 1, ∀ i ∈ (decode (.cmd w)).toOption, encode i = .cmd w := by decide

/-- The operation a word decodes to, as an option. -/
theorem mem_toOption_of_decode {w : Word} {i : Instr} (h : decode w = .ok i) : i ∈ (decode w).toOption := by
  rw [h]; rfl

/-- A word has an operation exactly when the decoder answers without an error. -/
theorem exists_decode_iff (w : Word) : (∃ i, decode w = .ok i) ↔ (decode w).isOk = true := by
  cases decode w <;> simp [Except.isOk, Except.toBool]

/-- The BVU words with an operation, by a look at each of the 32 words (R100). -/
theorem isOk_decode_bvu : ∀ w : BitVec 5, (decode (.bvu w)).isOk = true ↔
    w.toNat < 6 ∨ w.toNat = 8 ∨ w.toNat = 16 ∨ w.toNat = 24 ∨ w.toNat = 25 := by decide

/-- The SDESQ words with an operation, by a look at each of the 8 words (R101). -/
theorem isOk_decode_sdesq : ∀ w : BitVec 3, (decode (.sdesq w)).isOk = true ↔
    w.toNat = 0 ∨ w.toNat = 2 ∨ w.toNat = 3 ∨ w.toNat = 4 := by decide

/-- The command with an operation: a write of 1 (R102). -/
theorem isOk_decode_cmd : ∀ w : BitVec 1, (decode (.cmd w)).isOk = true ↔ w = 1#1 := by decide

/-! ### The round trip, and the words that decode -/

/-- Settles O1: a Layer operation by its header's ALG field, the others by their finitely many operands. -/
theorem decodeInvertsEncode : Obligations.DecodeInvertsEncode := by
  unfold Obligations.DecodeInvertsEncode
  intro i
  cases i with
  | skip => exact decode_layer_headerOf .skip []
  | caesar key => exact decode_layer_headerOf .caesar key
  | mono key => exact decode_layer_headerOf .mono key
  | vigenere key => exact decode_layer_headerOf .vigenere key
  | railfence key => exact decode_layer_headerOf .railfence key
  | rowcol key => exact decode_layer_headerOf .rowcol key
  | des key => exact decode_layer_headerOf .des key
  | playfair key => exact decode_layer_headerOf .playfair key
  | permute t => cases t <;> rfl
  | sbox b => cases b <;> rfl
  | fk k => cases k <;> rfl
  | rotl | xor | keysched | block | run => rfl

/-- Settles O2: a Layer word by the two cases of its decoding, the other formats word by word. -/
theorem encodeRecoversDecodedWord : Obligations.EncodeRecoversDecodedWord := by
  unfold Obligations.EncodeRecoversDecodedWord
  intro w i hd
  cases w with
  | layer h n key =>
    rcases decode_layer_cases hd with ⟨hs, rfl⟩ | ⟨hs, hn, rfl⟩
    · simp only [hs, if_true]
      rfl
    · have ha : algOfCode (algField h) ≠ .skip := mt (algOfCode_eq_skip _).1 hs
      simp [encode_ofLayer ha, headerOf, hs, hn]
  | bvu w => exact encode_of_decode_bvu w i (mem_toOption_of_decode hd)
  | sdesq w => exact encode_of_decode_sdesq w i (mem_toOption_of_decode hd)
  | cmd w => exact encode_of_decode_cmd w i (mem_toOption_of_decode hd)

/-- Settles O3: a Layer word by its ALG field alone, the other formats word by word. -/
theorem decodableWords : Obligations.DecodableWords := by
  unfold Obligations.DecodableWords
  refine ⟨fun h n key hn => ⟨_, decodeLayer_ok hn⟩, fun h h' n key halg => ?_, fun w => ?_, fun w => ?_, fun w => ?_⟩
  · simp only [decode, decodeLayer, halg]
  · rw [exists_decode_iff, isOk_decode_bvu]
  · rw [exists_decode_iff, isOk_decode_sdesq]
  · rw [exists_decode_iff, isOk_decode_cmd]

/-- Settles O4: a Layer word with its whole key decodes by its ALG field, and the other four are encodings. -/
theorem decodedSampleWords : Obligations.DecodedSampleWords := by
  unfold Obligations.DecodedSampleWords
  exact ⟨decodeLayer_ok le_rfl, decodeLayer_ok le_rfl, decodeLayer_ok le_rfl, decodeInvertsEncode (.permute .ep),
    decodeInvertsEncode (.sbox .s1), decodeInvertsEncode (.fk .k2), decodeInvertsEncode .run⟩

/-! ### The key decoders -/

/-- `parseBits` skips whitespace (R95). -/
theorem parseBits_filter (s : Text) : parseBits (s.filter fun c => !isSpace c) = parseBits s := by
  induction s with
  | nil => rfl
  | cons c t ih => by_cases hc : isSpace c <;> simp [parseBits, hc, ih]

/-- What `parseBits` reads is shown by the string without its whitespace (R95, R96). -/
theorem filter_of_parseBits {s : Text} {v : Bits} (h : parseBits s = some v) :
    (s.filter fun c => !isSpace c) = showBits v := by
  induction s generalizing v with
  | nil => cases h; rfl
  | cons c t ih =>
    simp only [parseBits] at h
    split at h
    · next hc => simpa [hc] using ih h
    · next hc =>
      split at h
      · next h0 =>
        obtain ⟨v, hv, rfl⟩ := Option.map_eq_some_iff.1 h
        obtain rfl : c = 0x30#8 := BitVec.eq_of_toNat_eq h0
        simp [hc, ih hv, showBits, bitNat]
      · split at h
        · next h1 =>
          obtain ⟨v, hv, rfl⟩ := Option.map_eq_some_iff.1 h
          obtain rfl : c = 0x31#8 := BitVec.eq_of_toNat_eq h1
          simp [hc, ih hv, showBits, bitNat]
        · cases h

/-- `parseBits` reads exactly the strings that, without their whitespace, show a bit string (R95, R96). -/
theorem parseBits_eq_some (s : Text) (v : Bits) :
    parseBits s = some v ↔ (s.filter fun c => !isSpace c) = showBits v :=
  ⟨filter_of_parseBits, fun h => by rw [← parseBits_filter, h, parseBits_showBits]⟩

/-- A bit is shown as the character 1 or 0 (R96). -/
theorem showBits_eq_map (v : Bits) : showBits v = v.map fun b => if b then 0x31#8 else 0x30#8 :=
  List.map_congr_left fun b _ => by cases b <;> rfl

/-- After a plus sign `parseInt` reads digits (R94). -/
theorem parseInt_plus (d : Text) : parseInt (0x2B#8 :: d) = (parseDigits d).map fun n : Nat => (n : Int) := rfl

/-- After a minus sign `parseInt` reads digits and negates them (R94). -/
theorem parseInt_minus (d : Text) : parseInt (0x2D#8 :: d) = (parseDigits d).map fun n : Nat => -(n : Int) := rfl

/-- Without a sign `parseInt` reads digits (R94). -/
theorem parseInt_unsigned {k : Text} (hplus : k.head? ≠ some 0x2B#8) (hminus : k.head? ≠ some 0x2D#8) :
    parseInt k = (parseDigits k).map fun n : Nat => (n : Int) := by
  cases k with
  | nil => rfl
  | cons c t =>
    have hp : c.toNat ≠ 0x2B := fun h => hplus (congrArg some (BitVec.eq_of_toNat_eq h))
    have hm : c.toNat ≠ 0x2D := fun h => hminus (congrArg some (BitVec.eq_of_toNat_eq h))
    simp [parseInt, hp, hm]

/-- A string of digits does not begin with a character that is none, such as a sign. -/
theorem head?_ne_of_digits {d : Text} (hd : ∀ c ∈ d, 0x30 ≤ c.toNat ∧ c.toNat ≤ 0x39) {x : Chr} (hx : x.toNat < 0x30) :
    d.head? ≠ some x := fun h => by
  have := hd x (List.mem_of_mem_head? h)
  omega

/-- A function of the number `parseDigits` reads is a value exactly on a string of digits (R94). -/
theorem map_parseDigits_eq_some (f : Nat → Int) (d : Text) (n : Int) : (parseDigits d).map f = some n ↔
    d ≠ [] ∧ (∀ c ∈ d, 0x30 ≤ c.toNat ∧ c.toNat ≤ 0x39) ∧ n = f (digitsValue d) := by
  rw [Option.map_eq_some_iff]
  constructor
  · rintro ⟨m, hm, rfl⟩
    obtain ⟨hne, hd, rfl⟩ := (parseDigits_eq_some d m).1 hm
    exact ⟨hne, hd, rfl⟩
  · rintro ⟨hne, hd, rfl⟩
    exact ⟨_, (parseDigits_eq_some d _).2 ⟨hne, hd, rfl⟩, rfl⟩

/-- `parseInt` reads exactly a string of digits with an optional sign, as its decimal value (R94, decision D7). -/
theorem parseInt_eq_some (k : Text) (n : Int) : parseInt k = some n ↔
    ∃ d : Text, d ≠ [] ∧ (∀ c ∈ d, 0x30 ≤ c.toNat ∧ c.toNat ≤ 0x39) ∧
      ((k = d ∨ k = 0x2B#8 :: d) ∧ n = (digitsValue d : Int) ∨ k = 0x2D#8 :: d ∧ n = -(digitsValue d : Int)) := by
  constructor
  · intro h
    by_cases hplus : k.head? = some 0x2B#8
    · obtain ⟨d, rfl⟩ := List.head?_eq_some_iff.1 hplus
      obtain ⟨hne, hd, hn⟩ := (map_parseDigits_eq_some _ d n).1 (parseInt_plus d ▸ h)
      exact ⟨d, hne, hd, .inl ⟨.inr rfl, hn⟩⟩
    by_cases hminus : k.head? = some 0x2D#8
    · obtain ⟨d, rfl⟩ := List.head?_eq_some_iff.1 hminus
      obtain ⟨hne, hd, hn⟩ := (map_parseDigits_eq_some _ d n).1 (parseInt_minus d ▸ h)
      exact ⟨d, hne, hd, .inr ⟨rfl, hn⟩⟩
    · obtain ⟨hne, hd, hn⟩ := (map_parseDigits_eq_some _ k n).1 (parseInt_unsigned hplus hminus ▸ h)
      exact ⟨k, hne, hd, .inl ⟨.inl rfl, hn⟩⟩
  · rintro ⟨d, hne, hd, ⟨rfl | rfl, hn⟩ | ⟨rfl, hn⟩⟩
    · rw [parseInt_unsigned (head?_ne_of_digits hd (by decide)) (head?_ne_of_digits hd (by decide))]
      exact (map_parseDigits_eq_some _ _ n).2 ⟨hne, hd, hn⟩
    · rw [parseInt_plus]
      exact (map_parseDigits_eq_some _ d n).2 ⟨hne, hd, hn⟩
    · rw [parseInt_minus]
      exact (map_parseDigits_eq_some _ d n).2 ⟨hne, hd, hn⟩

/-- Settles O5: each decoder reads exactly its grammar, and the value of digits is built one digit at a time. -/
theorem operandDecoding : Obligations.OperandDecoding := by
  unfold Obligations.OperandDecoding
  refine ⟨parseBits_showBits, fun s v => ?_, parseInt_eq_some, rfl, fun d c => by simp [digitsValue]⟩
  rw [← showBits_eq_map]
  exact parseBits_eq_some s v

end Sys2Proof.Machine
end

section
/-! PROOF. The bit-vector unit: what PERMUTE, ROTL, XOR and SBOX answer (spec/40_bitvector.md R121 to R124), and what an
internal operation leaves unchanged (R120, spec/10_state.md R30, spec/20_memory.md R61). -/

namespace Sys2Proof.Machine

/-! ### The outcome of a BVU operation -/

theorem bvuResult_of_ok {s : State} {r : Except Stop Bits} {v : Bits} (h : r = .ok v) :
    bvuResult s r = .next { s with bvu := { s.bvu with out := v } } := by
  rw [h]
  rfl

theorem bvuResult_of_raised {s : State} {r : Except Stop Bits} {k : FaultKind} (h : r = .error (.raised k)) :
    bvuResult s r = .next (takeFault k .des s) := by
  rw [h]
  rfl

/-! ### PERMUTE -/

/-- The bad entry with no bad entry below it is the one the check finds (R317 (e)). -/
theorem firstBadEntry_of_lowest {n p : Nat} {t : List Int} {e : Int} (he : t[p]? = some e) (hbad : e < 1 ∨ (n : Int) < e)
    (hlow : ∀ j < p, ∀ x, t[j]? = some x → 1 ≤ x ∧ x ≤ (n : Int)) : firstBadEntry n 0 t = some (p, e) := by
  match h : firstBadEntry n 0 t with
  | none =>
    have := firstBadEntry_eq_none.1 h e (List.mem_of_getElem? he)
    omega
  | some (q, x) =>
    obtain ⟨j, rfl, hj, hx, hbelow⟩ := firstBadEntry_eq_some h
    rcases Nat.lt_trichotomy j p with hlt | rfl | hgt
    · have := hlow j hlt x hj
      omega
    · obtain rfl : x = e := by simpa [hj] using he
      simp
    · have := hbelow p hgt e he
      omega

/-- A result of PERMUTE holds at position `i` the bit its entry names, counted from 1 (R121). -/
theorem select_getElem? {bits : Bits} {t : List Int} (h : ∀ e ∈ t, 1 ≤ e ∧ e ≤ (bits.length : Int)) {i : Nat} {e : Int}
    (he : t[i]? = some e) : (t.map fun e => bits.getD (e - 1).toNat false)[i]? = bits[(e - 1).toNat]? := by
  have hrange := h e (List.mem_of_getElem? he)
  have hlt : (e - 1).toNat < bits.length := by omega
  rw [List.getElem?_map, he, Option.map_some, List.getD_eq_getElem _ _ hlt, List.getElem?_eq_getElem hlt]

/-- Settles O6: PERMUTE answers when the check finds no bad entry, and raises the lowest one otherwise. -/
theorem permuteResult : Obligations.PermuteResult := by
  unfold Obligations.PermuteResult
  refine fun t s => ⟨fun hrange => ?_, fun i e he hbad hlow => ?_⟩
  · exact ⟨_, bvuResult_of_ok (permute_ok hrange), by simp, fun i e he => select_getElem? hrange he⟩
  · have hraised : permute s.bvu.a (permTable s.cfg t) = .error (.raised (.indexOutOfRange i e)) := by
      simp [permute, firstBadEntry_of_lowest he hbad hlow]
    exact ⟨hraised, bvuResult_of_raised hraised⟩

/-! ### ROTL -/

/-- ROTL applied `n` times rotates by `n` (R122). -/
theorem iterate_rotl {v : Bits} (h : v ≠ []) (n : Nat) :
    (fun r : Except Stop Bits => r.bind rotl)^[n] (.ok v) = .ok (v.rotate n) := by
  induction n with
  | zero => simp
  | succ n ih =>
    have hne : v.rotate n ≠ [] := by simpa using h
    rw [Function.iterate_succ_apply', ih, ← List.rotate_rotate]
    exact rotl_rotate hne

/-- Settles O7: ROTL rotates by one, so as many times as the vector has bits is the identity. -/
theorem rotlResult : Obligations.RotlResult := by
  unfold Obligations.RotlResult
  refine fun s => ⟨fun hne => ?_, fun hempty => ?_⟩
  · refine ⟨_, bvuResult_of_ok (rotl_rotate hne), by simp, fun i hi => List.getElem?_rotate hi, ?_⟩
    rw [iterate_rotl hne, List.rotate_length]
  · show bvuResult s (rotl s.bvu.a) = .refused .rotlEmpty
    rw [hempty]
    rfl

/-! ### XOR and SBOX -/

/-- Settles O8: XOR answers bit by bit when the lengths agree, and raises LengthMismatch when they do not. -/
theorem xorResult : Obligations.XorResult := by
  unfold Obligations.XorResult
  refine fun s => ⟨fun hlen => ?_, fun hlen => ?_⟩
  · refine ⟨_, bvuResult_of_ok (xorBits_ok hlen), by simp [hlen], fun i x y hx hy => ?_⟩
    simp [List.getElem?_zipWith, hx, hy]
  · exact bvuResult_of_raised (if_neg hlen)

/-- The two bits of a box entry have its value, the first the more significant (R10). -/
theorem num2_entry_bits : ∀ v : Fin 4, num2 (v.val / 2 == 1) (v.val % 2 == 1) = v.val := by decide

/-- SBOX of a vector without exactly four bits (R124, decision D23). -/
theorem sboxLookup_error {b : Bits} (t : SBoxTable) (h : b.length ≠ 4) :
    sboxLookup b t = .error (.raised (.lengthMismatch b.length 4)) := by
  unfold sboxLookup
  split
  · exact absurd rfl h
  · rfl

/-- Settles O9: on four bits SBOX answers the two bits of the selected entry, and on any other length it raises. -/
theorem sboxResult : Obligations.SboxResult := by
  unfold Obligations.SboxResult
  refine fun b s => ⟨fun b0 b1 b2 b3 ha => ?_, fun hlen => bvuResult_of_raised (sboxLookup_error _ hlen)⟩
  have hok := sboxLookup_ok (sboxTable s.cfg b) (b := s.bvu.a) (by simp [ha])
  rw [ha] at hok
  exact ⟨_, _, bvuResult_of_ok (ha ▸ hok), num2_entry_bits _⟩

/-! ### What an internal operation leaves unchanged -/

/-- An S-DES operation leaves the BVU's ports as they were. -/
theorem sdesResult_bvu {s t : State} {r : Except Stop SdesRegs} (h : sdesResult s r = .next t) : t.bvu = s.bvu := by
  unfold sdesResult at h
  split at h
  · cases h
    rfl
  · obtain ⟨k, -, rfl⟩ := stopped_next h
    rfl

/-- What holds of the S-DES registers before an S-DES operation and of every result it computes holds after it, whether it
completes or faults. -/
theorem sdesResult_keeps {P : SdesRegs → Prop} {s t : State} {r : Except Stop SdesRegs} (hs : P s.sdes)
    (hr : ∀ r', r = .ok r' → P r') (h : sdesResult s r = .next t) : P t.sdes := by
  rcases sdesResult_sdes h with hsame | hok
  · rwa [hsame]
  · exact hr _ hok

/-- A BVU operation leaves the S-DES registers as they were (R120). -/
theorem exec_bvu_sdes {i : Instr} {s t : State} (hi : (∃ k, i = .permute k) ∨ i = .rotl ∨ i = .xor ∨ ∃ b, i = .sbox b)
    (h : exec i s = .next t) : t.sdes = s.sdes := by
  rcases hi with ⟨k, rfl⟩ | rfl | rfl | ⟨b, rfl⟩ <;> exact bvuResult_sdes h

/-- An S-DES operation leaves the BVU's ports, KEYV and BLK as they were (R240, R245, R250). -/
theorem exec_sdes_operands {i : Instr} {s t : State} (hi : i = .keysched ∨ (∃ k, i = .fk k) ∨ i = .block)
    (h : exec i s = .next t) : t.bvu = s.bvu ∧ t.sdes.keyv = s.sdes.keyv ∧ t.sdes.blk = s.sdes.blk := by
  have operands : ∀ r, (∀ r', r = .ok r' → r'.keyv = s.sdes.keyv ∧ r'.blk = s.sdes.blk) → sdesResult s r = .next t →
      t.bvu = s.bvu ∧ t.sdes.keyv = s.sdes.keyv ∧ t.sdes.blk = s.sdes.blk := fun _ hr h =>
    ⟨sdesResult_bvu h, sdesResult_keeps (P := fun r => r.keyv = s.sdes.keyv ∧ r.blk = s.sdes.blk) ⟨rfl, rfl⟩ hr h⟩
  rcases hi with rfl | ⟨k, rfl⟩ | rfl
  · refine operands _ (fun r' hr => ?_) h
    obtain ⟨_, _, _, _, _, _, rfl, -⟩ := keySchedule_frame hr
    exact ⟨rfl, rfl⟩
  · refine operands _ (fun r' hr => ?_) h
    obtain ⟨_, _, _, _, _, rfl, -⟩ := roundFunction_frame hr
    exact ⟨rfl, rfl⟩
  · refine operands _ (fun r' hr => ?_) h
    obtain ⟨hkeyv, hblk, -⟩ := processBlock_frame hr
    exact ⟨hkeyv, hblk⟩

/-- Of the internal operations only KEYSCHED writes K1 and K2 (R30). -/
theorem exec_internal_subkeys {i : Instr} {s t : State} (hl : i.layer? = none) (hr : i ≠ .run) (hi : i ≠ .keysched)
    (h : exec i s = .next t) : t.sdes.k1 = s.sdes.k1 ∧ t.sdes.k2 = s.sdes.k2 := by
  cases i with
  | skip | caesar | mono | vigenere | railfence | rowcol | des | playfair => simp [Instr.layer?] at hl
  | permute | rotl | xor | sbox =>
    rw [bvuResult_sdes h]
    exact ⟨rfl, rfl⟩
  | keysched => exact absurd rfl hi
  | fk k =>
    refine sdesResult_keeps (P := fun r => r.k1 = _ ∧ r.k2 = _) ⟨rfl, rfl⟩ (fun r' hr => ?_) h
    obtain ⟨_, _, _, _, _, rfl, -⟩ := roundFunction_frame hr
    exact ⟨rfl, rfl⟩
  | block =>
    refine sdesResult_keeps (P := fun r => r.k1 = _ ∧ r.k2 = _) ⟨rfl, rfl⟩ (fun r' hr => ?_) h
    obtain ⟨-, -, hk1, hk2, -⟩ := processBlock_frame hr
    exact ⟨hk1, hk2⟩
  | run => exact absurd rfl hr

/-- Settles O50: an internal operation that completes changes the S-DES registers and the result port at most, each unit its
own; one that faults changes the fault registers and STATUS only. -/
theorem internalOperationFrame : Obligations.InternalOperationFrame := by
  unfold Obligations.InternalOperationFrame
  intro i s t hl hr h
  have hbvu := fun hi => exec_bvu_sdes hi h
  have hsdes := fun hi => exec_sdes_operands hi h
  have hsubkeys := fun hi => exec_internal_subkeys hl hr hi h
  rcases exec_internal_next hl hr h with ⟨sdes, out, rfl⟩ | ⟨k, rfl⟩
  · exact ⟨rfl, rfl, rfl, rfl, rfl, rfl, rfl, rfl, rfl, rfl, rfl, rfl, rfl, rfl, rfl, fun _ => ⟨rfl, rfl, rfl⟩, hbvu, hsdes,
      hsubkeys, .inl ⟨rfl, rfl, rfl, rfl⟩⟩
  · exact ⟨rfl, rfl, rfl, rfl, rfl, rfl, rfl, rfl, rfl, rfl, rfl, rfl, rfl, rfl, rfl, fun _ => ⟨rfl, rfl, rfl⟩, hbvu, hsdes,
      hsubkeys, .inr ⟨rfl, rfl, rfl⟩⟩

end Sys2Proof.Machine
end

section
/-! PROOF. The substitution engines: CAESAR, MONO and VIGENERE, what each gives and how its two directions undo each other
(spec/41_substitution.md R140 to R154). -/

namespace Sys2Proof.Machine

/-- Two different directions are the two there are (R23). -/
theorem dir_ne_cases {d d' : Dir} (h : d ≠ d') : d = .encrypt ∧ d' = .decrypt ∨ d = .decrypt ∧ d' = .encrypt := by
  cases d <;> cases d' <;> simp at h ⊢

/-! ### Letters and their positions -/

theorem chrL_toNat {k : Nat} (h : k < 26) : (chrL k).toNat = 0x61 + k := by
  rw [chrL, BitVec.toNat_ofNat, Nat.mod_eq_of_lt (by omega)]

theorem isLower_iff {c : Chr} : isLower c = true ↔ 0x61 ≤ c.toNat ∧ c.toNat ≤ 0x7A := by simp [isLower]

theorem isLower_chrL_of_lt {k : Nat} (h : k < 26) : isLower (chrL k) = true := by
  rw [isLower_iff, chrL_toNat h]
  omega

/-- A lowercase letter is the letter at its position. -/
theorem chrL_position {c : Chr} (h : isLower c = true) : chrL (c.toNat - 0x61) = c := by
  obtain ⟨i, rfl⟩ := isLower_chrL c h
  rw [chrL_toNat i.isLt, Nat.add_sub_cancel_left]

theorem position_lt {c : Chr} (h : isLower c = true) : c.toNat - 0x61 < 26 := by
  obtain ⟨-, hhigh⟩ := isLower_iff.1 h
  omega

theorem alphabet_nodup : alphabet.Nodup := by decide

theorem lower_of_not_isAlpha {c : Chr} (h : isAlpha c = false) : lower c = c := by
  have hupper : isUpper c = false := (Bool.or_eq_false_iff.1 h).1
  simp [lower, hupper]

theorem ord0_lt {c : Chr} (h : isAlpha c = true) : ord0 c < 26 :=
  position_lt ((isLower_lower c).trans h)

theorem shiftPos_lt (p : Nat) (k : Int) : shiftPos p k < 26 := by
  rw [shiftPos]
  omega

/-- A shift back by at most 26, without integers. -/
theorem shiftPos_neg (p : Nat) {k : Nat} (h : k ≤ 26) : shiftPos p (-k) = (p + 26 - k) % 26 := by
  rw [shiftPos]
  omega

theorem shiftPos_zero {p : Nat} (h : p < 26) : shiftPos p 0 = p := by
  rw [shiftPos]
  omega

/-- Two shifts are one by their sum. -/
theorem shiftPos_shiftPos (p : Nat) (k l : Int) : shiftPos (shiftPos p k) l = shiftPos p (k + l) := by
  simp only [shiftPos]
  omega

/-! ### CAESAR -/

theorem caesarEngine_ok {key : Text} {n : Int} (h : parseInt key = some n) (d : Dir) (w : Text) :
    caesarEngine key d w = .ok (caesarShift n d, w.map (caesarChar (caesarShift n d))) := by
  simp only [caesarEngine, h]

/-- CAESAR on an integer key completes its layer (R140). -/
theorem exec_caesar {key : Text} {n : Int} (h : parseInt key = some n) (s : State) :
    exec (.caesar key) s = .next (layerDone (s.w.map (caesarChar (caesarShift n s.dir)))
      { s with eng := { s.eng with shift := caesarShift n s.dir } }) := by
  simp only [exec, execCaesar, caesarEngine_ok h]

theorem engineText_caesar {key : Text} {n : Int} (h : parseInt key = some n) (c : Config) (d : Dir) (w : Text) :
    engineText c .caesar key d w = .ok (w.map (caesarChar (caesarShift n d)), []) := by
  simp only [engineText, caesarEngine_ok h, Except.map]

/-- SHIFT depends on the key modulo 26 only (R141). -/
theorem caesarShift_congr {m n : Int} (h : m % 26 = n % 26) (d : Dir) : caesarShift m d = caesarShift n d := by
  cases d <;> simp only [caesarShift] <;> omega

/-- SHIFT of one direction is the opposite of SHIFT of the other (R140). -/
theorem caesarShift_other (n : Int) {d d' : Dir} (h : d ≠ d') :
    caesarShift n d < 26 ∧ caesarShift n d' = (26 - caesarShift n d) % 26 := by
  rcases dir_ne_cases h with ⟨rfl, rfl⟩ | ⟨rfl, rfl⟩ <;> simp only [caesarShift] <;> omega

/-- Each direction of CAESAR undoes the other (R143). -/
theorem caesarText_undo (n : Int) {d d' : Dir} (h : d ≠ d') (t : Text) :
    (t.map (caesarChar (caesarShift n d))).map (caesarChar (caesarShift n d')) = t := by
  obtain ⟨hlt, hother⟩ := caesarShift_other n h
  have hchar : caesarChar (caesarShift n d') ∘ caesarChar (caesarShift n d) = id :=
    funext fun c => hother ▸ caesarChar_inverse c ⟨caesarShift n d, hlt⟩
  rw [List.map_map, hchar, List.map_id]

/-- Settles O16: CAESAR is one shift of every letter by SHIFT. -/
theorem caesarResult : Obligations.CaesarResult := by
  unfold Obligations.CaesarResult
  intro key n s hkey
  refine ⟨_, exec_caesar hkey s, rfl, caesarShift_cast n s.dir, List.length_map _, fun i c hc => ?_⟩
  simp [hc, caesarChar, shiftPos_nat]

/-- Settles O17: in either order the two shifts undo each other. -/
theorem caesarRoundTrip : Obligations.CaesarRoundTrip := by
  unfold Obligations.CaesarRoundTrip
  intro key n c t hkey
  have undo : ∀ d d' : Dir, d ≠ d' →
      ∃ u, engineText c .caesar key d t = .ok (u, []) ∧ engineText c .caesar key d' u = .ok (t, []) := fun d d' hne =>
    ⟨_, engineText_caesar hkey c d t, by rw [engineText_caesar hkey, caesarText_undo n hne]⟩
  exact ⟨undo .encrypt .decrypt (by decide), undo .decrypt .encrypt (by decide)⟩

/-- Settles O18: the keys give the same SHIFT, and SHIFT of `n` to decrypt is by definition SHIFT of `-n` to encrypt. -/
theorem caesarKeyModulo26 : Obligations.CaesarKeyModulo26 := by
  unfold Obligations.CaesarKeyModulo26
  intro k1 k2 n1 n2 s h1 h2
  constructor
  · intro hmod
    rw [exec_caesar h1, exec_caesar h2, caesarShift_congr hmod]
  · rintro rfl
    exact ⟨_, _, exec_caesar h1 _, exec_caesar h2 _, rfl⟩

/-! ### MONO -/

theorem monoEngine_ok {key : Text} (h : key ≠ []) (winner : DupWinner) (d : Dir) (w : Text) :
    monoEngine winner key d w = .ok (monoMap winner key d, (lowerText w).map (mapChar (monoMap winner key d))) := by
  simp only [monoEngine, h, if_false]

/-- MONO on a non-empty key completes its layer (R145). -/
theorem exec_mono {key : Text} (h : key ≠ []) (s : State) :
    exec (.mono key) s = .next (layerDone ((lowerText s.w).map (mapChar (monoMap s.cfg.monoDupWinner key s.dir)))
      { s with eng := { s.eng with map := monoMap s.cfg.monoDupWinner key s.dir } }) := by
  simp only [exec, execMono, monoEngine_ok h]

theorem engineText_mono {key : Text} (h : key ≠ []) (c : Config) (d : Dir) (w : Text) :
    engineText c .mono key d w = .ok ((lowerText w).map (mapChar (monoMap c.monoDupWinner key d)), []) := by
  simp only [engineText, monoEngine_ok h, Except.map]

/-- The key character at a cyclic position of a non-empty key. -/
theorem cyclicKey_eq_some_iff {key : Text} (h : key ≠ []) (k : Nat) (c : Chr) :
    key[k % key.length]? = some c ↔ key.getD (k % key.length) 0 = c := by
  have hlt : k % key.length < key.length := Nat.mod_lt _ (List.length_pos_of_ne_nil h)
  rw [List.getElem?_eq_getElem hlt, List.getD_eq_getElem _ _ hlt, Option.some.injEq]

/-- To encrypt, a letter becomes the key character at its cyclic position; any other character is kept (R145, R146). -/
theorem mapChar_monoMap_encrypt {key : Text} (h : key ≠ []) (winner : DupWinner) (c : Chr) :
    some (mapChar (monoMap winner key .encrypt) c) =
      if isLower c then key[(c.toNat - 0x61) % key.length]? else some c := by
  rw [mapChar, monoMap, alphabetSize, monoMap_encrypt winner key 26 le_rfl]
  by_cases hc : isLower c = true
  · rw [if_pos ⟨hc, position_lt hc⟩, if_pos hc, (cyclicKey_eq_some_iff h _ _).2 rfl, Option.getD_some]
  · rw [if_neg fun hand => hc hand.1, if_neg hc, Option.getD_none]

/-- Of two alphabet positions with the same key character, MONO_DUP_WINNER keeps `k` against `j` (R147). -/
def winsOver (winner : DupWinner) (k j : Nat) : Prop :=
  match winner with
  | .last => j ≤ k
  | .first => k ≤ j

theorem winsOver_refl (winner : DupWinner) (k : Nat) : winsOver winner k k := by
  cases winner <;> exact le_refl k

theorem winsOver_antisymm {winner : DupWinner} {k j : Nat} (hkj : winsOver winner k j) (hjk : winsOver winner j k) :
    k = j := by
  cases winner with
  | last => exact le_antisymm hjk hkj
  | first => exact le_antisymm hkj hjk

/-- To decrypt, a character paired with alphabet letters becomes the winner of them (R146, R147). -/
theorem mapChar_monoMap_decrypt {key : Text} {winner : DupWinner} {k : Nat} {c : Chr} (h : key ≠ []) (hk : k < 26)
    (hc : key[k % key.length]? = some c)
    (hwins : ∀ j < 26, key[j % key.length]? = some c → winsOver winner k j) :
    mapChar (monoMap winner key .decrypt) c = chrL k := by
  simp only [cyclicKey_eq_some_iff h] at hc hwins
  rcases monoMap_decrypt winner key 26 c with ⟨-, habsent⟩ | ⟨k', hk', hc', hget, hwins'⟩
  · exact absurd hc (habsent k hk)
  · obtain rfl : k = k' := winsOver_antisymm (hwins k' hk' hc') (hwins' k hk hc)
    rw [mapChar, monoMap, alphabetSize, hget, Option.getD_some]

/-- To decrypt, a character of no key position is kept (R145). -/
theorem mapChar_monoMap_decrypt_absent {key : Text} {winner : DupWinner} {c : Chr} (h : key ≠ [])
    (habsent : ∀ k < 26, key[k % key.length]? ≠ some c) : mapChar (monoMap winner key .decrypt) c = c := by
  rcases monoMap_decrypt winner key 26 c with ⟨hnone, -⟩ | ⟨k, hk, hc, -⟩
  · rw [mapChar, monoMap, alphabetSize, hnone, Option.getD_none]
  · exact absurd ((cyclicKey_eq_some_iff h k c).2 hc) (habsent k hk)

/-- Settles O19: the output is MAP on each character, and MAP is what the loop over the alphabet leaves. -/
theorem monoResult : Obligations.MonoResult := by
  unfold Obligations.MonoResult
  intro key s hkey
  refine ⟨_, exec_mono hkey s, rfl, by simp [lowerText], fun i c hc => ?_⟩
  have hout : ∀ m, ((lowerText s.w).map (mapChar m))[i]? = some (mapChar m c) := fun m => by
    rw [lowerText, List.getElem?_map, hc, Option.map_some]
  rw [layerDone_w, hout]
  cases s.dir with
  | encrypt => exact mapChar_monoMap_encrypt hkey _ c
  | decrypt =>
    exact ⟨fun k hk hkc hwins => congrArg some (mapChar_monoMap_decrypt hkey hk hkc hwins),
      fun habsent => congrArg some (mapChar_monoMap_decrypt_absent hkey habsent)⟩

/-! A permutation key: its first 26 characters are the alphabet in some order (R149). -/
section PermutationKey

variable {key : Text} (hp : (key.take 26).Perm alphabet)
include hp

theorem permKey_length : 26 ≤ key.length := by
  have hlen : (key.take 26).length = 26 := hp.length_eq
  rw [List.length_take] at hlen
  omega

theorem permKey_ne_nil : key ≠ [] := by
  rintro rfl
  exact absurd (permKey_length hp) (by decide)

/-- The alphabet reaches the first 26 characters of a permutation key only. -/
theorem permKey_cyclic {k : Nat} (hk : k < 26) : key[k % key.length]? = (key.take 26)[k]? := by
  rw [Nat.mod_eq_of_lt (hk.trans_le (permKey_length hp)), List.getElem?_take_of_lt hk]

theorem permKey_isLower {k : Nat} {c : Chr} (hk : k < 26) (hc : key[k % key.length]? = some c) : isLower c = true := by
  rw [permKey_cyclic hp hk] at hc
  exact (mem_alphabet c).1 (hp.mem_iff.1 (List.mem_of_getElem? hc))

/-- No two alphabet letters share a key character. -/
theorem permKey_injective {k j : Nat} {c : Chr} (hk : k < 26) (hj : j < 26) (hkc : key[k % key.length]? = some c)
    (hjc : key[j % key.length]? = some c) : k = j := by
  rw [permKey_cyclic hp hk] at hkc
  rw [permKey_cyclic hp hj] at hjc
  obtain ⟨hlt, -⟩ := List.getElem?_eq_some_iff.1 hkc
  exact (List.getElem?_inj hlt (hp.nodup_iff.2 alphabet_nodup)).1 (hkc.trans hjc.symm)

/-- Under a permutation key MONO decrypts each encrypted character of a lowercased text, whoever wins duplicates (R149). -/
theorem mapChar_monoMap_undo (winner : DupWinner) {c : Chr} (hc : lower c = c) :
    mapChar (monoMap winner key .decrypt) (lower (mapChar (monoMap winner key .encrypt) c)) = c := by
  have henc := mapChar_monoMap_encrypt (permKey_ne_nil hp) winner c
  by_cases hl : isLower c = true
  · rw [if_pos hl] at henc
    have hpos := position_lt hl
    rw [lower_isLower (permKey_isLower hp hpos henc.symm)]
    have hwins : ∀ j < 26, key[j % key.length]? = some (mapChar (monoMap winner key .encrypt) c) →
        winsOver winner (c.toNat - 0x61) j := by
      intro j hj hjc
      rw [permKey_injective hp hpos hj henc.symm hjc]
      exact winsOver_refl winner j
    rw [mapChar_monoMap_decrypt (permKey_ne_nil hp) hpos henc.symm hwins, chrL_position hl]
  · rw [if_neg hl, Option.some.injEq] at henc
    rw [henc, hc]
    exact mapChar_monoMap_decrypt_absent (permKey_ne_nil hp) fun k hk hkc => hl (permKey_isLower hp hk hkc)

end PermutationKey

/-- Settles O20: character by character, under a key that pairs each letter with its own character. -/
theorem monoRoundTrip : Obligations.MonoRoundTrip := by
  unfold Obligations.MonoRoundTrip
  intro key c t hp
  have hkey := permKey_ne_nil hp
  refine ⟨_, engineText_mono hkey c .encrypt t, ?_⟩
  rw [engineText_mono hkey]
  have hchars : ∀ x ∈ t, mapChar (monoMap c.monoDupWinner key .decrypt)
      (lower (mapChar (monoMap c.monoDupWinner key .encrypt) (lower x))) = lower x := fun x _ =>
    mapChar_monoMap_undo hp c.monoDupWinner (lower_idem x)
  simpa [lowerText] using hchars

/-! ### VIGENERE -/

theorem vigenereEngine_ok {key : Text} (h : key ≠ []) (ha : ∀ c ∈ key, isAlpha c) (d : Dir) (w : Text) :
    vigenereEngine key d w = .ok (key.map ord0, w.countP isAlpha, vigenereText (key.map ord0) d 0 (lowerText w)) := by
  simp only [vigenereEngine, if_pos (show key ≠ [] ∧ key.all isAlpha from ⟨h, List.all_eq_true.2 ha⟩), countP_lowerText]

/-- VIGENERE on a non-empty alphabetic key completes its layer (R151). -/
theorem exec_vigenere {key : Text} (h : key ≠ []) (ha : ∀ c ∈ key, isAlpha c) (s : State) :
    exec (.vigenere key) s = .next (layerDone (vigenereText (key.map ord0) s.dir 0 (lowerText s.w))
      { s with eng := { s.eng with ks := key.map ord0, kp := s.w.countP isAlpha } }) := by
  simp only [exec, execVigenere, vigenereEngine_ok h ha]

theorem engineText_vigenere {key : Text} (h : key ≠ []) (ha : ∀ c ∈ key, isAlpha c) (c : Config) (d : Dir) (w : Text) :
    engineText c .vigenere key d w = .ok (vigenereText (key.map ord0) d 0 (lowerText w), []) := by
  simp only [engineText, vigenereEngine_ok h ha, Except.map]

/-- KS at a cyclic position is the shift of the key letter there, which is below 26 (R151). -/
theorem cyclicShift {key : Text} (h : key ≠ []) (ha : ∀ c ∈ key, isAlpha c) (n : Nat) :
    (key.map ord0).getD (n % (key.map ord0).length) 0 = ord0 (key.getD (n % key.length) 0) ∧
      ord0 (key.getD (n % key.length) 0) < 26 := by
  have hlt : n % key.length < key.length := Nat.mod_lt _ (List.length_pos_of_ne_nil h)
  rw [List.length_map, List.getD_eq_getElem _ _ (by simpa using hlt), List.getElem_map, List.getD_eq_getElem _ _ hlt]
  exact ⟨rfl, ord0_lt (ha _ (List.getElem_mem hlt))⟩

/-- VIGENERE moves a letter of the lowercased text by the shift (R151). -/
theorem vigenereChar_lower (d : Dir) {shift : Nat} (h : shift ≤ 26) (c : Chr) : vigenereChar d shift (lower c) =
    match d with
    | .encrypt => chrL ((ord0 c + shift) % 26)
    | .decrypt => chrL ((ord0 c + 26 - shift) % 26) := by
  cases d with
  | encrypt => exact congrArg chrL (shiftPos_nat (ord0 c) shift)
  | decrypt => exact congrArg chrL (shiftPos_neg (ord0 c) h)

/-- Settles O21: the walk over the lowercased text, read at each position. -/
theorem vigenereResult : Obligations.VigenereResult := by
  unfold Obligations.VigenereResult
  intro key s hkey halpha
  refine ⟨_, exec_vigenere hkey halpha s, rfl, rfl, rfl, by simp [vigenereText_length, lowerText], fun i c hc => ?_⟩
  have hlower : (lowerText s.w)[i]? = some (lower c) := by simp [lowerText, hc]
  have hcount : ((lowerText s.w).take i).countP isLower = (s.w.take i).countP isAlpha := by
    rw [← countP_lowerText, lowerText, lowerText, List.map_take]
  obtain ⟨hshift, hlt⟩ := cyclicShift hkey halpha ((s.w.take i).countP isAlpha)
  rw [layerDone_w, vigenereText_get _ _ _ _ _ _ hlower, isLower_lower, hcount, Nat.zero_add, hshift]
  by_cases hc' : isAlpha c = true
  · rw [if_pos hc', if_pos hc']
    exact congrArg some (vigenereChar_lower _ hlt.le c)
  · rw [if_neg hc', if_neg hc', lower_of_not_isAlpha (by simpa using hc')]

/-- VIGENERE moves a letter to a lowercase letter. -/
theorem isLower_vigenereChar (d : Dir) (shift : Nat) (c : Chr) : isLower (vigenereChar d shift c) = true := by
  cases d <;> exact isLower_chrL_of_lt (shiftPos_lt _ _)

/-- A shift in the other direction moves a lowercase letter back. -/
theorem vigenereChar_undo {d d' : Dir} (h : d ≠ d') (shift : Nat) {c : Chr} (hc : isLower c = true) :
    vigenereChar d' shift (vigenereChar d shift c) = c := by
  have undo : ∀ k l : Int, k + l = 0 → chrL (shiftPos ((chrL (shiftPos (c.toNat - 0x61) k)).toNat - 0x61) l) = c := by
    intro k l hkl
    rw [chrL_toNat (shiftPos_lt _ _), Nat.add_sub_cancel_left, shiftPos_shiftPos, hkl, shiftPos_zero (position_lt hc),
      chrL_position hc]
  rcases dir_ne_cases h with ⟨rfl, rfl⟩ | ⟨rfl, rfl⟩
  · exact undo _ _ (by omega)
  · exact undo _ _ (by omega)

/-- The walk in the other direction undoes the walk: both meet letters at the same positions, so with the same key letters
(R152, R154). -/
theorem vigenereText_undo (ks : List Nat) {d d' : Dir} (h : d ≠ d') (kp : Nat) (t : Text) :
    vigenereText ks d' kp (vigenereText ks d kp t) = t := by
  induction t generalizing kp with
  | nil => rfl
  | cons c t ih =>
    by_cases hc : isLower c = true
    · simp [vigenereText, hc, isLower_vigenereChar, vigenereChar_undo h, ih]
    · simp [vigenereText, hc, ih]

/-- The walk leaves a lowercased text lowercased. -/
theorem lowerText_vigenereText (ks : List Nat) (d : Dir) (kp : Nat) (t : Text) :
    lowerText (vigenereText ks d kp (lowerText t)) = vigenereText ks d kp (lowerText t) := by
  induction t generalizing kp with
  | nil => rfl
  | cons c t ih =>
    simp only [lowerText, List.map_cons] at ih ⊢
    by_cases hc : isLower (lower c) = true
    · simp [vigenereText, hc, lower_isLower (isLower_vigenereChar _ _ _), ih]
    · simp [vigenereText, hc, lower_idem, ih]

/-- Settles O22: in either order the two walks undo each other on the lowercased text. -/
theorem vigenereRoundTrip : Obligations.VigenereRoundTrip := by
  unfold Obligations.VigenereRoundTrip
  intro key c t hkey halpha
  have undo : ∀ d d' : Dir, d ≠ d' →
      ∃ u, engineText c .vigenere key d t = .ok (u, []) ∧ engineText c .vigenere key d' u = .ok (lowerText t, []) :=
    fun d d' hne => ⟨_, engineText_vigenere hkey halpha c d t, by
      rw [engineText_vigenere hkey halpha, lowerText_vigenereText, vigenereText_undo _ hne]⟩
  exact ⟨undo .encrypt .decrypt (by decide), undo .decrypt .encrypt (by decide)⟩

end Sys2Proof.Machine
end

section
/-! PROOF. The transposition engines: RAILFENCE and ROWCOL, the order in which each visits the text, what each gives and how
its two directions undo each other (spec/42_transposition.md R170 to R185). -/

namespace Sys2Proof.Machine

/-! ### Engines that visit the text in an order -/

/-- The output of an engine that visits the text in the order `p`: encryption reads in it, decryption writes in it. -/
def visitText (p : List Nat) (dir : Dir) (w : Text) : Text :=
  match dir with
  | .encrypt => gather p w
  | .decrypt => scatter p w

theorem visitText_length {p : List Nat} {w : Text} (hp : p.Perm (List.range w.length)) (d : Dir) :
    (visitText p d w).length = w.length := by
  cases d with
  | encrypt => simpa [visitText] using hp.length_eq
  | decrypt => exact scatter_length p w

/-- Each direction undoes the other when the order visits every position once. -/
theorem visitText_undo {p : List Nat} {w : Text} (hp : p.Perm (List.range w.length)) {d d' : Dir} (h : d ≠ d') :
    visitText p d' (visitText p d w) = w := by
  rcases dir_ne_cases h with ⟨rfl, rfl⟩ | ⟨rfl, rfl⟩
  · exact scatter_gather hp
  · exact gather_scatter hp

/-- A visit class by class meets every position below `n` once, when bucket `q` lists once each the positions whose class
is `q`. -/
theorem flatMap_perm_range {classes : List Nat} {bucket : Nat → List Nat} {n : Nat} (classOf : Nat → Nat)
    (hclasses : classes.Nodup) (hbucket : ∀ q ∈ classes, (bucket q).Nodup)
    (hmem : ∀ q ∈ classes, ∀ i, i ∈ bucket q ↔ i < n ∧ classOf i = q) (hclass : ∀ i < n, classOf i ∈ classes) :
    (classes.flatMap bucket).Perm (List.range n) := by
  have hdisjoint : classes.Pairwise (Function.onFun List.Disjoint bucket) := by
    refine hclasses.imp_of_mem fun {p q} hp hq hne i hip hiq => hne ?_
    rw [← ((hmem p hp i).1 hip).2, ((hmem q hq i).1 hiq).2]
  refine (List.perm_ext_iff_of_nodup (List.nodup_flatMap.2 ⟨hbucket, hdisjoint⟩) List.nodup_range).2 fun i => ?_
  rw [List.mem_flatMap, List.mem_range]
  constructor
  · rintro ⟨q, hq, hi⟩
    exact ((hmem q hq i).1 hi).1
  · exact fun hi => ⟨classOf i, hclass i hi, (hmem _ (hclass i hi) i).2 ⟨hi, rfl⟩⟩

/-! ### The zig-zag -/

/-- The direction in which the zig-zag leaves text index `i` with `r >= 2` rails, in closed form (R171). -/
def zigzagDown (r i : Nat) : Bool := decide (i % (2 * (r - 1)) < r - 1)

/-- The position within the zig-zag's period rises by one, or starts again. -/
theorem zigzag_position_succ {r : Nat} (hr : 2 ≤ r) (i : Nat) : (i + 1) % (2 * (r - 1)) =
    if i % (2 * (r - 1)) + 1 = 2 * (r - 1) then 0 else i % (2 * (r - 1)) + 1 := by
  have hlt : i % (2 * (r - 1)) < 2 * (r - 1) := Nat.mod_lt _ (by omega)
  rw [Nat.add_mod_eq_ite, Nat.mod_eq_of_lt (show 1 < 2 * (r - 1) by omega)]
  split <;> split <;> omega

theorem nextRow_railOf {r : Nat} (hr : 2 ≤ r) (i : Nat) : nextRow (railOf r i) (zigzagDown r i) = railOf r (i + 1) := by
  have hlt : i % (2 * (r - 1)) < 2 * (r - 1) := Nat.mod_lt _ (by omega)
  simp only [nextRow, railOf, zigzagDown, zigzag_position_succ hr, decide_eq_true_eq]
  split_ifs <;> omega

theorem railOf_eq_top_iff {r : Nat} (hr : 2 ≤ r) (i : Nat) : railOf r i = 0 ↔ i % (2 * (r - 1)) = 0 := by
  have hlt : i % (2 * (r - 1)) < 2 * (r - 1) := Nat.mod_lt _ (by omega)
  rw [railOf]
  split <;> omega

theorem railOf_eq_bottom_iff {r : Nat} (hr : 2 ≤ r) (i : Nat) : railOf r i = r - 1 ↔ i % (2 * (r - 1)) = r - 1 := by
  have hlt : i % (2 * (r - 1)) < 2 * (r - 1) := Nat.mod_lt _ (by omega)
  rw [railOf]
  split <;> omega

/-- The walk turns on the top and the bottom rail and nowhere else. -/
theorem nextDown_railOf {r : Nat} (hr : 2 ≤ r) (i : Nat) :
    nextDown r (railOf r (i + 1)) (zigzagDown r i) = zigzagDown r (i + 1) := by
  have hsucc := zigzag_position_succ hr i
  simp only [nextDown, railOf_eq_top_iff hr, railOf_eq_bottom_iff hr]
  split_ifs with htop hbottom
  · exact (decide_eq_true (by omega)).symm
  · exact (decide_eq_false (by omega)).symm
  · rw [if_neg fun h => htop (hsucc.trans (if_pos h))] at hsucc
    exact decide_eq_decide.2 (by omega)

theorem railOf_lt {r : Nat} (hr : 2 ≤ r) (i : Nat) : railOf r i < r := by
  simp only [railOf]
  split <;> omega

theorem railOf_le (r i : Nat) : railOf r i ≤ i := by
  have hle : i % (2 * (r - 1)) ≤ i := Nat.mod_le _ _
  simp only [railOf]
  split <;> omega

/-- The walk from text index `i` on, entered in a direction that leaves `i` as the closed form does. -/
theorem railWalk_eq {r : Nat} (hr : 2 ≤ r) (n i : Nat) {down : Bool}
    (hdown : nextDown r (railOf r i) down = zigzagDown r i) :
    railWalk r n (railOf r i) down = (List.range' i n).map (railOf r) := by
  induction n generalizing i down with
  | zero => rfl
  | succ n ih => rw [railWalk, hdown, nextRow_railOf hr, ih (i + 1) (nextDown_railOf hr i), List.range'_succ, List.map_cons]

theorem railRows_eq {r : Nat} (hr : 2 ≤ r) (n : Nat) : railRows n r = (List.range n).map (railOf r) := by
  have hstart : nextDown r (railOf r 0) true = zigzagDown r 0 := by simp [nextDown, zigzagDown, railOf]; omega
  simpa [railRows, railOf, List.range_eq_range'] using railWalk_eq hr n 0 hstart

/-- Settles O23, by induction on the walk with the direction of travel in closed form. -/
theorem zigzagClosedForm : Obligations.ZigzagClosedForm := by
  unfold Obligations.ZigzagClosedForm
  exact fun n r hr => railRows_eq hr n

/-! ### The order rail by rail -/

theorem railRows_length {r : Nat} (hr : 2 ≤ r) (n : Nat) : (railRows n r).length = n := by simp [railRows_eq hr]

theorem railRows_getD {r n i : Nat} (hr : 2 ≤ r) (hi : i < n) : (railRows n r).getD i 0 = railOf r i := by
  simp [railRows_eq hr, hi]

theorem railIndices_railRows {r : Nat} (hr : 2 ≤ r) (n q : Nat) :
    railIndices (railRows n r) q = (List.range n).filter fun i => railOf r i == q := by
  rw [railIndices, railRows_length hr]
  exact List.filter_congr fun i hi => by rw [railRows_getD hr (List.mem_range.1 hi)]

/-- The order of R172 visits every text index once. -/
theorem railOrder_perm {r : Nat} (hr : 2 ≤ r) (n : Nat) : (railOrder (railRows n r) r).Perm (List.range n) := by
  rw [railOrder, railRows_length hr]
  refine flatMap_perm_range (railOf r) List.nodup_range (fun q _ => List.nodup_range.filter _) (fun q _ i => ?_) fun i hi => ?_
  · simp [railIndices_railRows hr]
  · exact List.mem_range.2 (lt_min (railOf_lt hr i) ((railOf_le r i).trans_lt hi))

/-- Rails past the end of the text hold nothing, so the capped visit is the visit of all `r` rails (R353). -/
theorem railOrder_eq {r : Nat} (hr : 2 ≤ r) (n : Nat) :
    railOrder (railRows n r) r = (List.range r).flatMap (railIndices (railRows n r)) := by
  have hempty : ∀ q, n ≤ q → railIndices (railRows n r) q = [] := by
    intro q hq
    rw [railIndices_railRows hr, List.filter_eq_nil_iff]
    intro i hi
    have hle : railOf r i ≤ i := railOf_le r i
    simp only [List.mem_range, beq_iff_eq] at hi ⊢
    omega
  rw [railOrder, railRows_length hr]
  rcases Nat.le_total r n with h | h
  · rw [Nat.min_eq_left h]
  · obtain ⟨k, rfl⟩ := Nat.exists_eq_add_of_le h
    have htail : ((List.range k).map (n + ·)).flatMap (railIndices (railRows n (n + k))) = [] := by
      simpa using fun q _ => hempty (n + q) (Nat.le_add_right n q)
    rw [Nat.min_eq_right h, List.range_add, List.flatMap_append, htail, List.append_nil]

/-! ### RAILFENCE -/

theorem railText_eq_visitText (d : Dir) (r : Nat) (w : Text) :
    railText d r w = visitText (railOrder (railRows w.length r) r) d w := by cases d <;> rfl

/-- Encryption lists the rails in order (R172). -/
theorem railText_encrypt {r : Nat} (hr : 2 ≤ r) (w : Text) : railText .encrypt r w = railCipher r w := by
  simp only [railText, railEncrypt, gather, railOrder_eq hr, railIndices_railRows hr, List.map_flatMap, railCipher]

theorem railText_length {r : Nat} (hr : 2 ≤ r) (d : Dir) (w : Text) : (railText d r w).length = w.length := by
  rw [railText_eq_visitText, visitText_length (railOrder_perm hr _)]

/-- Each direction of RAILFENCE on `r >= 2` rails undoes the other (R175). -/
theorem railText_undo {r : Nat} (hr : 2 ≤ r) {d d' : Dir} (h : d ≠ d') (w : Text) : railText d' r (railText d r w) = w := by
  rw [railText_eq_visitText d', railText_length hr, railText_eq_visitText, visitText_undo (railOrder_perm hr _) h]

theorem railfenceEngine_degenerate {key : Text} {n : Int} (h : parseInt key = some n) (hn : n ≤ 1) (d : Dir) (w : Text)
    (e : EngineRegs) : railfenceEngine key d w e = .ok ({ e with rails := n }, w) := by
  simp only [railfenceEngine, h, if_pos hn]

theorem railfenceEngine_rails {key : Text} {r : Nat} (h : parseInt key = some (r : Int)) (hr : 2 ≤ r) (d : Dir) (w : Text)
    (e : EngineRegs) : railfenceEngine key d w e = .ok (railScratch d r w e, railText d r w) := by
  simp only [railfenceEngine, h, if_neg (show ¬ (r : Int) ≤ 1 by omega), Int.toNat_natCast]

/-- RAILFENCE with one rail or fewer completes its layer with W as it was (R174 (a)). -/
theorem exec_railfence_degenerate {key : Text} {n : Int} (h : parseInt key = some n) (hn : n ≤ 1) (s : State) :
    exec (.railfence key) s = .next (layerDone s.w { s with eng := { s.eng with rails := n } }) := by
  simp only [exec, execRailfence, railfenceEngine_degenerate h hn]

/-- RAILFENCE with two rails or more completes its layer (R170). -/
theorem exec_railfence_rails {key : Text} {r : Nat} (h : parseInt key = some (r : Int)) (hr : 2 ≤ r) (s : State) :
    exec (.railfence key) s =
      .next (layerDone (railText s.dir r s.w) { s with eng := railScratch s.dir r s.w s.eng }) := by
  simp only [exec, execRailfence, railfenceEngine_rails h hr]

/-- A RAILFENCE layer writes RAILS, ROW, DOWN and MARK only (R33). -/
theorem railScratch_frame (d : Dir) (r : Nat) (w : Text) (e : EngineRegs) : railScratch d r w e =
    { e with rails := r, row := (railScratch d r w e).row, down := (railScratch d r w e).down,
             mark := (railScratch d r w e).mark } := by
  cases d <;> rfl

/-- An integer is a rail count of the degenerate case or a natural number of rails, at least two (R170, R174). -/
theorem railCount_cases (n : Int) : n ≤ 1 ∨ ∃ r : Nat, n = r ∧ 2 ≤ r := by
  by_cases hn : n ≤ 1
  · exact .inl hn
  · exact .inr ⟨n.toNat, by omega, by omega⟩

/-- Settles O24: one rail or fewer and two rails or more each by its engine's equation; decryption undoes encryption. -/
theorem railfenceResult : Obligations.RailfenceResult := by
  unfold Obligations.RailfenceResult
  intro key n s hkey
  rcases railCount_cases n with hn | ⟨r, rfl, hr⟩
  · exact ⟨_, exec_railfence_degenerate hkey hn s, rfl, fun _ => rfl, fun h => by omega⟩
  · refine ⟨_, exec_railfence_rails hkey hr s, ?_, fun h => by omega, fun _ => ?_⟩
    · exact congrArg (fun e => layerDone (railText s.dir r s.w) { s with eng := e }) (railScratch_frame s.dir r s.w s.eng)
    · rw [layerDone_w, Int.toNat_natCast]
      cases s.dir with
      | encrypt => exact railText_encrypt hr s.w
      | decrypt => exact ⟨railText_length hr _ _, by rw [← railText_encrypt hr, railText_undo hr (by decide)]⟩

/-- With distinct addresses, the cell the `j`-th mark names receives the `j`-th character (R173 (2)). -/
theorem cellsRead_railFill {marks : Cells MarkCell} (hm : (marks.map Prod.fst).Nodup) {w : Text} {j : Nat}
    {cell : Nat × MarkCell} {c : Chr} (hcell : marks[j]? = some cell) (hc : w[j]? = some c) :
    cellsRead (railFill marks w) cell.1 = some (.holding c) := by
  induction marks generalizing w j with
  | nil => simp at hcell
  | cons a marks ih =>
    cases w with
    | nil => simp at hc
    | cons x w =>
      rw [List.map_cons, List.nodup_cons] at hm
      obtain ⟨ha, hm⟩ := hm
      cases j with
      | zero =>
        obtain rfl : a = cell := by simpa using hcell
        obtain rfl : x = c := by simpa using hc
        simp [railFill, cellsRead]
      | succ j =>
        have hcell' : marks[j]? = some cell := by simpa using hcell
        have hne : a.1 ≠ cell.1 := fun h => ha (h ▸ List.mem_map_of_mem (List.mem_of_getElem? hcell'))
        exact (if_neg hne).trans (ih hm hcell' (by simpa using hc))

/-- The marked cells lie in different columns (R173 (1)). -/
theorem railMarks_addresses_nodup {r : Nat} (hr : 2 ≤ r) (n : Nat) :
    ((railMarks (railRows n r) r).map Prod.fst).Nodup := by
  have hp := railOrder_perm hr n
  rw [railMarks, List.map_map, railRows_length hr]
  refine (hp.nodup_iff.2 List.nodup_range).map_on fun i hi j hj hij => ?_
  have hi' : i < n := List.mem_range.1 (hp.mem_iff.1 hi)
  have hj' : j < n := List.mem_range.1 (hp.mem_iff.1 hj)
  simpa [Nat.mul_add_mod', Nat.mod_eq_of_lt, hi', hj'] using congrArg (· % n) hij

/-- MARK after the fill holds at each zig-zag cell the character that decryption puts at that text index (R173). -/
theorem cellsRead_railFill_railText {r : Nat} (hr : 2 ≤ r) {w : Text} {i : Nat} {c : Chr}
    (hc : (railText .decrypt r w)[i]? = some c) :
    cellsRead (railFill (railMarks (railRows w.length r) r) w) (railOf r i * w.length + i) = some (.holding c) := by
  have hp := railOrder_perm hr w.length
  have hi : i < w.length := by simpa [railText_length hr] using (List.getElem?_eq_some_iff.1 hc).1
  obtain ⟨j, hj⟩ := List.mem_iff_getElem?.1 (hp.mem_iff.2 (List.mem_range.2 hi))
  have hjw : j < w.length := by simpa [hp.length_eq] using (List.getElem?_eq_some_iff.1 hj).1
  have hwj : w[j]? = some c := by
    have hout : (railText .decrypt r w)[i]? = some w[j] := scatter_get hp hj (List.getElem?_eq_getElem hjw)
    rw [List.getElem?_eq_getElem hjw, ← hout, hc]
  have hcell : (railMarks (railRows w.length r) r)[j]? = some (railOf r i * w.length + i, .marked) := by
    rw [railMarks, List.getElem?_map, hj, Option.map_some, railRows_length hr, railRows_getD hr hi]
  exact cellsRead_railFill (railMarks_addresses_nodup hr _) hcell hwj

theorem railFill_length {r : Nat} (hr : 2 ≤ r) (w : Text) :
    (railFill (railMarks (railRows w.length r) r) w).length = w.length := by
  simp [railFill, railMarks, (railOrder_perm hr w.length).length_eq]

/-- Settles O25: MARK is the marked cells filled in row-major order, one for each character. -/
theorem railfenceMarkHoldsOutput : Obligations.RailfenceMarkHoldsOutput := by
  unfold Obligations.RailfenceMarkHoldsOutput
  intro key n s t hkey hn hdir ht
  rcases railCount_cases n with h | ⟨r, rfl, hr⟩
  · omega
  · rw [exec_railfence_rails hkey hr, hdir] at ht
    cases ht
    exact ⟨fun i c hc => cellsRead_railFill_railText hr hc, railFill_length hr s.w⟩

theorem engineText_railfence_degenerate {key : Text} {n : Int} (h : parseInt key = some n) (hn : n ≤ 1) (c : Config)
    (d : Dir) (w : Text) : engineText c .railfence key d w = .ok (w, []) := by
  simp only [engineText, railfenceEngine_degenerate h hn, Except.map]

theorem engineText_railfence_rails {key : Text} {r : Nat} (h : parseInt key = some (r : Int)) (hr : 2 ≤ r) (c : Config)
    (d : Dir) (w : Text) : engineText c .railfence key d w = .ok (railText d r w, []) := by
  simp only [engineText, railfenceEngine_rails h hr, Except.map]

/-- Settles O26: one rail or fewer changes nothing, and on two rails or more the two directions undo each other. -/
theorem railfenceRoundTrip : Obligations.RailfenceRoundTrip := by
  unfold Obligations.RailfenceRoundTrip
  intro key n c t hkey
  have undo : ∀ d d' : Dir, d ≠ d' →
      ∃ u, engineText c .railfence key d t = .ok (u, []) ∧ engineText c .railfence key d' u = .ok (t, []) := by
    intro d d' hne
    rcases railCount_cases n with hn | ⟨r, rfl, hr⟩
    · exact ⟨t, engineText_railfence_degenerate hkey hn c d t, engineText_railfence_degenerate hkey hn c d' t⟩
    · exact ⟨_, engineText_railfence_rails hkey hr c d t, by
        rw [engineText_railfence_rails hkey hr, railText_undo hr hne]⟩
  exact ⟨undo .encrypt .decrypt (by decide), undo .decrypt .encrypt (by decide)⟩

/-! ### The column order -/

theorem columnBefore_iff {key : Text} {a b : Nat} : columnBefore key a b = true ↔
    (key.getD a 0).toNat < (key.getD b 0).toNat ∨ (key.getD a 0).toNat = (key.getD b 0).toNat ∧ a ≤ b := by
  simp only [columnBefore, Bool.or_eq_true, Bool.and_eq_true, decide_eq_true_eq, beq_iff_eq]

theorem columnOrder_perm (key : Text) : (columnOrder key).Perm (List.range key.length) := List.perm_insertionSort _ _

theorem columnOrder_nodup (key : Text) : (columnOrder key).Nodup := (columnOrder_perm key).nodup_iff.2 List.nodup_range

/-- The column order is sorted: `columnBefore` is total and transitive. -/
theorem columnOrder_pairwise (key : Text) : (columnOrder key).Pairwise fun a b => columnBefore key a b = true := by
  have htotal : Std.Total fun a b => columnBefore key a b = true := ⟨fun a b => by
    rw [columnBefore_iff, columnBefore_iff]
    omega⟩
  have htrans : IsTrans Nat fun a b => columnBefore key a b = true := ⟨fun a b c hab hbc => by
    rw [columnBefore_iff] at hab hbc ⊢
    omega⟩
  exact List.pairwise_insertionSort _ _

/-- Settles O27: the order is a sorted permutation, and different columns with equal characters stand by position. -/
theorem columnOrderSorted : Obligations.ColumnOrderSorted := by
  unfold Obligations.ColumnOrderSorted
  intro key
  refine ⟨columnOrder_perm key, ((columnOrder_pairwise key).and (columnOrder_nodup key)).imp ?_⟩
  rintro a b ⟨hbefore, hne⟩
  rcases columnBefore_iff.1 hbefore with hlt | ⟨heq, hle⟩
  · exact .inl hlt
  · exact .inr ⟨BitVec.eq_of_toNat_eq heq, lt_of_le_of_ne hle hne⟩

/-! ### The order column by column -/

/-- The grid's rows have room for the text (R12, R180). -/
theorem le_ceilDiv_mul {k : Nat} (hk : 0 < k) (n : Nat) : n ≤ ceilDiv n k * k := by
  rw [ceilDiv, ← Nat.ceilDiv_eq_add_pred_div, Nat.mul_comm]
  exact le_smul_ceilDiv hk

theorem mem_columnIndices {n ncols c i : Nat} (hc : c < ncols) :
    i ∈ columnIndices n ncols (ceilDiv n ncols) c ↔ i < n ∧ i % ncols = c := by
  simp only [columnIndices, List.mem_filter, List.mem_map, List.mem_range, decide_eq_true_eq]
  constructor
  · rintro ⟨⟨r, -, rfl⟩, hi⟩
    exact ⟨hi, by rw [Nat.mul_add_mod', Nat.mod_eq_of_lt hc]⟩
  · rintro ⟨hi, rfl⟩
    have hrow : i / ncols < ceilDiv n ncols :=
      Nat.div_lt_of_lt_mul (Nat.mul_comm .. ▸ hi.trans_le (le_ceilDiv_mul (Nat.zero_lt_of_lt hc) n))
    exact ⟨⟨i / ncols, hrow, Nat.div_add_mod' i ncols⟩, hi⟩

theorem columnIndices_nodup {ncols : Nat} (h : 0 < ncols) (n nrows c : Nat) : (columnIndices n ncols nrows c).Nodup := by
  refine (List.nodup_range.map fun r r' hrr => ?_).filter _
  exact Nat.eq_of_mul_eq_mul_right h (Nat.add_right_cancel hrr)

/-- The order of R180 visits every text index once. -/
theorem columnVisit_perm {key : Text} (h : key ≠ []) (n : Nat) : (columnVisit key n).Perm (List.range n) := by
  have hpos : 0 < key.length := List.length_pos_of_ne_nil h
  have hcol : ∀ c, c ∈ columnOrder key ↔ c < key.length := fun c => (columnOrder_perm key).mem_iff.trans List.mem_range
  exact flatMap_perm_range (· % key.length) (columnOrder_nodup key) (fun c _ => columnIndices_nodup hpos _ _ c)
    (fun c hc i => mem_columnIndices ((hcol c).1 hc)) fun i _ => (hcol _).2 (Nat.mod_lt i hpos)

/-! ### ROWCOL -/

/-- Reading the positions that lie in the text is reading every position, those outside contributing nothing. -/
theorem gather_filter_lt (p : List Nat) (w : Text) : gather (p.filter fun i => i < w.length) w = p.filterMap (w[·]?) := by
  rw [gather, ← List.filterMap_eq_map, List.filterMap_filter]
  refine List.filterMap_congr fun i _ => ?_
  by_cases hi : i < w.length
  · simp [hi]
  · simp [hi]

/-- Encryption reads the columns in key order (R180). -/
theorem rowcolText_encrypt (key w : Text) :
    rowcolText key .encrypt w = columnCipher (columnOrder key) key.length w := by
  rw [rowcolText, columnVisit, columnCipher, gather, List.map_flatMap]
  exact List.flatMap_congr fun c _ => (gather_filter_lt _ w).trans (List.filterMap_map ..)

theorem rowcolText_eq_visitText (key : Text) (d : Dir) (w : Text) :
    rowcolText key d w = visitText (columnVisit key w.length) d w := by cases d <;> rfl

theorem rowcolText_length {key : Text} (h : key ≠ []) (d : Dir) (w : Text) : (rowcolText key d w).length = w.length := by
  rw [rowcolText_eq_visitText, visitText_length (columnVisit_perm h _)]

/-- Each direction of ROWCOL undoes the other (R185). -/
theorem rowcolText_undo {key : Text} (h : key ≠ []) {d d' : Dir} (hd : d ≠ d') (w : Text) :
    rowcolText key d' (rowcolText key d w) = w := by
  rw [rowcolText_eq_visitText key d', rowcolText_length h, rowcolText_eq_visitText, visitText_undo (columnVisit_perm h _) hd]

theorem rowcolEngine_ok {key : Text} (h : key ≠ []) (d : Dir) (w : Text) (e : EngineRegs) :
    rowcolEngine key d w e = .ok (rowcolScratch key d w e, rowcolText key d w) := if_neg h

/-- ROWCOL on a non-empty key completes its layer (R180). -/
theorem exec_rowcol {key : Text} (h : key ≠ []) (s : State) : exec (.rowcol key) s =
    .next (layerDone (rowcolText key s.dir s.w) { s with eng := rowcolScratch key s.dir s.w s.eng }) := by
  simp only [exec, execRowcol, rowcolEngine_ok h]

theorem engineText_rowcol {key : Text} (h : key ≠ []) (c : Config) (d : Dir) (w : Text) :
    engineText c .rowcol key d w = .ok (rowcolText key d w, []) := by
  simp only [engineText, rowcolEngine_ok h, Except.map]

@[simp] theorem rowcolGrid_length (key plain : Text) :
    (rowcolGrid key plain).length = ceilDiv plain.length key.length * key.length := by simp [rowcolGrid]

/-- Cell `(r, c)` of GRID is the plaintext character of its index, or empty (R182). -/
theorem rowcolGrid_getElem? {key plain : Text} {r c : Nat} (hr : r < ceilDiv plain.length key.length)
    (hc : c < key.length) : (rowcolGrid key plain)[r * key.length + c]? = some plain[r * key.length + c]? := by
  have hrow : (r + 1) * key.length ≤ ceilDiv plain.length key.length * key.length := Nat.mul_le_mul_right _ hr
  have hcell : r * key.length + c < ceilDiv plain.length key.length * key.length := by
    rw [Nat.succ_mul] at hrow
    omega
  simp [rowcolGrid, hcell]

/-- Settles O28: GRID holds the plaintext of the direction, which has as many characters as W. -/
theorem rowcolResult : Obligations.RowcolResult := by
  unfold Obligations.RowcolResult
  intro key s hkey
  refine ⟨_, exec_rowcol hkey s, rfl, ?_⟩
  simp only [layerDone_w, layerDone_eng, rowcolScratch]
  cases s.dir with
  | encrypt =>
    exact ⟨rowcolText_encrypt key s.w, rowcolGrid_length key s.w, fun r hr c hc => rowcolGrid_getElem? hr hc⟩
  | decrypt =>
    have hlen := rowcolText_length hkey .decrypt s.w
    refine ⟨⟨hlen, ?_⟩, by rw [rowcolGrid_length, hlen], fun r hr c hc => rowcolGrid_getElem? (hlen.symm ▸ hr) hc⟩
    rw [← rowcolText_encrypt, rowcolText_undo hkey (by decide)]

/-- Settles O29: in either order the two visits undo each other. -/
theorem rowcolRoundTrip : Obligations.RowcolRoundTrip := by
  unfold Obligations.RowcolRoundTrip
  intro key c t hkey
  have undo : ∀ d d' : Dir, d ≠ d' →
      ∃ u, engineText c .rowcol key d t = .ok (u, []) ∧ engineText c .rowcol key d' u = .ok (t, []) := fun d d' hne =>
    ⟨_, engineText_rowcol hkey c d t, by rw [engineText_rowcol hkey, rowcolText_undo hkey hne]⟩
  exact ⟨undo .encrypt .decrypt (by decide), undo .decrypt .encrypt (by decide)⟩

end Sys2Proof.Machine
end

section
/-! PROOF. PLAYFAIR: the key square, the digraphs of a text, what the transform gives, and how decryption undoes encryption
(spec/43_playfair.md R200 to R207). -/

namespace Sys2Proof.Machine

/-! ### The key square -/

/-- The square is the letters the key places, in their order, then the letters of ALPHABET not yet placed (R201). -/
theorem buildSquare_eq (keyJ : KeyJ) (key : Text) : buildSquare keyJ key =
    (squareKeyLetters keyJ key).foldl placeLetter [] ++
      alphabet.filter fun c => c ≠ 0x6A#8 && c ∉ (squareKeyLetters keyJ key).foldl placeLetter [] := by
  rw [buildSquare, foldl_placeKeyChar, foldl_placeAlphabetChar alphabet alphabet_nodup]

theorem mem_buildSquare (keyJ : KeyJ) (key : Text) (c : Chr) :
    c ∈ buildSquare keyJ key ↔ isLower c = true ∧ c ≠ 0x6A#8 := by
  obtain ⟨hplaced, -⟩ := foldl_placeLetter (squareKeyLetters keyJ key)
  rw [buildSquare_eq, List.mem_append, List.mem_filter, mem_alphabet]
  by_cases hc : c ∈ (squareKeyLetters keyJ key).foldl placeLetter []
  · simp [hc, mem_squareKeyLetters ((hplaced c).1 hc)]
  · simp [hc]

theorem buildSquare_nodup (keyJ : KeyJ) (key : Text) : (buildSquare keyJ key).Nodup := by
  obtain ⟨-, horder⟩ := foldl_placeLetter (squareKeyLetters keyJ key)
  rw [buildSquare_eq, List.nodup_append']
  refine ⟨horder.imp fun hlt => ?_, alphabet_nodup.filter _, fun c hc hrest => ?_⟩
  · rintro rfl
    exact lt_irrefl _ hlt
  · simp [hc] at hrest

/-- The square and ALPHABET without `j` hold the same letters once each, so they are of the same length (R201). -/
theorem buildSquare_length (keyJ : KeyJ) (key : Text) : (buildSquare keyJ key).length = 25 := by
  have hperm : (buildSquare keyJ key).Perm (alphabet.filter fun c => c ≠ 0x6A#8) := by
    rw [List.perm_ext_iff_of_nodup (buildSquare_nodup keyJ key) (alphabet_nodup.filter _)]
    intro c
    simp [mem_buildSquare, mem_alphabet]
  rw [hperm.length_eq]
  decide

/-- Settles O30: the square is what the key places and then a part of ALPHABET, which is ascending. -/
theorem keySquareResult : Obligations.KeySquareResult := by
  unfold Obligations.KeySquareResult
  intro keyJ key
  obtain ⟨hplaced, horder⟩ := foldl_placeLetter (squareKeyLetters keyJ key)
  exact ⟨⟨buildSquare_length keyJ key, buildSquare_nodup keyJ key, mem_buildSquare keyJ key⟩,
    _, _, buildSquare_eq keyJ key, hplaced, horder, alphabet_sorted.filter _⟩

/-! ### Normalisation -/

/-- The normal form as a chain of list operations (R202). -/
theorem normalise_eq (w : Text) :
    normalise w = ((w.map lower).filter isLower).map fun c => if c = 0x6A#8 then 0x69#8 else c := by
  rw [← List.filterMap_eq_map, List.filterMap_filter, List.filterMap_map]
  rfl

/-- A normalised text holds letters of the square only (R202). -/
theorem mem_normalise {w : Text} {c : Chr} (h : c ∈ normalise w) : isLower c = true ∧ c ≠ 0x6A#8 := by
  rw [normalise_eq] at h
  simp only [List.mem_map, List.mem_filter] at h
  obtain ⟨x, ⟨-, hx⟩, rfl⟩ := h
  split
  · decide
  · next hj => exact ⟨hx, hj⟩

/-- A text of letters of the square is its own normal form (R202). -/
theorem normalise_of_letters {w : Text} (h : ∀ c ∈ w, isLower c = true ∧ c ≠ 0x6A#8) : normalise w = w := by
  have hchar : ∀ c ∈ w, normaliseChar c = some c := by
    intro c hc
    obtain ⟨hlow, hj⟩ := h c hc
    simp [normaliseChar, letterJ, lower_isLower hlow, hlow, hj]
  rw [normalise, List.filterMap_congr hchar, List.filterMap_some]

theorem normalise_length_le (w : Text) : (normalise w).length ≤ w.length := List.length_filterMap_le _ _

/-! ### Digraphs -/

@[simp] theorem digraphs_nil : digraphs [] = [] := rfl

@[simp] theorem digraphs_singleton (a : Chr) : digraphs [a] = [(a, letterX)] := rfl

theorem digraphs_cons_cons (a b : Chr) (u : Text) : digraphs (a :: b :: u) =
    if a = b then (a, letterX) :: digraphs (b :: u) else (a, b) :: digraphs u := rfl

/-- Settles O31: the three cases are those of the loop with no letter held, one, and one against the next. -/
theorem digraphFormation : Obligations.DigraphFormation := by
  unfold Obligations.DigraphFormation
  exact ⟨digraphs_nil, digraphs_singleton, digraphs_cons_cons⟩

/-- Each digraph uses up at least one letter (R205). -/
theorem digraphs_length_le (u : Text) : (digraphs u).length ≤ u.length := by
  induction u using List.twoStepInduction with
  | nil => exact le_rfl
  | singleton a => exact le_rfl
  | cons_cons a b u ih ih' =>
    rw [digraphs_cons_cons]
    split
    · exact Nat.succ_le_succ (ih' b)
    · exact Nat.succ_le_succ (ih.trans (Nat.le_succ _))

/-- What holds of the letters of a text and of `x` holds of the letters of its digraphs (R203). -/
theorem digraphs_forall {P : Chr → Prop} (hx : P letterX) {u : Text} (hu : ∀ c ∈ u, P c) :
    ∀ p ∈ digraphs u, P p.1 ∧ P p.2 := by
  induction u using List.twoStepInduction with
  | nil => simp
  | singleton a => simpa [hx] using hu
  | cons_cons a b u ih ih' =>
    obtain ⟨ha, hbu⟩ := List.forall_mem_cons.1 hu
    obtain ⟨hb, hu⟩ := List.forall_mem_cons.1 hbu
    rw [digraphs_cons_cons]
    split
    · exact List.forall_mem_cons.2 ⟨⟨ha, hx⟩, ih' b hbu⟩
    · exact List.forall_mem_cons.2 ⟨⟨ha, hb⟩, ih hu⟩

/-! ### Pairs of letters as a text -/

/-- The letters of a sequence of pairs, in order (R205). -/
def pairLetters (dg : List (Chr × Chr)) : Text := dg.flatMap fun p => [p.1, p.2]

@[simp] theorem pairLetters_nil : pairLetters [] = [] := rfl

@[simp] theorem pairLetters_cons (p : Chr × Chr) (dg : List (Chr × Chr)) :
    pairLetters (p :: dg) = p.1 :: p.2 :: pairLetters dg := rfl

theorem playfairText_eq_pairLetters (sq : Text) (d : Dir) (dg : List (Chr × Chr)) :
    playfairText sq d dg = pairLetters (dg.map (transform sq d)) := by
  rw [playfairText, pairLetters, List.flatMap_map]

@[simp] theorem pairLetters_length (dg : List (Chr × Chr)) : (pairLetters dg).length = 2 * dg.length := by
  induction dg with
  | nil => rfl
  | cons p dg ih => simp [ih, Nat.mul_succ]

theorem playfairText_length (sq : Text) (d : Dir) (dg : List (Chr × Chr)) :
    (playfairText sq d dg).length = 2 * dg.length := by simp [playfairText_eq_pairLetters]

theorem mem_pairLetters {dg : List (Chr × Chr)} {c : Chr} : c ∈ pairLetters dg ↔ ∃ p ∈ dg, c = p.1 ∨ c = p.2 := by
  simp [pairLetters]

theorem pairLetters_getElem? {dg : List (Chr × Chr)} {m : Nat} {p : Chr × Chr} (h : dg[m]? = some p) :
    (pairLetters dg)[2 * m]? = some p.1 ∧ (pairLetters dg)[2 * m + 1]? = some p.2 := by
  induction dg generalizing m with
  | nil => simp at h
  | cons q dg ih =>
    cases m with
    | zero => simpa [Prod.ext_iff] using h
    | succ m => simpa [Nat.mul_succ] using ih (by simpa using h)

/-- Digraph `m` gives the output letters `2m` and `2m + 1` (R205). -/
theorem playfairText_getElem? (sq : Text) (d : Dir) {dg : List (Chr × Chr)} {m : Nat} {p : Chr × Chr}
    (h : dg[m]? = some p) : (playfairText sq d dg)[2 * m]? = some (transform sq d p).1 ∧
      (playfairText sq d dg)[2 * m + 1]? = some (transform sq d p).2 := by
  rw [playfairText_eq_pairLetters]
  exact pairLetters_getElem? (by rw [List.getElem?_map, h, Option.map_some])

/-- A text of pairs of unequal letters is cut into those pairs (R203, R207). -/
theorem digraphs_pairLetters {dg : List (Chr × Chr)} (h : ∀ p ∈ dg, p.1 ≠ p.2) : digraphs (pairLetters dg) = dg := by
  induction dg with
  | nil => rfl
  | cons p dg ih =>
    obtain ⟨hp, hdg⟩ := List.forall_mem_cons.1 h
    rw [pairLetters_cons, digraphs_cons_cons, if_neg hp, ih hdg]

/-- A text of even length in which no pair holds equal letters is a text of such pairs (R207). -/
theorem exists_pairLetters {u : Text} (heven : u.length % 2 = 0)
    (hne : ∀ (m : Nat) (a b : Chr), u[2 * m]? = some a → u[2 * m + 1]? = some b → a ≠ b) :
    ∃ dg, pairLetters dg = u ∧ ∀ p ∈ dg, p.1 ≠ p.2 := by
  induction u using List.twoStepInduction with
  | nil => exact ⟨[], rfl, by simp⟩
  | singleton a => simp at heven
  | cons_cons a b u ih _ =>
    obtain ⟨dg, rfl, hdg⟩ := ih (by simpa [Nat.add_assoc] using heven) fun m => hne (m + 1)
    exact ⟨(a, b) :: dg, rfl, List.forall_mem_cons.2 ⟨hne 0 a b rfl rfl, hdg⟩⟩

/-! ### Cells of the square -/

/-- What the transform needs of a key square: 25 cells and no letter twice (R201). -/
structure KeySquare (sq : Text) : Prop where
  length : sq.length = 25
  nodup : sq.Nodup

theorem buildSquare_keySquare (keyJ : KeyJ) (key : Text) : KeySquare (buildSquare keyJ key) :=
  ⟨buildSquare_length keyJ key, buildSquare_nodup keyJ key⟩

theorem wrapFive_lt (i : Nat) (d : Int) : wrapFive i d < 5 := by
  rw [wrapFive]
  omega

/-- A step of one direction goes back a step of the other, wrapping at the edges (R204). -/
theorem wrapFive_undo {d d' : Dir} (h : d ≠ d') {i : Nat} (hi : i < 5) :
    wrapFive (wrapFive i (playfairStep d)) (playfairStep d') = i := by
  rcases dir_ne_cases h with ⟨rfl, rfl⟩ | ⟨rfl, rfl⟩ <;> simp only [wrapFive, playfairStep] <;> omega

theorem wrapFive_encrypt (i : Nat) : wrapFive i (playfairStep .encrypt) = (i + 1) % 5 := by
  simp only [wrapFive, playfairStep]
  omega

theorem wrapFive_decrypt (i : Nat) : wrapFive i (playfairStep .decrypt) = (i + 4) % 5 := by
  simp only [wrapFive, playfairStep]
  omega

/-- Two equal letters take the row rule and stay equal (R206). -/
theorem transform_fst_eq_snd (sq : Text) (d : Dir) {p : Chr × Chr} (h : p.1 = p.2) :
    (transform sq d p).1 = (transform sq d p).2 := by rw [transform, if_pos (by rw [h]), h]

section Cells

variable {sq : Text} (h : KeySquare sq)
include h

theorem KeySquare.getElem?_cell {r c : Nat} (hr : r < 5) (hc : c < 5) : sq[5 * r + c]? = some (squareCell sq r c) := by
  have hlt : 5 * r + c < sq.length := by
    rw [h.length]
    omega
  rw [squareCell, squareSide, List.getD_eq_getElem _ _ hlt, List.getElem?_eq_getElem hlt]

theorem KeySquare.cell_mem {r c : Nat} (hr : r < 5) (hc : c < 5) : squareCell sq r c ∈ sq :=
  List.mem_of_getElem? (h.getElem?_cell hr hc)

/-- A letter of the square stands in a cell (R34). -/
theorem KeySquare.exists_cell {a : Chr} (ha : a ∈ sq) : ∃ r < 5, ∃ c < 5, squareCell sq r c = a := by
  have hlt : sq.idxOf a < 25 := h.length ▸ List.idxOf_lt_length_of_mem ha
  refine ⟨sq.idxOf a / 5, by omega, sq.idxOf a % 5, by omega, ?_⟩
  rw [squareCell, squareSide, Nat.div_add_mod, List.getD_eq_getElem?_getD, List.getElem?_idxOf ha, Option.getD_some]

/-- The letter of a cell stands in no other (R34, R201). -/
theorem KeySquare.idxOf_cell {r c : Nat} (hr : r < 5) (hc : c < 5) : sq.idxOf (squareCell sq r c) = 5 * r + c := by
  obtain ⟨hlt, hcell⟩ := List.getElem?_eq_some_iff.1 (h.getElem?_cell hr hc)
  rw [← hcell, h.nodup.idxOf_getElem]

/-- The transform in rows and columns: same row, same column, rectangle (R204). -/
theorem KeySquare.transform_cells (dir : Dir) {ra ca rb cb : Nat} (hra : ra < 5) (hca : ca < 5) (hrb : rb < 5)
    (hcb : cb < 5) : transform sq dir (squareCell sq ra ca, squareCell sq rb cb) =
      if ra = rb then
        (squareCell sq ra (wrapFive ca (playfairStep dir)), squareCell sq rb (wrapFive cb (playfairStep dir)))
      else if ca = cb then
        (squareCell sq (wrapFive ra (playfairStep dir)) ca, squareCell sq (wrapFive rb (playfairStep dir)) cb)
      else (squareCell sq ra cb, squareCell sq rb ca) := by
  have hrow : ∀ {r c : Nat}, c < 5 → (5 * r + c) / 5 = r := fun _ => by omega
  have hcol : ∀ {r c : Nat}, c < 5 → (5 * r + c) % 5 = c := fun _ => by omega
  simp only [transform, squareSide, h.idxOf_cell hra hca, h.idxOf_cell hrb hcb, hrow hca, hrow hcb, hcol hca, hcol hcb]

/-- The transform gives letters of the square (R205). -/
theorem KeySquare.transform_mem (dir : Dir) {p : Chr × Chr} (ha : p.1 ∈ sq) (hb : p.2 ∈ sq) :
    (transform sq dir p).1 ∈ sq ∧ (transform sq dir p).2 ∈ sq := by
  obtain ⟨a, b⟩ := p
  obtain ⟨ra, hra, ca, hca, rfl⟩ := h.exists_cell ha
  obtain ⟨rb, hrb, cb, hcb, rfl⟩ := h.exists_cell hb
  rw [h.transform_cells dir hra hca hrb hcb]
  split_ifs
  · exact ⟨h.cell_mem hra (wrapFive_lt _ _), h.cell_mem hrb (wrapFive_lt _ _)⟩
  · exact ⟨h.cell_mem (wrapFive_lt _ _) hca, h.cell_mem (wrapFive_lt _ _) hcb⟩
  · exact ⟨h.cell_mem hra hcb, h.cell_mem hrb hca⟩

/-- The transform keeps a pair in its class of row, column or rectangle, where the other direction moves it back (R207). -/
theorem KeySquare.transform_undo {d d' : Dir} (hd : d ≠ d') {p : Chr × Chr} (ha : p.1 ∈ sq) (hb : p.2 ∈ sq) :
    transform sq d' (transform sq d p) = p := by
  obtain ⟨a, b⟩ := p
  obtain ⟨ra, hra, ca, hca, rfl⟩ := h.exists_cell ha
  obtain ⟨rb, hrb, cb, hcb, rfl⟩ := h.exists_cell hb
  rw [h.transform_cells d hra hca hrb hcb]
  split_ifs with hrow hcol
  · rw [h.transform_cells d' hra (wrapFive_lt _ _) hrb (wrapFive_lt _ _), if_pos hrow, wrapFive_undo hd hca,
      wrapFive_undo hd hcb]
  · have hrow' : wrapFive ra (playfairStep d) ≠ wrapFive rb (playfairStep d) := fun heq =>
      hrow (by rw [← wrapFive_undo hd hra, heq, wrapFive_undo hd hrb])
    rw [h.transform_cells d' (wrapFive_lt _ _) hca (wrapFive_lt _ _) hcb, if_neg hrow', if_pos hcol, wrapFive_undo hd hra,
      wrapFive_undo hd hrb]
  · rw [h.transform_cells d' hra hcb hrb hca, if_neg hrow, if_neg (Ne.symm hcol)]

/-- Unequal letters become unequal letters: equal ones would go back to equal ones (R207). -/
theorem KeySquare.transform_ne {d d' : Dir} (hd : d ≠ d') {p : Chr × Chr} (ha : p.1 ∈ sq) (hb : p.2 ∈ sq)
    (hne : p.1 ≠ p.2) : (transform sq d p).1 ≠ (transform sq d p).2 := fun heq =>
  hne (h.transform_undo hd ha hb ▸ transform_fst_eq_snd sq d' heq)

/-- The output holds letters of the square only (R205). -/
theorem KeySquare.playfairText_mem (d : Dir) {dg : List (Chr × Chr)} (hdg : ∀ p ∈ dg, p.1 ∈ sq ∧ p.2 ∈ sq) :
    ∀ c ∈ playfairText sq d dg, c ∈ sq := by
  intro c hc
  rw [playfairText_eq_pairLetters, mem_pairLetters] at hc
  obtain ⟨q, hq, hc⟩ := hc
  obtain ⟨p, hp, rfl⟩ := List.mem_map.1 hq
  obtain ⟨hfirst, hsecond⟩ := h.transform_mem d (hdg p hp).1 (hdg p hp).2
  rcases hc with rfl | rfl
  · exact hfirst
  · exact hsecond

end Cells

/-! ### PLAYFAIR -/

theorem playfairEngine_ok {key : Text} (h : key ≠ []) (keyJ : KeyJ) (d : Dir) (w : Text) :
    playfairEngine keyJ key d w = .ok (buildSquare keyJ key, normalise w, digraphs (normalise w),
      playfairText (buildSquare keyJ key) d (digraphs (normalise w))) := by
  simp only [playfairEngine, h, if_false]

/-- PLAYFAIR on a non-empty key completes its layer (R200). -/
theorem exec_playfair {key : Text} (h : key ≠ []) (s : State) : exec (.playfair key) s =
    .next (layerDone (playfairText (buildSquare s.cfg.playfairKeyJ key) s.dir (digraphs (normalise s.w)))
      { s with eng := { s.eng with
        sq := buildSquare s.cfg.playfairKeyJ key, norm := normalise s.w, dg := digraphs (normalise s.w) } }) := by
  simp only [exec, execPlayfair, playfairEngine_ok h]

theorem engineText_playfair {key : Text} (h : key ≠ []) (c : Config) (d : Dir) (w : Text) :
    engineText c .playfair key d w =
      .ok (playfairText (buildSquare c.playfairKeyJ key) d (digraphs (normalise w)), []) := by
  simp only [engineText, playfairEngine_ok h, Except.map]

/-- PLAYFAIR that completes had a key (R200). -/
theorem key_ne_nil_of_exec_playfair {key : Text} {s t : State} (h : exec (.playfair key) s = .next t)
    (ht : t.status ≠ .fault) : key ≠ [] := by
  rintro rfl
  cases h
  exact ht rfl

/-- The digraphs of a normalised text hold letters of the square: those of the text, and `x` (R204). -/
theorem mem_square_of_mem_digraphs (keyJ : KeyJ) (key w : Text) :
    ∀ p ∈ digraphs (normalise w), p.1 ∈ buildSquare keyJ key ∧ p.2 ∈ buildSquare keyJ key :=
  digraphs_forall ((mem_buildSquare keyJ key letterX).2 (by decide)) fun c hc =>
    (mem_buildSquare keyJ key c).2 (mem_normalise hc)

/-- Settles O32: both letters of a digraph stand in a cell, and the cells of the output are those of R204. -/
theorem playfairResult : Obligations.PlayfairResult := by
  unfold Obligations.PlayfairResult
  intro key s hkey
  refine ⟨_, exec_playfair hkey s, by simp only [layerDone], ?_⟩
  simp only [layerDone_w, layerDone_eng, true_and]
  refine ⟨normalise_eq s.w, playfairText_length _ _ _, fun m a b hm => ?_⟩
  have hsq := buildSquare_keySquare s.cfg.playfairKeyJ key
  obtain ⟨ha, hb⟩ := mem_square_of_mem_digraphs s.cfg.playfairKeyJ key s.w _ (List.mem_of_getElem? hm)
  obtain ⟨ra, hra, ca, hca, rfl⟩ := hsq.exists_cell ha
  obtain ⟨rb, hrb, cb, hcb, rfl⟩ := hsq.exists_cell hb
  refine ⟨ra, hra, ca, hca, rb, hrb, cb, hcb, hsq.getElem?_cell hra hca, hsq.getElem?_cell hrb hcb, ?_⟩
  obtain ⟨hfirst, hsecond⟩ := playfairText_getElem? (buildSquare s.cfg.playfairKeyJ key) s.dir hm
  have hmod : ∀ i, i % 5 < 5 := fun i => Nat.mod_lt i (by decide)
  rw [hfirst, hsecond, hsq.transform_cells s.dir hra hca hrb hcb]
  cases s.dir with
  | encrypt => split_ifs <;> simp only [wrapFive_encrypt, hsq.getElem?_cell, hra, hca, hrb, hcb, hmod, and_self]
  | decrypt => split_ifs <;> simp only [wrapFive_decrypt, hsq.getElem?_cell, hra, hca, hrb, hcb, hmod, and_self]

/-- Settles O33: every letter of the output is one the transform gives. -/
theorem playfairOutputLetters : Obligations.PlayfairOutputLetters := by
  unfold Obligations.PlayfairOutputLetters
  intro key s t h ht
  have hkey := key_ne_nil_of_exec_playfair h ht
  rw [exec_playfair hkey] at h
  cases h
  have hdg := digraphs_length_le (normalise s.w)
  have hnorm := normalise_length_le s.w
  have hlen := playfairText_length (buildSquare s.cfg.playfairKeyJ key) s.dir (digraphs (normalise s.w))
  simp only [layerDone_w, layerDone_eng]
  have hmem := mem_square_of_mem_digraphs s.cfg.playfairKeyJ key s.w
  refine ⟨hlen, by omega, by omega, fun c hc => ?_⟩
  have hsq := (buildSquare_keySquare s.cfg.playfairKeyJ key).playfairText_mem s.dir hmem c hc
  exact ⟨hsq, (mem_buildSquare _ _ c).1 hsq⟩

/-- The text of transformed pairs of unequal letters is cut into those pairs again, and the other direction gives the pairs
back (R207). -/
theorem playfairText_undo (keyJ : KeyJ) (key : Text) {d d' : Dir} (hd : d ≠ d') {dg : List (Chr × Chr)}
    (hmem : ∀ p ∈ dg, p.1 ∈ buildSquare keyJ key ∧ p.2 ∈ buildSquare keyJ key) (hne : ∀ p ∈ dg, p.1 ≠ p.2) :
    playfairText (buildSquare keyJ key) d' (digraphs (normalise (playfairText (buildSquare keyJ key) d dg))) =
      pairLetters dg := by
  have hsq := buildSquare_keySquare keyJ key
  have hnorm : normalise (playfairText (buildSquare keyJ key) d dg) = playfairText (buildSquare keyJ key) d dg :=
    normalise_of_letters fun c hc => (mem_buildSquare keyJ key c).1 (hsq.playfairText_mem d hmem c hc)
  have hundo : (dg.map (transform (buildSquare keyJ key) d)).map (transform (buildSquare keyJ key) d') = dg := by
    rw [List.map_map]
    exact (List.map_congr_left fun p hp => hsq.transform_undo hd (hmem p hp).1 (hmem p hp).2).trans (List.map_id dg)
  rw [hnorm, playfairText_eq_pairLetters _ d, digraphs_pairLetters, playfairText_eq_pairLetters, hundo]
  simp only [List.forall_mem_map]
  exact fun p hp => hsq.transform_ne hd (hmem p hp).1 (hmem p hp).2 (hne p hp)

/-- Settles O34: under the condition of R207 the normal form is a text of pairs of unequal letters. -/
theorem playfairRoundTrip : Obligations.PlayfairRoundTrip := by
  unfold Obligations.PlayfairRoundTrip
  intro key c t hkey heven hne
  obtain ⟨dg, hdg, hdgne⟩ := exists_pairLetters heven hne
  have hcut : digraphs (normalise t) = dg := by rw [← hdg, digraphs_pairLetters hdgne]
  have hmem := hcut ▸ mem_square_of_mem_digraphs c.playfairKeyJ key t
  refine ⟨_, engineText_playfair hkey c .encrypt t, ?_⟩
  rw [engineText_playfair hkey, hcut, playfairText_undo c.playfairKeyJ key (by decide) hmem hdgne, hdg]

end Sys2Proof.Machine
end

section
/-! PROOF. The S-DES unit: what KEYSCHED, FK, BLOCK and the DES layer answer, how BLOCK with the subkeys exchanged undoes
BLOCK, and that DES ignores its direction (spec/44_sdes.md R240 to R256). -/

namespace Sys2Proof.Machine

/-! ### KEYSCHED, FK and BLOCK -/

theorem sdesResult_of_ok {s : State} {r : Except Stop SdesRegs} {r' : SdesRegs} (h : r = .ok r') :
    sdesResult s r = .next { s with sdes := r' } := by
  rw [h]
  rfl

/-- Settles O10: the schedule answers on a 10-bit key. -/
theorem keyScheduleResult : Obligations.KeyScheduleResult := by
  unfold Obligations.KeyScheduleResult
  exact fun s hc hkeyv => sdesResult_of_ok (keySchedule_ok hc hkeyv)

/-- Settles O11: FK answers on a 4-bit half and the selected 8-bit subkey. -/
theorem roundFunctionResult : Obligations.RoundFunctionResult := by
  unfold Obligations.RoundFunctionResult
  intro n s hc hr hk
  cases n with
  | k1 => exact sdesResult_of_ok (roundFunction_ok hc hr hk)
  | k2 => exact sdesResult_of_ok (roundFunction_ok hc hr hk)

/-- Settles O12: BLOCK answers on an 8-bit block and two 8-bit subkeys. -/
theorem blockResult : Obligations.BlockResult := by
  unfold Obligations.BlockResult
  exact fun s hc hblk hk1 hk2 => sdesResult_of_ok (processBlock_ok hc hblk hk1 hk2)

/-! ### IP and IPINV -/

/-- The inverse property of R231, one table position at a time. -/
theorem ip_at_ipinv {c : Config} (hi : c.ipInverse) {i : Nat} (h : i < 8) :
    c.ip.getD (c.ipinv.getD i 1 - 1).toNat 0 = (i : Int) + 1 := by
  simp only [Config.ipInverse, blockBits, List.all_eq_true, List.mem_range, beq_iff_eq] at hi
  exact hi i h

/-- IPINV undoes IP (R231). -/
theorem select_ipinv_ip {c : Config} (hc : c.wellFormed) (hi : c.ipInverse) {v : Bits} (hv : v.length = 8) :
    selectBits c.ipinv (selectBits c.ip v) = v := by
  obtain ⟨-, -, hlen, -⟩ := select_length_of_wellFormed hc (selectBits c.ip v)
  refine List.ext_getElem (hlen.trans hv.symm) fun i hl hr => ?_
  have hpos : i < c.ipinv.length := by simpa [selectBits] using hl
  have hip := ip_at_ipinv hi (hv ▸ hr)
  rw [List.getD_eq_getElem _ _ hpos] at hip
  have hsrc : (c.ipinv[i] - 1).toNat < c.ip.length := by
    by_contra hge
    rw [List.getD_eq_default _ _ (by omega)] at hip
    omega
  rw [← List.getD_eq_getElem _ false hl, getD_select hpos, List.getD_eq_getElem _ _ hpos, getD_select hsrc, hip,
    Int.add_sub_cancel, Int.toNat_natCast, List.getD_eq_getElem _ _ hr]

/-- IP undoes IPINV: an injective map of the finitely many 8-bit vectors into themselves is onto, so its left inverse is
its right inverse (R231). -/
theorem select_ip_ipinv {c : Config} (hc : c.wellFormed) (hi : c.ipInverse) {v : Bits} (hv : v.length = 8) :
    selectBits c.ip (selectBits c.ipinv v) = v := by
  have hleft : Set.LeftInvOn (selectBits c.ipinv) (selectBits c.ip) {v | v.length = 8} := fun _ hv =>
    select_ipinv_ip hc hi hv
  have hmaps : Set.MapsTo (selectBits c.ip) {v | v.length = 8} {v | v.length = 8} := fun v _ => by
    obtain ⟨-, hip, -, -⟩ := select_length_of_wellFormed hc v
    exact hip
  have honto := ((List.finite_length_eq Bool 8).injOn_iff_bijOn_of_mapsTo hmaps).1 hleft.injOn
  exact honto.surjOn.leftInvOn_of_rightInvOn hleft hv

/-! ### BLOCK with the subkeys exchanged -/

/-- XOR with the same vector twice gives the first vector back. -/
theorem zipWith_xor_cancel {a f : Bits} (h : a.length = f.length) :
    List.zipWith Bool.xor (List.zipWith Bool.xor a f) f = a :=
  List.ext_getElem (by simp [h]) fun i _ _ => by simp

/-- What the second run's IP gives is the first run's pre-output. -/
theorem select_ip_blockValue {c : Config} (hc : c.wellFormed) (hi : c.ipInverse) (b k1 k2 : Bits) :
    selectBits c.ip (blockValue c b k1 k2) = preOutput c b k1 k2 :=
  select_ip_ipinv hc hi (preOutput_length hc b k1 k2)

/-- The left half of the pre-output: `L1 xor fk(R1, K2)` with `L1 = R0` (R250). -/
theorem preOutput_left {c : Config} (hc : c.wellFormed) (b k1 k2 : Bits) :
    (preOutput c b k1 k2).take 4 =
      List.zipWith Bool.xor ((selectBits c.ip b).drop 4) (roundValue c (rightAfterRound1 c b k1) k2) := by
  obtain ⟨-, hip, -, -⟩ := select_length_of_wellFormed hc b
  exact List.take_left' (by simp [hip, roundValue_length hc])

/-- The right half of the pre-output is the right half after round 1 (R250). -/
theorem preOutput_right {c : Config} (hc : c.wellFormed) (b k1 k2 : Bits) :
    (preOutput c b k1 k2).drop 4 = rightAfterRound1 c b k1 := by
  obtain ⟨-, hip, -, -⟩ := select_length_of_wellFormed hc b
  exact List.drop_left' (by simp [hip, roundValue_length hc])

/-- Round 1 of the second run takes `fk(R1, K2)` off the left half again and gives R0 (R252). -/
theorem rightAfterRound1_blockValue {c : Config} (hc : c.wellFormed) (hi : c.ipInverse) (b k1 k2 : Bits) :
    rightAfterRound1 c (blockValue c b k1 k2) k2 = (selectBits c.ip b).drop 4 := by
  obtain ⟨-, hip, -, -⟩ := select_length_of_wellFormed hc b
  rw [rightAfterRound1, select_ip_blockValue hc hi, preOutput_left hc, preOutput_right hc]
  exact zipWith_xor_cancel (by simp [hip, roundValue_length hc])

/-- Round 2 of the second run takes `fk(R0, K1)` off R1 again and gives L0, so its pre-output is what IP gave of the block
(R252). -/
theorem preOutput_blockValue {c : Config} (hc : c.wellFormed) (hi : c.ipInverse) (b k1 k2 : Bits) :
    preOutput c (blockValue c b k1 k2) k2 k1 = selectBits c.ip b := by
  obtain ⟨-, hip, -, -⟩ := select_length_of_wellFormed hc b
  rw [preOutput, rightAfterRound1_blockValue hc hi, select_ip_blockValue hc hi, preOutput_right hc, rightAfterRound1,
    zipWith_xor_cancel (by simp [hip, roundValue_length hc]), List.take_append_drop]

theorem blockValue_swapped {c : Config} (hc : c.wellFormed) (hi : c.ipInverse) {b : Bits} (hb : b.length = 8)
    (k1 k2 : Bits) : blockValue c (blockValue c b k1 k2) k2 k1 = b := by
  rw [blockValue, preOutput_blockValue hc hi, select_ipinv_ip hc hi hb]

/-- Settles O13: both runs answer, and the second run's rounds undo the first run's in reverse order. -/
theorem blockUndoneBySwappedSubkeys : Obligations.BlockUndoneBySwappedSubkeys := by
  unfold Obligations.BlockUndoneBySwappedSubkeys
  intro s hc hi hblk hk1 hk2
  obtain ⟨-, -, houtv, -⟩ := select_length_of_wellFormed hc (preOutput s.cfg s.sdes.blk s.sdes.k1 s.sdes.k2)
  exact ⟨_, _, blockResult s hc hblk hk1 hk2, blockResult _ hc houtv hk2 hk1, blockValue_swapped hc hi hblk _ _⟩

/-! ### DES -/

/-- DES on a 10-bit key and an 8-bit block is BLOCK after KEYSCHED (R255). -/
theorem desEngine_ok {c : Config} {key w : Text} {kv bv : Bits} {r : SdesRegs} (hc : c.wellFormed)
    (hkey : parseBits key = some kv) (hkv : kv.length = 10) (hw : parseBits w = some bv) (hbv : bv.length = 8) :
    ∃ r', desEngine c key w r = .ok r' ∧ r'.keyv = kv ∧ r'.blk = bv ∧
      r'.k1 = (subkeys c kv).1 ∧ r'.k2 = (subkeys c kv).2 ∧ r'.outv = blockValue c bv (subkeys c kv).1 (subkeys c kv).2 ∧
      r'.trace = keyRecords c kv ++ blockRecords c bv (subkeys c kv).1 (subkeys c kv).2 := by
  have hkbits : bitsOfLength keyBits key = some kv := bitsOfLength_ok hkey hkv
  have hwbits : bitsOfLength blockBits w = some bv := bitsOfLength_ok hw hbv
  obtain ⟨hk1, hk2⟩ := subkeys_length hc kv
  simp only [desEngine, hkbits, hwbits]
  rw [keySchedule_ok hc hkv]
  exact ⟨_, processBlock_ok hc hbv hk1 hk2, rfl, rfl, rfl, rfl, rfl, rfl⟩

/-- A DES layer whose engine answers completes (R255, R284). -/
theorem exec_des_of_ok {key : Text} {s : State} {r : SdesRegs} (h : desEngine s.cfg key s.w s.sdes = .ok r) :
    exec (.des key) s =
      .next (layerDone (showBits r.outv) { s with sdes := r, traceAcc := s.traceAcc ++ [r.trace] }) := by
  simp only [exec, execDes, h]

/-- A DES layer that completes had an answer of its engine (R255). -/
theorem desEngine_of_exec_des {key : Text} {s t : State} (h : exec (.des key) s = .next t) (ht : t.status ≠ .fault) :
    ∃ r, desEngine s.cfg key s.w s.sdes = .ok r := by
  cases hr : desEngine s.cfg key s.w s.sdes with
  | ok r => exact ⟨r, rfl⟩
  | error e =>
    simp only [exec, execDes, hr] at h
    obtain ⟨k, -, rfl⟩ := stopped_next h
    exact absurd (takeFault_status k .des s) ht

/-- Settles O14: the engine answers, and the layer completes with what it gives. -/
theorem desResult : Obligations.DesResult := by
  unfold Obligations.DesResult
  intro key kv bv s hc hkey hkv hw hbv
  obtain ⟨r, hr, hkeyv, hblk, hk1, hk2, houtv, htrace⟩ := desEngine_ok (r := s.sdes) hc hkey hkv hw hbv
  obtain ⟨-, -, hlen, -⟩ := select_length_of_wellFormed hc (preOutput s.cfg bv (subkeys s.cfg kv).1 (subkeys s.cfg kv).2)
  refine ⟨_, exec_des_of_ok hr, rfl, by rw [layerDone_w, houtv], ?_, htrace, desEngine_trace_length hr, hkeyv, hblk, hk1,
    hk2, houtv⟩
  rw [layerDone_w, houtv, showBits, List.length_map]
  exact hlen

/-- Settles O15: the engine has no direction among its operands. -/
theorem desIgnoresDirection : Obligations.DesIgnoresDirection := by
  unfold Obligations.DesIgnoresDirection
  intro key s t h ht
  obtain ⟨r, hr⟩ := desEngine_of_exec_des h ht
  rw [exec_des_of_ok hr] at h
  cases h
  exact exec_des_of_ok hr

end Sys2Proof.Machine
end

section
/-! PROOF. RUN as the pipeline function, the steps of a run against it, what a step runs, and what follows for tables of SKIP
layers, for traces and for decryption (spec/45_pipeline.md R280 to R292). -/

namespace Sys2Proof.Machine

/-! ### What a step finds and runs -/

/-- An issued BVU word is found first (log entry 11). -/
theorem fetch_bvu {s : State} {w : BitVec 5} (hi : s.issue = some (.bvu w)) :
    fetch s = .word (.bvu w) { s with issue := none } := by
  simp only [fetch, hi]

/-- An issued SDESQ word is found first (log entry 11). -/
theorem fetch_sdesq {s : State} {w : BitVec 3} (hi : s.issue = some (.sdesq w)) :
    fetch s = .word (.sdesq w) { s with issue := none } := by
  simp only [fetch, hi]

/-- A run in progress finds the descriptor at LP (R64, R280). -/
theorem fetch_layer {s : State} {w : Word} (hi : s.issue = none) (hb : s.status = .busy) (hl : s.lp < s.nlayers)
    (hw : fetchLayer s = some w) : fetch s = .word w s := by
  simp only [fetch, hi, if_pos hb, if_pos hl, hw]

/-- A run in progress finds no layer where none was written (R38). -/
theorem fetch_unwritten {s : State} (hi : s.issue = none) (hb : s.status = .busy) (hl : s.lp < s.nlayers)
    (hw : fetchLayer s = none) : fetch s = .unwritten := by
  simp only [fetch, hi, if_pos hb, if_pos hl, hw]

/-- A run in progress with LP at NLAYERS is at its end (R287). -/
theorem fetch_endOfRun {s : State} (hi : s.issue = none) (hb : s.status = .busy) (hl : s.nlayers ≤ s.lp) :
    fetch s = .endOfRun := by
  simp only [fetch, hi, if_pos hb, if_neg hl.not_gt]

/-- Outside a run a pending START is the command RUN (R102). -/
theorem fetch_start {s : State} (hi : s.issue = none) (hb : s.status ≠ .busy) (hs : s.start = true) :
    fetch s = .word (.cmd 1#1) s := by
  simp only [fetch, hi, if_neg hb, if_pos hs]

/-- Outside a run and without a command there is nothing to run (R342). -/
theorem fetch_idle {s : State} (hi : s.issue = none) (hb : s.status ≠ .busy) (hs : s.start = false) :
    fetch s = .idle := by
  simp [fetch, hi, hb, hs]

/-- A step runs the operation of the word it finds. -/
theorem step_word {s t : State} {w : Word} {i : Instr} (hf : fetch s = .word w t) (hd : decode w = .ok i) :
    step s = exec i t := by
  simp only [step, hf, hd]

/-- At the end of a run a step ends it (R287). -/
theorem step_endOfRun {s : State} (hf : fetch s = .endOfRun) : step s = .next (finishRun s) := by simp only [step, hf]

/-- With nothing to run a step does nothing (R342). -/
theorem step_idle {s : State} (hf : fetch s = .idle) : step s = .next s := by simp only [step, hf]

/-- A layer that was not written refuses the step (R38). -/
theorem step_unwritten {s : State} (hf : fetch s = .unwritten) : step s = .refused .inputNotWritten := by
  simp only [step, hf]

/-- Settles O36: each clause is what `fetch` finds there, decoded. -/
theorem stepRunsDecodedInstruction : Obligations.StepRunsDecodedInstruction := by
  unfold Obligations.StepRunsDecodedInstruction
  refine ⟨?bvu, ?sdesq, ?layer, ?start, ?finish, ?idle⟩
  case bvu => exact fun s w i hi hd => step_word (fetch_bvu hi) hd
  case sdesq => exact fun s w i hi hd => step_word (fetch_sdesq hi) hd
  case layer => exact fun s w i hi hb hl hw hd => step_word (fetch_layer hi hb hl hw) hd
  case start => exact fun s hi hb hs => step_word (fetch_start hi hb hs) rfl
  case finish => exact fun s hi hb hl => step_endOfRun (fetch_endOfRun hi hb hl)
  case idle => exact fun s hi hb hs => step_idle (fetch_idle hi hb hs)

/-- Settles O40: both answers come before the loop of the run. -/
theorem runNotStarted : Obligations.RunNotStarted := by
  unfold Obligations.RunNotStarted
  refine ⟨fun s hb => ?_, fun s => execRun_unwritten⟩
  rw [exec_run, execRun, if_pos hb]

/-! ### The steps of a run -/

/-- A step of a run in progress with a layer left is one turn of the loop of RUN (R280, R289). -/
theorem step_eq_runLayer {s : State} (hi : s.issue = none) (hb : s.status = .busy) (hl : s.lp < s.nlayers) :
    step s = runLayer s := by
  cases hw : fetchLayer s with
  | none => rw [step_unwritten (fetch_unwritten hi hb hl hw), runLayer, hw, Option.bind_none]
  | some w =>
    obtain ⟨alg, key, hd, hlayer, -⟩ := readDescriptor_decode hw
    rw [step_word (fetch_layer hi hb hl hw) hd, runLayer_of_fetch hw hlayer]

/-- A layer of a run leaves the issue latch and START as they are. -/
theorem runLayer_frame {s t : State} (h : runLayer s = .next t) : t.issue = s.issue ∧ t.start = s.start := by
  obtain ⟨alg, key, -, hd⟩ := runLayer_next h
  rcases dispatchLayer_next hd with ⟨out, eng, sdes, tr, rfl⟩ | ⟨k, rfl⟩
  · exact ⟨rfl, rfl⟩
  · exact ⟨rfl, rfl⟩

/-- A core with nothing to run stays as it is (R342). -/
theorem runSteps_idle {s : State} (hf : fetch s = .idle) (n : Nat) : runSteps n s = .next s := by
  induction n with
  | zero => rfl
  | succ n ih => rw [runSteps, step_idle hf]; exact ih

/-- With no word issued and no command pending, the steps are the loop of RUN for as many turns (R280, R289). -/
theorem runSteps_eq_continueRun {s : State} (hi : s.issue = none) (hs : s.start = false) (n : Nat) :
    runSteps n s = continueRun n s := by
  induction n generalizing s with
  | zero => rfl
  | succ n ih =>
    by_cases hb : s.status = .busy
    · by_cases hl : s.lp < s.nlayers
      · rw [runSteps, continueRun, if_pos hb, if_pos hl, step_eq_runLayer hi hb hl]
        cases hr : runLayer s with
        | next t =>
          obtain ⟨hissue, hstart⟩ := runLayer_frame hr
          exact ih (hissue.trans hi) (hstart.trans hs)
        | fault r => rfl
        | refused r => rfl
      · rw [runSteps, continueRun, if_pos hb, if_neg hl, step_endOfRun (fetch_endOfRun hi hb (not_lt.1 hl))]
        exact runSteps_idle (fetch_idle (s := finishRun s) hi (by simp) hs) n
    · rw [runSteps_idle (fetch_idle hi hb hs), continueRun, if_neg hb]

/-- Settles O41: the start of a run leaves no command pending, so its steps are the loop of RUN. -/
theorem stepsComputeRun : Obligations.StepsComputeRun := by
  unfold Obligations.StepsComputeRun
  intro s text hb hi hw ht
  obtain ⟨_, ls, -, hls⟩ := inputsWritten_iff.1 hw
  rw [exec_run, execRun_of_read hb ht hls]
  exact runSteps_eq_continueRun (s := beginRun text s) hi rfl _

/-! ### RUN against the pipeline -/

/-- Settles O38: a run ends as its pipeline does, from a start that cleared the fault registers. -/
theorem runIsPipeline : Obligations.RunIsPipeline := by
  unfold Obligations.RunIsPipeline
  intro s text ls hb ht hls
  rw [exec_run]
  have hend := execRun_pipeline hb ht hls
  generalize pipeline s.cfg s.dir (processingOrder s.dir ls) text [] = p at hend ⊢
  generalize execRun s = o at hend ⊢
  cases hend with
  | done hu hw hacc hlp =>
    subst hw hacc
    refine ⟨_, rfl, rfl, runOutcome_finishRun _, rfl, rfl, hlp, rfl, rfl, ?_⟩
    cases hu
    exact ⟨rfl, rfl, rfl⟩
  | fault hu hi =>
    subst hi
    refine ⟨_, rfl, rfl, runOutcome_takeFault .., ?_⟩
    cases hu
    exact ⟨rfl, rfl, rfl, rfl⟩
  | refused r i alg => rfl

/-- A run whose pipeline completes gives the host the pipeline's text and rendered traces (R285, R287). -/
theorem execRun_of_pipeline_ok {s : State} {text out : Text} {ls : List Layer} {traces : List Trace}
    (hb : s.status ≠ .busy) (ht : memReadText s.textIn s.tlen = some text) (hls : tableLayers s = some ls)
    (hp : pipeline s.cfg s.dir (processingOrder s.dir ls) text [] = .ok (out, traces)) :
    ∃ t, exec .run s = .next t ∧ t.status = .done ∧ runOutcome t = some (.done out (renderAll traces)) := by
  have h := runIsPipeline s text ls hb ht hls
  rw [hp] at h
  obtain ⟨t, hrun, hdone, hout, -⟩ := h
  exact ⟨t, hrun, hdone, hout⟩

/-- The layers of the table in table order (R281). -/
theorem map_snd_processingOrder (ls : List Layer) : (processingOrder .encrypt ls).map Prod.snd = ls :=
  List.map_snd_zip (by simp)

/-- The processing order runs over the layers of the table, in either direction (R281). -/
theorem forall_mem_processingOrder {d : Dir} {ls : List Layer} {P : Layer → Prop} :
    (∀ l ∈ processingOrder d ls, P l.2) ↔ ∀ l ∈ ls, P l := by
  have hencrypt : (∀ l ∈ processingOrder .encrypt ls, P l.2) ↔ ∀ l ∈ ls, P l := by
    rw [← List.forall_mem_map (f := Prod.snd), map_snd_processingOrder]
  cases d with
  | encrypt => exact hencrypt
  | decrypt => rw [← hencrypt]; simp [processingOrder]

/-! ### SKIP -/

/-- A descriptor with ALG 000 decodes to SKIP without a look at its key (R283). -/
theorem decode_layer_skip {h : BitVec 8} (hh : algField h = 0#3) (n : Nat) (key : Text) :
    decode (.layer h n key) = .ok .skip := by
  simp only [decode, decodeLayer, if_pos ((algOfCode_eq_skip _).2 hh)]

/-- SKIP layers hand the text on and append no trace (R283). -/
theorem pipeline_skip {order : List (Nat × Layer)} (h : ∀ l ∈ order, l.2.1 = .skip) (c : Config) (d : Dir) (w : Text)
    (acc : List Trace) : pipeline c d order w acc = .ok (w, acc) := by
  induction order with
  | nil => rfl
  | cons l order ih =>
    obtain ⟨hl, horder⟩ := List.forall_mem_cons.1 h
    simp [pipeline, hl, engineText, ih horder]

/-- Settles O35: SKIP decodes from ALG alone, advances LP, and a pipeline of SKIP layers hands its text on. -/
theorem skipResult : Obligations.SkipResult := by
  unfold Obligations.SkipResult
  refine ⟨fun h n key hh => decode_layer_skip hh n key, fun s => rfl, fun s text ls hb ht hls hskip => ?_⟩
  have horder : ∀ l ∈ processingOrder s.dir ls, l.2.1 = .skip := forall_mem_processingOrder.2 hskip
  obtain ⟨t, hrun, -, hout⟩ := execRun_of_pipeline_ok hb ht hls (pipeline_skip horder ..)
  exact ⟨t, hrun, hout⟩

/-! ### TRACE and the DES layers -/

/-- A joined text is empty only when its first part is. -/
theorem joinText_cons_ne_nil (sep : Text) {t : Text} (ht : t ≠ []) (ts : List Text) : joinText sep (t :: ts) ≠ [] := by
  cases ts with
  | nil => exact ht
  | cons u us => simp [joinText, ht]

/-- A record's line is not empty: it holds the colon (R261). -/
theorem renderRecord_ne_nil (r : TraceRecord) : renderRecord r ≠ [] := by simp [renderRecord, ascii]

/-- A trace with a record has a text (R261). -/
theorem renderTrace_ne_nil {t : Trace} (ht : t ≠ []) : renderTrace t ≠ [] := by
  obtain ⟨r, rs, rfl⟩ := List.exists_cons_of_ne_nil ht
  exact joinText_cons_ne_nil _ (renderRecord_ne_nil r) _

/-- The rendered traces are empty exactly when there is no trace (R285). -/
theorem renderAll_eq_nil_iff {ts : List Trace} (hts : ∀ t ∈ ts, t ≠ []) : renderAll ts = [] ↔ ts = [] := by
  cases ts with
  | nil => simp [renderAll, joinText]
  | cons t ts =>
    have ht : renderTrace t ≠ [] := renderTrace_ne_nil (hts t List.mem_cons_self)
    exact iff_of_false (joinText_cons_ne_nil _ ht _) (List.cons_ne_nil _ _)

/-- A pipeline that completes appends traces with records, and none exactly when no layer is DES (R284). -/
theorem pipeline_traces {c : Config} {d : Dir} {order : List (Nat × Layer)} {w out : Text} {acc traces : List Trace}
    (h : pipeline c d order w acc = .ok (out, traces)) :
    ∃ new, traces = acc ++ new ∧ (∀ t ∈ new, t ≠ []) ∧ (new = [] ↔ ∀ l ∈ order, l.2.1 ≠ .des) := by
  induction order generalizing w acc with
  | nil =>
    cases h
    exact ⟨[], by simp, by simp, by simp⟩
  | cons l order ih =>
    rw [pipeline] at h
    cases he : engineText c l.2.1 l.2.2 d w with
    | error e => rw [he] at h; cases h
    | ok r =>
      rw [he] at h
      obtain ⟨new, rfl, hne, hnil⟩ := ih h
      obtain ⟨hother, hdes⟩ := engineText_trace he
      refine ⟨r.2 ++ new, List.append_assoc .., ?_⟩
      rw [List.append_eq_nil_iff, hnil, List.forall_mem_cons]
      by_cases hl : l.2.1 = .des
      · obtain ⟨t, ht, hlen⟩ := hdes hl
        have htne : t ≠ [] := List.ne_nil_of_length_pos (by omega)
        simp only [ht, List.singleton_append, List.forall_mem_cons]
        exact ⟨⟨htne, hne⟩, by simp [hl]⟩
      · simp only [hother hl, List.nil_append]
        exact ⟨hne, by simp [hl]⟩

/-- Settles O44: TRACE is the rendered traces of the pipeline, which hold one trace with records for each DES layer. -/
theorem traceEmptyWithoutDes : Obligations.TraceEmptyWithoutDes := by
  unfold Obligations.TraceEmptyWithoutDes
  intro s t ls hb hls hrun hdone
  rw [exec_run] at hrun
  obtain ⟨text, ls', ht, hls'⟩ := inputsWritten_iff.1 (inputsWritten_of_execRun hb hrun)
  obtain rfl : ls' = ls := Option.some.inj (hls'.symm.trans hls)
  have hend := execRun_pipeline hb ht hls
  rw [hrun] at hend
  generalize hp : pipeline s.cfg s.dir (processingOrder s.dir ls') text [] = p at hend
  cases hend with
  | done _ _ hacc _ =>
    obtain ⟨new, hnew, hne, hnil⟩ := pipeline_traces hp
    rw [finishRun_trlen, hacc, hnew, List.nil_append, List.length_eq_zero_iff, renderAll_eq_nil_iff hne, hnil]
    exact forall_mem_processingOrder (P := fun l => l.1 ≠ .des)
  | fault => cases hdone

/-! ### The round trip of a run -/

/-- A pipeline over two parts is the second part on what the first gives (R282). -/
theorem pipeline_append {c : Config} {d : Dir} {order : List (Nat × Layer)} {w w' : Text} {acc acc' : List Trace}
    (h : pipeline c d order w acc = .ok (w', acc')) (order' : List (Nat × Layer)) :
    pipeline c d (order ++ order') w acc = pipeline c d order' w' acc' := by
  induction order generalizing w acc with
  | nil => cases h; rfl
  | cons l order ih =>
    rw [List.cons_append, pipeline]
    rw [pipeline] at h
    cases he : engineText c l.2.1 l.2.2 d w with
    | ok r => rw [he] at h; exact ih h
    | error e => rw [he] at h; cases h

/-- Layers whose decrypt directions undo them one by one are undone by the reversed pipeline (R291). -/
theorem pipeline_undone {c : Config} {order : List (Nat × Layer)} {w : Text}
    (h : undoneLayerByLayer c (order.map Prod.snd) w) :
    ∃ out, pipeline c .encrypt order w [] = .ok (out, []) ∧ pipeline c .decrypt order.reverse out [] = .ok (w, []) := by
  induction order generalizing w with
  | nil => exact ⟨w, rfl, rfl⟩
  | cons l order ih =>
    obtain ⟨mid, hmid, hback, hrest⟩ := h
    obtain ⟨out, hout, hundo⟩ := ih hrest
    refine ⟨out, ?_, ?_⟩
    · simpa only [pipeline, hmid, List.append_nil] using hout
    · rw [List.reverse_cons, pipeline_append hundo]
      simp only [pipeline, hback, List.append_nil]

/-- The round trip of the pipeline over a table (R281, R291). -/
theorem pipeline_roundTrip {c : Config} {ls : List Layer} {w : Text} (h : undoneLayerByLayer c ls w) :
    ∃ out, pipeline c .encrypt (processingOrder .encrypt ls) w [] = .ok (out, []) ∧
      pipeline c .decrypt (processingOrder .decrypt ls) out [] = .ok (w, []) :=
  pipeline_undone (order := processingOrder .encrypt ls) (by rwa [map_snd_processingOrder])

/-- With no run in progress or commanded the host's load of a text is accepted (R71, R343). -/
theorem loadText_of_no_run {s : State} (h : runInProgress s = false) (t : Text) :
    loadText t s = { s with textIn := memOfText t, tlen := t.length } := hostWrite_of_no_run _ h

/-- Two layers that do not commute: VIGENERE adds 0 and 1 to the letters in turn, ROWCOL exchanges two of them. -/
def noncommutingLayers : List Layer := [(.vigenere, ascii "ab"), (.rowcol, ascii "ba")]

/-- "aa" becomes "ab" and then "ba", and each layer's decrypt direction undoes it, for every configuration. -/
theorem noncommutingLayers_undone (c : Config) : undoneLayerByLayer c noncommutingLayers (ascii "aa") :=
  ⟨ascii "ab", rfl, rfl, ascii "ba", rfl, rfl, trivial⟩

/-- In table order the decrypt directions take "ba" to "bz" and then to "zb" (R292). -/
theorem noncommutingLayers_tableOrder (c : Config) :
    decryptInTableOrder c noncommutingLayers (ascii "ba") = .ok (ascii "zb", []) := rfl

/-- Settles O43: the reversed pipeline undoes a table whose layers are undone one by one, and two layers that do not commute
need the reversal. -/
theorem roundTripContract : Obligations.RoundTripContract := by
  unfold Obligations.RoundTripContract
  refine ⟨?roundTrip, fun c => ?reversal⟩
  case roundTrip =>
    intro s text ls hb hdir ht hls hundone
    obtain ⟨out, hout, hback⟩ := pipeline_roundTrip hundone
    obtain ⟨t, hrun, hdone, hres⟩ := execRun_of_pipeline_ok hb ht hls (by rw [hdir]; exact hout)
    obtain ⟨-, hnlayers, -, hcfg, -, -, hstart, hlayers, -⟩ := runFrame s t hrun
    refine ⟨t, out, hrun, hres, ?_⟩
    rw [loadText_of_no_run (by simp [runInProgress, hstart, hdone])]
    have hls' : tableLayers t = some ls := by rw [tableLayers, hnlayers, hlayers]; exact hls
    obtain ⟨u, hrun', -, hres'⟩ := execRun_of_pipeline_ok
      (s := { t with textIn := memOfText out, tlen := out.length, dir := .decrypt })
      (by simp [hdone]) (memReadText_ofText out) hls' (by rw [hcfg]; exact hback)
    exact ⟨u, hrun', hres'⟩
  case reversal =>
    exact ⟨noncommutingLayers, ascii "aa", ascii "ba", ascii "zb", noncommutingLayers_undone c, rfl, rfl,
      noncommutingLayers_tableOrder c, by decide⟩

end Sys2Proof.Machine
end

section
/-! PROOF. Fault entry, and the sites of the two format faults (spec/60_exceptions.md R310, R311, R314, R315, R317). -/

namespace Sys2Proof.Machine

/-! ### Fault entry -/

/-- Settles O46: fault entry is the record update of R315, with the cause code and the table index written out. -/
theorem faultEntryWrites : Obligations.FaultEntryWrites := by
  unfold Obligations.FaultEntryWrites
  intro k alg s
  rfl

/-- A layer whose engine raises a fault takes it under its own algorithm (R282, R315). -/
theorem exec_ofLayer_raised {alg : Alg} {key : Text} {s : State} {k : FaultKind}
    (h : engineText s.cfg alg key s.dir s.w = .error (.raised k)) :
    exec (Instr.ofLayer alg key) s = .next (takeFault k alg s) := by
  have hd := dispatchLayer_engineText alg key s
  rw [h] at hd
  rw [exec_ofLayer, hd, stopped]

/-! ### InvalidKeyFormat -/

/-- CAESAR and RAILFENCE raise on a key that is no integer string (R94, R311). -/
theorem engineText_error_of_parseInt {alg : Alg} {key : Text} (halg : alg = .caesar ∨ alg = .railfence)
    (h : parseInt key = none) (c : Config) (d : Dir) (w : Text) :
    engineText c alg key d w = .error (.raised .invalidKeyFormat) := by
  rcases halg with rfl | rfl
  · simp only [engineText, caesarEngine, h, Except.map]
  · simp only [engineText, railfenceEngine, h, Except.map]

/-- MONO, ROWCOL and PLAYFAIR raise on the empty key (R311). -/
theorem engineText_error_of_empty {alg : Alg} (halg : alg = .mono ∨ alg = .rowcol ∨ alg = .playfair)
    (c : Config) (d : Dir) (w : Text) : engineText c alg [] d w = .error (.raised .invalidKeyFormat) := by
  rcases halg with rfl | rfl | rfl <;> rfl

/-- VIGENERE raises on a key that is empty or holds another character than a letter (R311). -/
theorem engineText_vigenere_error {key : Text} (h : key = [] ∨ ∃ x ∈ key, isAlpha x = false)
    (c : Config) (d : Dir) (w : Text) : engineText c .vigenere key d w = .error (.raised .invalidKeyFormat) := by
  have hkey : ¬(key ≠ [] ∧ key.all isAlpha = true) := by
    rintro ⟨hne, hall⟩
    rcases h with hnil | ⟨x, hx, hxa⟩
    · exact hne hnil
    · rw [List.all_eq_true.1 hall x hx] at hxa
      cases hxa
  simp only [engineText, vigenereEngine, if_neg hkey, Except.map]

/-! ### DES: the key before the block -/

/-- A bit string of a length is what the DES layer's reader accepts (R95, R255). -/
theorem isBitString_eq_isSome (n : Nat) (t : Text) : isBitString n t = (bitsOfLength n t).isSome := by
  unfold isBitString bitsOfLength
  cases parseBits t with
  | none => rfl
  | some v => by_cases hv : v.length = n <;> simp [hv]

theorem bitsOfLength_eq_none {n : Nat} {t : Text} (h : isBitString n t = false) : bitsOfLength n t = none := by
  rwa [isBitString_eq_isSome, Option.isSome_eq_false_iff, Option.isNone_iff_eq_none] at h

/-- DES raises on a key that is no string of 10 bits, whatever the block is (R311, R317). -/
theorem engineText_des_keyError {key : Text} (h : isBitString 10 key = false) (c : Config) (d : Dir) (w : Text) :
    engineText c .des key d w = .error (.raised .invalidKeyFormat) := by
  have hkey : bitsOfLength keyBits key = none := bitsOfLength_eq_none h
  simp only [engineText, desEngine, hkey, Except.map]

/-- DES with a key of 10 bits raises on a block that is no string of 8 bits (R314, R317). -/
theorem engineText_des_blockError {key w : Text} (hk : isBitString 10 key = true) (hw : isBitString 8 w = false)
    (c : Config) (d : Dir) : engineText c .des key d w = .error (.raised .invalidBlockFormat) := by
  rw [isBitString_eq_isSome] at hk
  obtain ⟨kv, hkey⟩ : ∃ kv, bitsOfLength keyBits key = some kv := Option.isSome_iff_exists.1 hk
  have hblk : bitsOfLength blockBits w = none := bitsOfLength_eq_none hw
  simp only [engineText, desEngine, hkey, hblk, Except.map]

/-- Settles O47: the engine of each layer raises on its malformed key or block, and a layer takes what its engine raises. -/
theorem malformedLayersTakeTheirFault : Obligations.MalformedLayersTakeTheirFault := by
  unfold Obligations.MalformedLayersTakeTheirFault
  intro key s
  refine ⟨fun h => ⟨?caesar, ?railfence⟩, ?emptyKey, fun h => ?vigenere, fun h => ?desKey, fun hk hw => ?desBlock⟩
  case caesar => exact exec_ofLayer_raised (engineText_error_of_parseInt (.inl rfl) h ..)
  case railfence => exact exec_ofLayer_raised (engineText_error_of_parseInt (.inr rfl) h ..)
  case emptyKey =>
    rintro rfl
    exact ⟨exec_ofLayer_raised (engineText_error_of_empty (.inl rfl) ..),
      exec_ofLayer_raised (engineText_error_of_empty (.inr (.inl rfl)) ..),
      exec_ofLayer_raised (engineText_error_of_empty (.inr (.inr rfl)) ..)⟩
  case vigenere => exact exec_ofLayer_raised (engineText_vigenere_error h ..)
  case desKey => exact exec_ofLayer_raised (engineText_des_keyError h ..)
  case desBlock => exact exec_ofLayer_raised (engineText_des_blockError hk hw ..)

end Sys2Proof.Machine
end
